-- ==== Sys2Proof/Word.lean ====
section
/-! DEFINITION. The word types of the block (00_scope.md R12, R13): bytes, wire addresses and the 32-bit
fields of the host port. -/

namespace Sys2Proof

/-- A byte, unsigned, 0..255 (R12). -/
abbrev Byte := BitVec 8

/-- A 24-bit wire address (`ADDR_BITS`, R9; 20_memory.md R72). -/
abbrev Addr := BitVec 24

/-- A 32-bit field of a host request or response (`REQ_ADDR_BITS`, `LEN_BITS`, R9; 10_state.md R49, R51). -/
abbrev Word := BitVec 32

end Sys2Proof
end

