-- ==== Sys2Proof/Config.lean ====
section
/-! DEFINITION. The implementation parameters of 00_scope.md R9 and the free values of R15. The geometry is fixed
by the source; every other parameter is a field of `Params`, which the machine carries unchanged, so that a
statement about every state is a statement about every admitted parameter set (log 4). -/

namespace Sys2Proof

namespace Config

/-- `PAGE`, the most one page program writes (R9, R17). -/
def page : Nat := 256

/-- `SECTOR`, the smallest erase unit (R9, R18). -/
def sector : Nat := 4096

/-- `BLOCK`, the larger erase unit (R9, R19). -/
def block : Nat := 65536

/-- `ERASED`, what every byte reads after an erase (R9). -/
def erased : Byte := 0xFF

/-- The free value of the `n`-th `draw()` (R15): any byte, never chosen by the model. Log 3. -/
opaque draw : Nat → Byte

/-- The free number of turns that no schedule fixes and that the device, once BUSY, lets pass before it completes
(40_bus_commands.md R149), by the count of draws: any number, never chosen by the model, so that the completion step
is weakly fair. Log 21. -/
opaque drawDelay : Nat → Nat

/-- The free value of the 32-bit `value` field that reports a capacity `2^e` which the field cannot hold, by the
exponent. Log 28. -/
opaque wideCapacity : Byte → Word

end Config

/-- The parameters `OPC_*`: the opcode byte of each wire command (R9; 30_encoding.md R100, D43). -/
structure Opcodes where
  /-- `OPC_WREN`. -/
  wren : Byte
  /-- `OPC_RDSR`. -/
  rdsr : Byte
  /-- `OPC_WRSR`. -/
  wrsr : Byte
  /-- `OPC_READ`. -/
  read : Byte
  /-- `OPC_FAST_READ`. -/
  fastRead : Byte
  /-- `OPC_PP`. -/
  pp : Byte
  /-- `OPC_SE`. -/
  se : Byte
  /-- `OPC_BE`. -/
  be : Byte
  /-- `OPC_CE`. -/
  ce : Byte
  /-- `OPC_PD`. -/
  pd : Byte
  /-- `OPC_RPD`. -/
  rpd : Byte
  /-- `OPC_RDID`. -/
  rdid : Byte
  /-- `OPC_JEDEC`. -/
  jedec : Byte
  /-- `OPC_RSTEN`. -/
  rsten : Byte
  /-- `OPC_RST`. -/
  rst : Byte
  deriving DecidableEq, Repr

/-- The bytes of a table, in the order of R100. -/
def Opcodes.bytes (t : Opcodes) : List Byte :=
  [t.wren, t.rdsr, t.wrsr, t.read, t.fastRead, t.pp, t.se, t.be, t.ce, t.pd, t.rpd, t.rdid, t.jedec, t.rsten, t.rst]

/-- Each byte names at most one command (log 11). -/
def Opcodes.distinct (t : Opcodes) : Bool := decide t.bytes.Nodup

/-- The default bytes of the table of R100. -/
def Opcodes.default : Opcodes where
  wren := 0x06
  rdsr := 0x05
  wrsr := 0x01
  read := 0x03
  fastRead := 0x0B
  pp := 0x02
  se := 0x20
  be := 0xD8
  ce := 0xC7
  pd := 0xB9
  rpd := 0xAB
  rdid := 0x90
  jedec := 0x9F
  rsten := 0x66
  rst := 0x99

/-- The parameters a model takes (R9, R11, R54). No step writes them. -/
structure Params where
  /-- `CAPACITY`, bytes of the array (D33). -/
  capacity : Nat
  /-- `POLL_LIMIT`: `none` is the unbounded reference behaviour (D10). -/
  pollLimit : Option Nat
  /-- `EXPECTED_MFR` (D20). -/
  expectedMfr : Byte
  /-- `EXP_MIN` (D21). -/
  expMin : Byte
  /-- `EXP_MAX` (D21). -/
  expMax : Byte
  /-- `SELF_TEST_PATTERN` (D22). -/
  pattern : List Byte
  /-- `SR_BUSY_BIT` (D13). -/
  srBusyBit : Nat
  /-- `SR_WEL_BIT` (D13). -/
  srWelBit : Nat
  /-- `DEV_MFR` (D43). -/
  devMfr : Byte
  /-- `DEV_TYPE` (D43). -/
  devType : Byte
  /-- `DEV_CAPEXP` (D43). -/
  devCapExp : Byte
  /-- `DEV_ID8` (D43). -/
  devId8 : Byte
  /-- `OPC_*` (D43; 30_encoding.md R100). -/
  opc : Opcodes
  deriving DecidableEq, Repr

/-- `SECTOR_COUNT`, the number of sectors (R9; 20_memory.md R73). -/
def Params.sectorCount (p : Params) : Nat := p.capacity / Config.sector

/-- The geometry invariant (R10) of a 24-bit-addressed array (R9, 20_memory.md R72): `PAGE` divides `SECTOR`, `SECTOR`
divides `BLOCK`, `BLOCK` divides `CAPACITY`, and `CAPACITY <= 2^24`. That the array holds at least one block is read
from D21 (log 5). -/
def Params.geometryOk (p : Params) : Bool :=
  decide (Config.sector % Config.page = 0) && decide (Config.block % Config.sector = 0)
    && decide (p.capacity % Config.block = 0) && decide (0 < p.capacity) && decide (p.capacity ≤ 2 ^ 24)

/-- The parameter sets R9 admits: the geometry invariant holds, a poll limit is positive, the pattern has 256
bytes, the two status bits are distinct bits of a byte, and no two commands share an opcode byte (log 11). -/
def Params.wf (p : Params) : Bool :=
  p.geometryOk && decide (p.pollLimit ≠ some 0) && decide (p.pattern.length = Config.page)
    && decide (p.srBusyBit < 8) && decide (p.srWelBit < 8) && decide (p.srBusyBit ≠ p.srWelBit)
    && p.opc.distinct

/-- The default pattern `p[i] = i` (R9, D22). -/
def Params.defaultPattern : List Byte := (List.range Config.page).map (BitVec.ofNat 8)

/-- The defaults of the table of R9. -/
def Params.default : Params where
  capacity := 16777216
  pollLimit := none
  expectedMfr := 0xEF
  expMin := 0x10
  expMax := 0x18
  pattern := Params.defaultPattern
  srBusyBit := 0
  srWelBit := 1
  devMfr := 0xEF
  devType := 0x40
  devCapExp := 0x18
  devId8 := 0x17
  opc := Opcodes.default

end Sys2Proof
end

