-- ==== Sys2Proof/Syntax.lean ====
section
/-! DEFINITION. The two instruction sets of the block: the wire frames of 30_encoding.md R100 and the host
requests of R115, one constructor of `Instr` per row of spec/opcode_table.json, and the raw forms they are
encoded in (R96 to R99, R106). -/

namespace Sys2Proof

/-- The wire commands, a closed enumeration (R100, R105). -/
inductive WireOp where
  | wren | rdsr | wrsr | read | fastRead | pp | se | be | ce | pd | rpd | rdid | jedec | rsten | rst
  deriving DecidableEq, Repr

/-- The frame formats by the bytes after the opcode (R96). -/
inductive Format where
  | f0 | f1 | f2 | f3 | f4 | f5 | f6
  deriving DecidableEq, Repr

/-- The host operations (R115). -/
inductive HostOp where
  | init | readId | readJedecId | read | write | writeNoCheck | eraseSector | eraseBlock | eraseChip
  | powerDown | wakeUp | selfTest
  deriving DecidableEq, Repr

/-- The operand fields every host request carries (10_state.md R49; 30_encoding.md R107). -/
structure HostArgs where
  addr : Word
  len : Word
  data : List Byte
  deriving DecidableEq, Repr

/-- One chip-select bracket as the bus sees it (R96 to R98): the opcode byte, the further bytes the controller
sends (address, dummy, payload), and how many payload bytes are read before select is deasserted. -/
structure RawFrame where
  opc : Byte
  rest : List Byte
  nin : Nat
  deriving DecidableEq, Repr

/-- A host request as its words (`HREQ`, R106): the command word, then the operand fields. -/
structure HostWord where
  cmd : Word
  addr : Word
  len : Word
  data : List Byte
  deriving DecidableEq, Repr

/-- Either interface's encoded form. -/
inductive Packet where
  | frame (f : RawFrame)
  | request (w : HostWord)
  deriving DecidableEq, Repr

/-- The instructions: one constructor per row of the opcode table. A wire frame carries the operands of its
format (R97): an address, write payload bytes `out`, and the count `nin` of bytes read. A host request carries
the operand fields of R49. -/
inductive Instr where
  | wren
  | rdsr (nin : Nat)
  | wrsr (out : List Byte)
  | wireRead (addr : Addr) (nin : Nat)
  | fastRead (addr : Addr) (dummy : Byte) (nin : Nat)
  | pp (addr : Addr) (out : List Byte)
  | se (addr : Addr)
  | be (addr : Addr)
  | ce
  | pd
  | rpd
  | rdid (addr : Addr) (nin : Nat)
  | jedec (nin : Nat)
  | rsten
  | rst
  | hostInit (args : HostArgs)
  | readId (args : HostArgs)
  | readJedecId (args : HostArgs)
  | hostRead (args : HostArgs)
  | hostWrite (args : HostArgs)
  | writeNoCheck (args : HostArgs)
  | eraseSector (args : HostArgs)
  | eraseBlock (args : HostArgs)
  | eraseChip (args : HostArgs)
  | powerDown (args : HostArgs)
  | wakeUp (args : HostArgs)
  | selfTest (args : HostArgs)
  deriving DecidableEq, Repr

end Sys2Proof
end

