-- ==== Sys2Proof/WellFormed.lean ====
section
/-! DEFINITION. Which instructions are well formed: for a frame the checks of 40_bus_commands.md R141 (R102), for
a request the length check of 10_state.md R50. The machine does not stop on an ill-formed one: it raises
`BadFrame` (R141) or `BadRequest` (R263); `Laws/Frames.lean` shows that its own checks are these. -/

namespace Sys2Proof

/-- Well-formedness of an instruction on a device of `capacity` bytes. The commands the block never emits have
no checks of their own (R150 refuses them first). -/
def Instr.wellFormed (capacity : Nat) : Instr → Bool
  | .wren => true
  | .rdsr nin => decide (nin = 1)
  | .wrsr _ => true
  | .wireRead a nin => decide (1 ≤ nin) && decide (a.toNat + nin ≤ capacity)
  | .fastRead _ _ _ => true
  | .pp a out => decide (1 ≤ out.length) && decide (out.length ≤ Config.page)
      && decide (a.toNat % Config.page + out.length ≤ Config.page) && decide (a.toNat + out.length ≤ capacity)
  | .se a => decide (a.toNat < capacity)
  | .be a => decide (a.toNat < capacity)
  | .ce => true
  | .pd => true
  | .rpd => true
  | .rdid a nin => decide (a = 0) && decide (nin = 2)
  | .jedec nin => decide (nin = 3)
  | .rsten => true
  | .rst => true
  | .hostInit _ => true
  | .readId _ => true
  | .readJedecId _ => true
  | .hostRead _ => true
  | .hostWrite x => decide (x.data.length = x.len.toNat)
  | .writeNoCheck x => decide (x.data.length = x.len.toNat)
  | .eraseSector _ => true
  | .eraseBlock _ => true
  | .eraseChip _ => true
  | .powerDown _ => true
  | .wakeUp _ => true
  | .selfTest _ => true

end Sys2Proof
end

