-- ==== Sys2Proof/Decode.lean ====
section
/-! DEFINITION. Decoding and encoding of the two interfaces (30_encoding.md R96 to R108, R115). The decoder is
total: it answers an instruction or a named reason. Opcode bytes are those of a table `t`, the parameters `OPC_*`
(R100); the host operation codes are R115's. -/

namespace Sys2Proof

/-- The opcode byte of a wire command: the parameter `OPC_<mnemonic>` (R100). -/
def WireOp.byte (t : Opcodes) : WireOp → Byte
  | .wren => t.wren
  | .rdsr => t.rdsr
  | .wrsr => t.wrsr
  | .read => t.read
  | .fastRead => t.fastRead
  | .pp => t.pp
  | .se => t.se
  | .be => t.be
  | .ce => t.ce
  | .pd => t.pd
  | .rpd => t.rpd
  | .rdid => t.rdid
  | .jedec => t.jedec
  | .rsten => t.rsten
  | .rst => t.rst

/-- The frame format of a wire command (R100). -/
def WireOp.format : WireOp → Format
  | .wren => .f0
  | .rdsr => .f1
  | .wrsr => .f6
  | .read => .f4
  | .fastRead => .f5
  | .pp => .f3
  | .se => .f2
  | .be => .f2
  | .ce => .f0
  | .pd => .f0
  | .rpd => .f0
  | .rdid => .f4
  | .jedec => .f1
  | .rsten => .f0
  | .rst => .f0

/-- Every wire command of the table of R100, in its order. -/
def WireOp.all : List WireOp :=
  [.wren, .rdsr, .wrsr, .read, .fastRead, .pp, .se, .be, .ce, .pd, .rpd, .rdid, .jedec, .rsten, .rst]

/-- The command of an opcode byte, none for a reserved byte (R104, R105); in a table that repeats a byte, the first
command that has it (log 11). -/
def WireOp.ofByte? (t : Opcodes) (b : Byte) : Option WireOp := WireOp.all.find? (fun op => decide (op.byte t = b))

/-- Whether a format has the three address bytes (R96). -/
def Format.hasAddr : Format → Bool
  | .f2 | .f3 | .f4 | .f5 => true
  | .f0 | .f1 | .f6 => false

/-- The three address bytes in bus order, most significant first (R97; 20_memory.md R74). -/
def addrBytes (a : Addr) : List Byte :=
  [a.extractLsb' 16 8, a.extractLsb' 8 8, a.extractLsb' 0 8]

/-- The address assembled from its bytes, `byte1 ‖ byte2 ‖ byte3` (R99). -/
def addrOfBytes (b1 b2 b3 : Byte) : Addr := b1 ++ b2 ++ b3

/-- A frame laid out by R97: opcode, the address if there is one, then the bytes sent. -/
def rawFrame (t : Opcodes) (op : WireOp) (addr : Option Addr) (out : List Byte) (nin : Nat) : RawFrame :=
  ⟨op.byte t, (match addr with | some a => addrBytes a | none => []) ++ out, nin⟩

/-- Why bytes are no instruction. -/
inductive DecodeError where
  /-- A byte outside the table of R100 (R104), with the bytes that follow it. -/
  | unknownOpcode (opc : Byte) (rest : List Byte) (nin : Nat)
  /-- A command of the table whose frame does not have its format (R141): the address the frame carries, if its
  format has one and the bytes are there, the payload bytes sent and the count read. -/
  | badFormat (op : WireOp) (addr : Option Addr) (out : List Byte) (nin : Nat)
  /-- A command word that selects no operation, or with a reserved bit set (R106, R108). -/
  | illegalOp (w : HostWord)
  deriving DecidableEq, Repr

/-- A command that is its opcode alone (format F0). -/
def decodeBare (rest : List Byte) (nin : Nat) (i : Instr) : Option Instr :=
  if rest = [] ∧ nin = 0 then some i else none

/-- The three address bytes at the front, then a continuation on the address and the bytes after it (R97, R99). -/
def decodeAddr (rest : List Byte) (k : Addr → List Byte → Option Instr) : Option Instr :=
  match rest with
  | b1 :: b2 :: b3 :: out => k (addrOfBytes b1 b2 b3) out
  | _ => none

/-- The operands of a command from the bytes after its opcode, by its format (R96, R97); none when the frame does
not have that format. -/
def decodeOperands (op : WireOp) (rest : List Byte) (nin : Nat) : Option Instr :=
  match op with
  | .wren => decodeBare rest nin .wren
  | .rdsr => if rest = [] then some (.rdsr nin) else none
  | .wrsr => if nin = 0 then some (.wrsr rest) else none
  | .read => decodeAddr rest fun a out => if out = [] then some (.wireRead a nin) else none
  | .fastRead => decodeAddr rest fun a out =>
    match out with
    | [d] => some (.fastRead a d nin)
    | _ => none
  | .pp => decodeAddr rest fun a out => if nin = 0 then some (.pp a out) else none
  | .se => decodeAddr rest fun a out => decodeBare out nin (.se a)
  | .be => decodeAddr rest fun a out => decodeBare out nin (.be a)
  | .ce => decodeBare rest nin .ce
  | .pd => decodeBare rest nin .pd
  | .rpd => decodeBare rest nin .rpd
  | .rdid => decodeAddr rest fun a out => if out = [] then some (.rdid a nin) else none
  | .jedec => if rest = [] then some (.jedec nin) else none
  | .rsten => decodeBare rest nin .rsten
  | .rst => decodeBare rest nin .rst

/-- What a frame of the wrong format carries, as R141's `BadFrame` reports it (log 17). -/
def badFormatOf (op : WireOp) (rest : List Byte) (nin : Nat) : DecodeError :=
  match op.format.hasAddr, rest with
  | true, b1 :: b2 :: b3 :: out => .badFormat op (some (addrOfBytes b1 b2 b3)) out nin
  | _, out => .badFormat op none out nin

/-- The device's decoder of a frame (R98, R105). -/
def decodeFrame (t : Opcodes) (f : RawFrame) : Except DecodeError Instr :=
  match WireOp.ofByte? t f.opc with
  | none => .error (.unknownOpcode f.opc f.rest f.nin)
  | some op =>
    match decodeOperands op f.rest f.nin with
    | some i => .ok i
    | none => .error (badFormatOf op f.rest f.nin)

/-- The code of a host operation (R115). -/
def HostOp.code : HostOp → BitVec 4
  | .init => 0x1
  | .readId => 0x2
  | .readJedecId => 0x3
  | .read => 0x4
  | .write => 0x5
  | .writeNoCheck => 0x6
  | .eraseSector => 0x7
  | .eraseBlock => 0x8
  | .eraseChip => 0x9
  | .powerDown => 0xA
  | .wakeUp => 0xB
  | .selfTest => 0xC

/-- The host operations in the order of R115. -/
def HostOp.all : List HostOp :=
  [.init, .readId, .readJedecId, .read, .write, .writeNoCheck, .eraseSector, .eraseBlock, .eraseChip,
    .powerDown, .wakeUp, .selfTest]

/-- The operation of a code, none for the reserved codes 0x0, 0xD, 0xE, 0xF (R108). -/
def HostOp.ofCode? (c : BitVec 4) : Option HostOp := HostOp.all.find? (fun op => decide (op.code = c))

/-- The field `cmd[3:0]` of a command word (R106). -/
def cmdOp (cmd : Word) : BitVec 4 := cmd.extractLsb' 0 4

/-- The reserved field `cmd[31:4]` of a command word (R106). -/
def cmdReserved (cmd : Word) : BitVec 28 := cmd.extractLsb' 4 28

/-- The instruction of a host operation and its operand fields. -/
def HostOp.instr (op : HostOp) (x : HostArgs) : Instr :=
  match op with
  | .init => .hostInit x
  | .readId => .readId x
  | .readJedecId => .readJedecId x
  | .read => .hostRead x
  | .write => .hostWrite x
  | .writeNoCheck => .writeNoCheck x
  | .eraseSector => .eraseSector x
  | .eraseBlock => .eraseBlock x
  | .eraseChip => .eraseChip x
  | .powerDown => .powerDown x
  | .wakeUp => .wakeUp x
  | .selfTest => .selfTest x

/-- The controller's decoder of a request (R106, R108, R115). -/
def decodeRequest (w : HostWord) : Except DecodeError Instr :=
  if cmdReserved w.cmd = 0 then
    match HostOp.ofCode? (cmdOp w.cmd) with
    | some op => .ok (op.instr ⟨w.addr, w.len, w.data⟩)
    | none => .error (.illegalOp w)
  else .error (.illegalOp w)

/-- Decoding of either interface. -/
def decode (t : Opcodes) : Packet → Except DecodeError Instr
  | .frame f => decodeFrame t f
  | .request w => decodeRequest w

/-- A request's words: the code in `cmd[3:0]`, zeros above it, then the fields (R106). -/
def requestWord (op : HostOp) (x : HostArgs) : HostWord :=
  ⟨(0 : BitVec 28) ++ op.code, x.addr, x.len, x.data⟩

/-- The encoder, from the same tables (R97, R100, R106, R115). -/
def encode (t : Opcodes) : Instr → Packet
  | .wren => .frame (rawFrame t .wren none [] 0)
  | .rdsr nin => .frame (rawFrame t .rdsr none [] nin)
  | .wrsr out => .frame (rawFrame t .wrsr none out 0)
  | .wireRead a nin => .frame (rawFrame t .read (some a) [] nin)
  | .fastRead a d nin => .frame (rawFrame t .fastRead (some a) [d] nin)
  | .pp a out => .frame (rawFrame t .pp (some a) out 0)
  | .se a => .frame (rawFrame t .se (some a) [] 0)
  | .be a => .frame (rawFrame t .be (some a) [] 0)
  | .ce => .frame (rawFrame t .ce none [] 0)
  | .pd => .frame (rawFrame t .pd none [] 0)
  | .rpd => .frame (rawFrame t .rpd none [] 0)
  | .rdid a nin => .frame (rawFrame t .rdid (some a) [] nin)
  | .jedec nin => .frame (rawFrame t .jedec none [] nin)
  | .rsten => .frame (rawFrame t .rsten none [] 0)
  | .rst => .frame (rawFrame t .rst none [] 0)
  | .hostInit x => .request (requestWord .init x)
  | .readId x => .request (requestWord .readId x)
  | .readJedecId x => .request (requestWord .readJedecId x)
  | .hostRead x => .request (requestWord .read x)
  | .hostWrite x => .request (requestWord .write x)
  | .writeNoCheck x => .request (requestWord .writeNoCheck x)
  | .eraseSector x => .request (requestWord .eraseSector x)
  | .eraseBlock x => .request (requestWord .eraseBlock x)
  | .eraseChip x => .request (requestWord .eraseChip x)
  | .powerDown x => .request (requestWord .powerDown x)
  | .wakeUp x => .request (requestWord .wakeUp x)
  | .selfTest x => .request (requestWord .selfTest x)

/-- The shortest well-formed frame of an opcode byte with every operand bit 0 (log 19): the payload counts, which
the table's bits do not give (R98), are the least that R102 admits. -/
def tableFrame (t : Opcodes) (b : Byte) : RawFrame :=
  match WireOp.ofByte? t b with
  | some .rdsr => rawFrame t .rdsr none [] 1
  | some .read => rawFrame t .read (some 0) [] 1
  | some .fastRead => rawFrame t .fastRead (some 0) [0] 1
  | some .pp => rawFrame t .pp (some 0) [0] 0
  | some .se => rawFrame t .se (some 0) [] 0
  | some .be => rawFrame t .be (some 0) [] 0
  | some .rdid => rawFrame t .rdid (some 0) [] 2
  | some .jedec => rawFrame t .jedec none [] 3
  | some .wrsr => rawFrame t .wrsr none [0] 0
  | _ => ⟨b, [], 0⟩

/-- The packet of a table word: 8 bits are a frame's opcode byte, 32 bits a request's command word. -/
def tablePacket (t : Opcodes) (nbits w : Nat) : Option Packet :=
  if nbits = 8 ∧ w < 2 ^ 8 then some (.frame (tableFrame t (BitVec.ofNat 8 w)))
  else if nbits = 32 ∧ w < 2 ^ 32 then some (.request ⟨BitVec.ofNat 32 w, 0, 0, []⟩)
  else none

/-- What the decoder, with the default opcode bytes, reads from a table word whose further operands are all zero. -/
def decodeTableWord (nbits w : Nat) : Option Instr :=
  match tablePacket Opcodes.default nbits w with
  | some p =>
    match decode Opcodes.default p with
    | .ok i => some i
    | .error _ => none
  | none => none

end Sys2Proof
end

