-- ==== Sys2Proof/Machine/State.lean ====
section
/-! DEFINITION. The state of the three agents (10_state.md R30 to R57) as plain data: the controller's registers and
its position in the running pseudocode, the device, the host port, the model's bookkeeping, and the fields that
say which agent moves next. -/

namespace Sys2Proof.Machine

/-- R32. -/
inductive CtlState where
  | idle
  | running
  deriving DecidableEq, Repr

/-- Result codes (60_exceptions.md R251). -/
inductive Result where
  | ok
  | idMismatch
  | sizeOutOfRange
  | dataMismatch
  | timeout
  deriving DecidableEq, Repr

/-- The request latched at acceptance (R33, R49). -/
structure Request where
  op : BitVec 4
  addr : Word
  len : Word
  data : List Byte
  deriving DecidableEq, Repr

/-- A response (R51). -/
structure Response where
  result : Result
  value : Word
  data : List Byte
  deriving DecidableEq, Repr

/-- The device's operation in progress (R45). -/
inductive Pending where
  | none
  | program (addr : Addr) (bytes : List Byte)
  | eraseSector (base : Addr)
  | eraseBlock (base : Addr)
  | eraseChip
  deriving DecidableEq, Repr

/-- Fault records with their info (60_exceptions.md R257, R260; 90_conflicts.md C9). -/
inductive FaultRecord where
  | outOfRange (addr len : Word)
  | illegalOp (cmd : Word)
  | badRequest (op : BitVec 4) (len : Word) (dataLength : Nat)
  | reentrant (op : BitVec 4)
  | deviceAsleep (opc : Byte)
  | badFrame (opc : Byte) (addr : Option Addr) (outLength nin : Nat)
  | scratchUninit (index : Nat)
  | unmodelled (opc : Byte)
  deriving DecidableEq, Repr

/-- An entry of the observation trace (R40, R127): a frame with what was sent and read, or a completion step. -/
inductive TraceEntry where
  | frame (opc : Byte) (addr : Option Addr) (out inn : List Byte)
  | complete
  deriving DecidableEq, Repr

/-- Where a write takes its source bytes: the request's `data`, or the self-test pattern (44_id_selftest_power.md
R238). -/
inductive DataSrc where
  | request
  | pattern
  deriving DecidableEq, Repr

/-- The three uses of `ProgramPages(src, a, n)` (43_read_write.md R216): `write_no_check` on the whole request
(R214), the direct program of a chunk (R205), and the merged sector (R204). -/
inductive PageWalk where
  | raw
  | direct (src : DataSrc)
  | merged
  deriving DecidableEq, Repr

/-- The erase frames the pseudocode sends: `erase_sector` (R183), `erase_block` (R185), `erase_chip` (R187), step
4a of a chunk (R204), and the self-test's sector 0 (R240). -/
inductive EraseTarget where
  | reqSector
  | reqBlock
  | chip
  | chunkSector
  | sectorZero
  deriving DecidableEq, Repr

/-- The frames the pseudocode sends (the lines `Xfer(...)`). `raw` is a frame given from outside, the input of the
device vectors of 95_test_vectors.md L2.1 (log 18). -/
inductive FrameKind where
  | wren
  | rdsr
  | rpd
  | pd
  | rdid
  | jedec
  | readRequest
  | readSector
  | readBack
  | erase (target : EraseTarget)
  | page (walk : PageWalk)
  | raw (f : RawFrame)
  deriving DecidableEq, Repr

/-- The `value` of a `return`: 0, the identifier, or `cap = 2^e` (R228, R230, R240). -/
inductive RetValue where
  | zero
  | identifier
  | capacity
  deriving DecidableEq, Repr

/-- The controller steps: one line of pseudocode each. The semantics of each is in Machine/Sequencer.lean. -/
inductive Micro where
  | xfer (kind : FrameKind)
  | pollInit
  | pollTest
  | pageInit
  | pageTest (walk : PageWalk)
  | pageNext (walk : PageWalk)
  | lenTest
  | writeInit (src : DataSrc)
  | writeTest (src : DataSrc)
  | chunkInit
  | fillScratch
  | scan
  | branch (src : DataSrc)
  | merge (src : DataSrc)
  | advance
  | setId16
  | setId24
  | idCheck
  | sizeCheck
  | compare
  | ret (result : Result) (value : RetValue) (withData : Bool)
  deriving DecidableEq, Repr

/-- Which agent moves (R31): the controller or, when it is idle, the host that waits for IDLE (`main`); the device's
completion step (`device`); a host that submits without waiting (`hostNow`, R52, R264). -/
inductive Turn where
  | main
  | device
  | hostNow
  deriving DecidableEq, Repr

/-- The array: listed bytes by address, strictly rising, none equal to `0xFF`, which an unlisted byte reads as
(log 6). -/
abbrev Memory := List Host.Cell

/-- Everything the spec gives the machine (INVENTORY.md, State). -/
structure State where
  /-- The parameters (00_scope.md R9, R54): no step writes them. -/
  params : Params
  /-- The requests the host has still to submit (R53; 70_reset_and_hazards.md R302). -/
  hostQueue : List HostWord
  /-- The last response sent (R51, R52). -/
  response : Option Response
  /-- R32. -/
  ctlState : CtlState
  /-- R33. -/
  req : Request
  /-- The pseudocode still to run (R34); its head is the next controller step. -/
  cont : List Micro
  /-- R35, `cur_addr`. -/
  curAddr : BitVec 25
  /-- R35, `rem_len`. -/
  remLen : BitVec 32
  /-- R35, `buf_off`. -/
  bufOff : BitVec 32
  /-- R35, `pg_off`. -/
  pgOff : BitVec 32
  /-- R35, `sec_base`. -/
  secBase : BitVec 24
  /-- R35, `off`. -/
  off : BitVec 12
  /-- R35, `chunk`. -/
  chunk : BitVec 13
  /-- R35, `need_erase`. -/
  needErase : Bool
  /-- R35, `poll_count`, an unbounded natural. -/
  pollCount : Nat
  /-- R35, `id_word`. -/
  idWord : BitVec 24
  /-- R36: each byte of the scratch buffer, `none` while the current request has not written it. -/
  scratch : List (Option Byte)
  /-- The in bytes of the last frame, the answer of `Xfer` (40_bus_commands.md R127). -/
  rx : List Byte
  /-- R41. -/
  mem : Memory
  /-- R42, BUSY. -/
  busy : Bool
  /-- R43, WEL. -/
  wel : Bool
  /-- R44, ASLEEP. -/
  asleep : Bool
  /-- R45. -/
  pending : Pending
  /-- R39: a set, kept as a list without repeats in the order of raising (log 27). -/
  faults : List FaultRecord
  /-- R39, R259. -/
  refused : Bool
  /-- R40, oldest first. -/
  trace : List TraceEntry
  /-- The turns fixed from outside (R31, log 1). -/
  schedule : List Turn
  /-- The turns beyond the schedule that a BUSY device still lets pass before it completes, a free value
  (40_bus_commands.md R149; the model's own field, log 21). -/
  delay : Nat
  /-- How many draws have been made (R15, log 3). -/
  draws : Nat
  deriving DecidableEq, Repr

/-- Why the machine itself stops. -/
inductive Fault where
  /-- Raised by `step` when the controller is RUNNING and no agent has an enabled step
  (70_reset_and_hazards.md R302, "stuck"; 93_implementation_defined.md U20). Safe. -/
  | stuck
  deriving DecidableEq, Repr

/-- Why the machine gives no meaning. -/
inductive Refusal where
  /-- Raised by `exec` for an instruction without a meaning; no arm of this model uses it. Safe. -/
  | notModelled (mnemonic : String)
  /-- Raised by `step` for a parameter set that breaks the geometry invariant ("A model refuses a parameter set that
  breaks it", 00_scope.md R10). Safe. -/
  | badGeometry
  deriving DecidableEq, Repr

/-- The scratch buffer before a request has written it (R36, R57). -/
def State.blankScratch : List (Option Byte) := List.replicate Config.sector none

/-- A device at first power-up (70_reset_and_hazards.md R284) with a freshly reset controller (R57, R281), for any
parameters, array contents and ASLEEP bit. Registers without a reset value are 0 (log 7). -/
def State.powerUp (p : Params) (contents : Memory) (asleep : Bool) : State where
  params := p
  hostQueue := []
  response := none
  ctlState := .idle
  req := ⟨0, 0, 0, []⟩
  cont := []
  curAddr := 0
  remLen := 0
  bufOff := 0
  pgOff := 0
  secBase := 0
  off := 0
  chunk := 0
  needErase := false
  pollCount := 0
  idWord := 0
  scratch := State.blankScratch
  rx := []
  mem := contents
  busy := false
  wel := false
  asleep := asleep
  pending := .none
  faults := []
  refused := false
  trace := []
  schedule := []
  delay := Config.drawDelay 0
  draws := 1

/-- The byte of a wire command in this machine's table (30_encoding.md R100). -/
abbrev State.opc (s : State) (op : WireOp) : Byte := op.byte s.params.opc

/-- The machine right after reset: the default parameters, nothing listed in the array (log 6), and ASLEEP a draw
(R57, log 9). -/
def State.reset : State := State.powerUp Params.default [] ((Config.draw 0).getLsbD 0)

end Sys2Proof.Machine
end

