-- ==== Sys2Proof/Machine/Operands.lean ====
section
/-! DEFINITION. Operand arithmetic: addresses and units (42_erase.md R181 to R187), the range checks (R182, R197),
the form checks of frames (40_bus_commands.md R141), and the chunk and page arithmetic of the smart write
(43_read_write.md R201, R206, R215). Everything is computed on naturals and narrowed once (00_scope.md R14). -/

namespace Sys2Proof.Machine

/-- `a - (a mod g)`, alignment down to a granularity boundary (R181). -/
def alignDown (a g : Nat) : Nat := a - a % g

/-- A natural as a wire address. -/
def toAddr (a : Nat) : Addr := BitVec.ofNat 24 a

/-- The base of the unit of size `g` that holds the wire address `a` (40_bus_commands.md R138, R139). -/
def unitBase (a : Addr) (g : Nat) : Addr := toAddr (alignDown a.toNat g)

/-- `addr + len <= CAPACITY`, on naturals (R197). -/
def inRange (p : Params) (addr len : Word) : Bool := decide (addr.toNat + len.toNat ≤ p.capacity)

/-- `addr < CAPACITY` (R182). -/
def addrInRange (p : Params) (addr : Word) : Bool := decide (addr.toNat < p.capacity)

/-- The operation's own range check (60_exceptions.md R261): the record it raises, none when it passes. -/
def rangeFault (p : Params) (op : HostOp) (x : HostArgs) : Option FaultRecord :=
  match op with
  | .read => if inRange p x.addr x.len then none else some (.outOfRange x.addr x.len)
  | .write => if inRange p x.addr x.len then none else some (.outOfRange x.addr x.len)
  | .writeNoCheck => if inRange p x.addr x.len then none else some (.outOfRange x.addr x.len)
  | .eraseSector => if addrInRange p x.addr then none else some (.outOfRange x.addr 0)
  | .eraseBlock => if addrInRange p x.addr then none else some (.outOfRange x.addr 0)
  | .init | .readId | .readJedecId | .eraseChip | .powerDown | .wakeUp | .selfTest => none

/-- The length check of `write` and `write_no_check` (60_exceptions.md R263). -/
def lengthFault (op : HostOp) (x : HostArgs) : Option FaultRecord :=
  match op with
  | .write | .writeNoCheck =>
    if x.data.length = x.len.toNat then none else some (.badRequest op.code x.len x.data.length)
  | .init | .readId | .readJedecId | .read | .eraseSector | .eraseBlock | .eraseChip | .powerDown | .wakeUp
  | .selfTest => none

/-- The commands the block emits; the device refuses the others (R101, R150). -/
def emitted : WireOp → Bool
  | .wrsr | .fastRead | .rsten | .rst => false
  | .wren | .rdsr | .read | .pp | .se | .be | .ce | .pd | .rpd | .rdid | .jedec => true

/-- `RDSR` reads one byte (R141). -/
def rdsrOk (nin : Nat) : Bool := decide (nin = 1)

/-- `READ` reads at least one byte, inside the array (R141). -/
def readOk (p : Params) (a : Addr) (nin : Nat) : Bool :=
  decide (1 ≤ nin) && decide (a.toNat + nin ≤ p.capacity)

/-- `PP` carries 1 to `PAGE` bytes inside one page and inside the array (R141). -/
def ppOk (p : Params) (a : Addr) (n : Nat) : Bool :=
  decide (1 ≤ n) && decide (n ≤ Config.page) && decide (a.toNat % Config.page + n ≤ Config.page)
    && decide (a.toNat + n ≤ p.capacity)

/-- `SE` and `BE` take any address of the array, aligned or not (R141, 90_conflicts.md C8). -/
def eraseOk (p : Params) (a : Addr) : Bool := decide (a.toNat < p.capacity)

/-- `RDID` carries address 0 and reads two bytes (R141). -/
def rdidOk (a : Addr) (nin : Nat) : Bool := decide (a = 0) && decide (nin = 2)

/-- `JEDEC` reads three bytes (R141). -/
def jedecOk (nin : Nat) : Bool := decide (nin = 3)

/-- `min(n - i, PAGE - ((a + i) mod PAGE))`, the piece at offset `i` of a program of `n` bytes from `a` (R215). -/
def pieceLen (a n i : Nat) : Nat := min (n - i) (Config.page - (a + i) % Config.page)

/-- `offset_in_sector` (R201). -/
def sectorOff (cur : Nat) : Nat := cur % Config.sector

/-- `chunk = min(len, sector_size - offset_in_sector)` (R201). -/
def chunkLen (cur rem : Nat) : Nat := min rem (Config.sector - sectorOff cur)

/-- The first address and the length of the body of `write` (R209; R238 for the self-test). -/
def writeAddr (s : State) : DataSrc → Nat
  | .request => s.req.addr.toNat
  | .pattern => 0

/-- See `writeAddr`. -/
def writeLen (s : State) : DataSrc → Nat
  | .request => s.req.len.toNat
  | .pattern => Config.page

/-- The source bytes of a write. -/
def srcBytes (s : State) : DataSrc → List Byte
  | .request => s.req.data
  | .pattern => s.params.pattern

/-- `l[i .. i+n)`. -/
def slice {α : Type} (l : List α) (i n : Nat) : List α := (l.drop i).take n

/-- `buf[i .. i + xs.length) <- xs` in a buffer of fixed size. -/
def overlay {α : Type} (buf : List α) (i : Nat) (xs : List α) : List α :=
  (buf.take i ++ xs ++ buf.drop (i + xs.length)).take buf.length

/-- The address `a` of `ProgramPages(src, a, n)`. -/
def walkBase (s : State) : PageWalk → Nat
  | .raw => s.req.addr.toNat
  | .direct _ => s.curAddr.toNat
  | .merged => s.secBase.toNat

/-- The length `n` of `ProgramPages(src, a, n)`. -/
def walkLen (s : State) : PageWalk → Nat
  | .raw => s.req.len.toNat
  | .direct _ => s.chunk.toNat
  | .merged => Config.sector

/-- The length of the piece at `pg_off` of a page walk (R215). -/
def walkPieceLen (s : State) (w : PageWalk) : Nat := pieceLen (walkBase s w) (walkLen s w) s.pgOff.toNat

/-- `n` bytes of the scratch buffer from `i`, or the index of the first one this request has not written (R36). -/
def scratchRead (s : State) (i n : Nat) : Except Nat (List Byte) :=
  let written := (slice s.scratch i n).takeWhile Option.isSome
  if written.length = n then .ok (written.filterMap id) else .error (i + written.length)

/-- The payload of the piece at `pg_off` of a page walk, `src[pg_off .. pg_off + m)` (R216). -/
def walkPiece (s : State) (w : PageWalk) : Except Nat (List Byte) :=
  match w with
  | .raw => .ok (slice s.req.data s.pgOff.toNat (walkPieceLen s w))
  | .direct src => .ok (slice (srcBytes s src) (s.bufOff.toNat + s.pgOff.toNat) (walkPieceLen s w))
  | .merged => scratchRead s s.pgOff.toNat (walkPieceLen s w)

end Sys2Proof.Machine
end

