-- ==== Sys2Proof/Machine/Flags.lean ====
section
/-! DEFINITION. The block's flags (10_state.md R38): BUSY and WEL as the status byte shows them (R46), the device
states they make up (41_status_wel.md R161), the erase decision `need_erase` (43_read_write.md R203), and the
result codes (60_exceptions.md R251). -/

namespace Sys2Proof.Machine

/-- `v[i] <- x` on a byte. -/
def setBit (v : Byte) (i : Nat) (x : Bool) : Byte :=
  if x then v ||| (1#8 <<< i) else v &&& ~~~(1#8 <<< i)

/-- The status byte: a draw with BUSY and WEL put in their places (R46, 40_bus_commands.md R133). -/
def statusByte (p : Params) (d : Byte) (busy wel : Bool) : Byte :=
  setBit (setBit d p.srBusyBit busy) p.srWelBit wel

/-- `s[SR_BUSY_BIT]`, the one bit a busy-poll looks at (R166). -/
def busyBit (p : Params) (status : Byte) : Bool := status.getLsbD p.srBusyBit

/-- The device as the controller sees it (R161). -/
inductive DeviceState where
  | ready
  | writeEnabled
  | busy
  deriving DecidableEq, Repr

/-- READY, WRITE-ENABLED and BUSY as functions of the two bits (R161). -/
def deviceState (s : State) : DeviceState :=
  if s.busy then .busy else if s.wel then .writeEnabled else .ready

/-- Whether some byte differs from `0xFF`, so that programming cannot store over it (R203). -/
def eraseRequired (dest : List Byte) : Bool := dest.any (fun b => decide (b ≠ Config.erased))

/-- The 3-bit code of a result (R251). -/
def Result.code : Result → BitVec 3
  | .ok => 0
  | .idMismatch => 1
  | .sizeOutOfRange => 2
  | .dataMismatch => 3
  | .timeout => 4

/-- The manufacturer byte of a JEDEC code, `id_word[23:16]` (44_id_selftest_power.md R236). -/
def idMfr (w : BitVec 24) : Byte := w.extractLsb' 16 8

/-- The capacity exponent of a JEDEC code, `id_word[7:0]` (R231). -/
def idExp (w : BitVec 24) : Byte := w.extractLsb' 0 8

/-- The reported capacity `2^e` in the 32-bit `value` field (R231, R240); a free value where the field cannot hold it
(log 28). -/
def idCapacity (w : BitVec 24) : Word :=
  if (idExp w).toNat < 32 then BitVec.ofNat 32 (2 ^ (idExp w).toNat) else Config.wideCapacity (idExp w)

/-- Whether a busy-poll that has seen BUSY `n` times gives up (R166). -/
def pollExhausted (p : Params) (n : Nat) : Bool :=
  match p.pollLimit with
  | none => false
  | some limit => decide (limit ≤ n)

end Sys2Proof.Machine
end

