-- ==== Sys2Proof/Machine/Ops.lean ====
section
/-! DEFINITION. The shared operations: the array (40_bus_commands.md R146 to R148), draws (00_scope.md R15), raising
a fault and refusing (60_exceptions.md R257 to R259), the frame (40_bus_commands.md R127, R132), the device's
completion step, acceptance and return of a request (10_state.md R52, R56), and reset (70_reset_and_hazards.md
R281, R282). There is no trap and no return from one (60_exceptions.md R268, R269): `State.raise` is the only
exceptional entry, and only `State.controllerReset` leaves it. -/

namespace Sys2Proof.Machine

/-! ### The array -/

/-- `mem[a]`; an unlisted byte reads `0xFF` (log 6). -/
def Memory.read : Memory → Nat → Byte
  | [], _ => Config.erased
  | (b, v) :: rest, a => if b = a then v else Memory.read rest a

/-- `mem[a] <- v`, keeping the canonical form. -/
def Memory.write : Memory → Nat → Byte → Memory
  | [], a, v => if v = Config.erased then [] else [(a, v)]
  | (b, w) :: rest, a, v =>
    if a < b then (if v = Config.erased then (b, w) :: rest else (a, v) :: (b, w) :: rest)
    else if b = a then (if v = Config.erased then rest else (a, v) :: rest)
    else (b, w) :: Memory.write rest a v

/-- The canonical form: addresses strictly rising, no listed byte equal to what an unlisted one reads as. -/
abbrev Memory.wf (m : Memory) : Prop :=
  m.Pairwise (fun x y => x.1 < y.1) ∧ ∀ c ∈ m, c.2 ≠ Config.erased

/-- `mem[a .. a+n)` (R135). -/
def Memory.readBytes (m : Memory) (a n : Nat) : List Byte := (List.range n).map (fun j => m.read (a + j))

/-- The program effect: `mem[a+j] <- mem[a+j] & d[j]` (R147). -/
def Memory.program : Memory → Nat → List Byte → Memory
  | m, _, [] => m
  | m, a, d :: ds => Memory.program (m.write a (m.read a &&& d)) (a + 1) ds

/-- The erase effect on `[b, b+n)`: every byte `0xFF` (R148). -/
def Memory.eraseRange (m : Memory) (b n : Nat) : Memory :=
  m.filter (fun c => !(decide (b ≤ c.1) && decide (c.1 < b + n)))

/-- The effect of a pending operation on the array (R146). -/
def Pending.apply (p : Params) : Pending → Memory → Memory
  | .none, m => m
  | .program a d, m => m.program a.toNat d
  | .eraseSector b, m => m.eraseRange b.toNat Config.sector
  | .eraseBlock b, m => m.eraseRange b.toNat Config.block
  | .eraseChip, m => m.eraseRange 0 p.capacity

/-! ### Draws -/

/-- `n` draws made now (R15). -/
def State.drawBytes (s : State) (n : Nat) : List Byte := (List.range n).map (fun j => Config.draw (s.draws + j))

/-- The count of draws after `n` more. -/
def State.afterDraws (s : State) (n : Nat) : State := { s with draws := s.draws + n }

/-! ### Faults -/

/-- `raise F(info)`: records the fault (R257, R258). `ctl_state` stays what it is, no response is sent, and a
controller with a fault recorded takes no further step (`State.mainMove`). -/
def State.raise (f : FaultRecord) (s : State) : State :=
  { s with faults := if f ∈ s.faults then s.faults else s.faults ++ [f] }

/-- `refuse Unmodelled(x)`: sets `refused` and otherwise acts as `raise` (R259). -/
def State.refuse (opc : Byte) (s : State) : State := { s.raise (.unmodelled opc) with refused := true }

/-! ### Frames -/

/-- Appends a frame to the trace and hands its in bytes to the controller (R127). -/
def State.logFrame (opc : Byte) (addr : Option Addr) (out inn : List Byte) (s : State) : State :=
  { s with trace := s.trace ++ [.frame opc addr out inn], rx := inn }

/-- One frame, `Xfer(opc, A, out, nin)`, handled by `DeviceFrame` in the order of R132: the power-down filter
(R144), the refusal of unemitted commands (R150), the form check (R141), the busy filter (R151), then the
command's own rule, which answers the new device state and the in bytes. A frame that raises a fault is in the
trace with no in bytes (log 16). -/
def State.xfer (op : WireOp) (addr : Option Addr) (out : List Byte) (nin : Nat) (formOk : Bool)
    (command : State → State × List Byte) (s : State) : State :=
  if s.asleep = true ∧ op ≠ .rpd then (s.logFrame (s.opc op) addr out []).raise (.deviceAsleep (s.opc op))
  else if emitted op = false then (s.logFrame (s.opc op) addr out []).refuse (s.opc op)
  else if formOk = false then
    (s.logFrame (s.opc op) addr out []).raise (.badFrame (s.opc op) addr out.length nin)
  else if s.busy = true ∧ op ≠ .rdsr then (s.afterDraws nin).logFrame (s.opc op) addr out (s.drawBytes nin)
  else (command s).1.logFrame (s.opc op) addr out (command s).2

/-- The acceptance rule the program and erase commands share: with WEL = 1 the operation starts, with WEL = 0 the
frame has no effect (R137 to R140; 41_status_wel.md R164). -/
def State.startOp (p : Pending) (s : State) : State :=
  if s.wel then { s with busy := true, pending := p } else s

/-- A frame the decoder does not read: the filters of R132 on a reserved opcode (R104) or on a command of the wrong
format (R141, log 17). A request's error does not reach the device. -/
def State.xferUndecoded (e : DecodeError) (s : State) : State :=
  match e with
  | .unknownOpcode opc rest _ =>
    if s.asleep then (s.logFrame opc none rest []).raise (.deviceAsleep opc)
    else (s.logFrame opc none rest []).refuse opc
  | .badFormat op addr out nin =>
    if s.asleep = true ∧ op ≠ .rpd then (s.logFrame (s.opc op) addr out []).raise (.deviceAsleep (s.opc op))
    else if emitted op = false then (s.logFrame (s.opc op) addr out []).refuse (s.opc op)
    else (s.logFrame (s.opc op) addr out []).raise (.badFrame (s.opc op) addr out.length nin)
  | .illegalOp w => s.raise (.illegalOp w.cmd)

/-! ### The device's own step -/

/-- The completion step (R146): the pending operation takes its whole effect, BUSY and WEL clear together
(41_status_wel.md R163, 90_conflicts.md C1). How long the next operation takes is a new free value (R149, log 21). -/
def State.complete (s : State) : State :=
  { s with
    mem := s.pending.apply s.params s.mem
    busy := false
    wel := false
    pending := .none
    trace := s.trace ++ [.complete]
    delay := Config.drawDelay s.draws
    draws := s.draws + 1 }

/-! ### Requests -/

/-- The latching half of acceptance: `req`, RUNNING, `cont` at the start of the operation (10_state.md R52); the
scratch buffer holds nothing this request wrote (R36), and the last response has been collected (log 25). -/
def State.latch (r : Request) (code : List Micro) (s : State) : State :=
  { s with
    req := r
    ctlState := .running
    cont := code
    scratch := State.blankScratch
    response := none }

/-- Acceptance of a request whose operation is `op` and whose pseudocode is `code`, with the checks in the order
of 60_exceptions.md R265: Reentrant, then (IllegalOp is the decoder's) BadRequest, then the range check. -/
def State.accept (op : HostOp) (x : HostArgs) (code : List Micro) (s : State) : State :=
  if s.ctlState = .running then s.raise (.reentrant op.code)
  else
    match lengthFault op x with
    | some f => (s.latch ⟨op.code, x.addr, x.len, x.data⟩ code).raise f
    | none =>
      match rangeFault s.params op x with
      | some f => (s.latch ⟨op.code, x.addr, x.len, x.data⟩ code).raise f
      | none => s.latch ⟨op.code, x.addr, x.len, x.data⟩ code

/-- A request whose command word selects no operation (R262), after the Reentrant check (R265). -/
def State.acceptIllegal (w : HostWord) (s : State) : State :=
  if s.ctlState = .running then s.raise (.reentrant (cmdOp w.cmd))
  else (s.latch ⟨cmdOp w.cmd, w.addr, w.len, w.data⟩ []).raise (.illegalOp w.cmd)

/-- `return R(value, data)`: the response is sent and the controller is IDLE again (10_state.md R56). -/
def State.respond (r : Response) (s : State) : State :=
  { s with response := some r, ctlState := .idle, cont := [] }

/-! ### Reset -/

/-- The controller's reset (70_reset_and_hazards.md R281, R282): the controller as R57 leaves it, at the start of a
new run; the device keeps everything but ASLEEP, which is a draw. The host's queue and the schedule are not the
block's and stay. Unspecified registers keep their bits (log 8). -/
def State.controllerReset (s : State) : State :=
  { s with
    ctlState := .idle
    cont := []
    scratch := State.blankScratch
    rx := []
    response := none
    asleep := (Config.draw s.draws).getLsbD 0
    faults := []
    refused := false
    trace := []
    draws := s.draws + 1 }

end Sys2Proof.Machine
end

