-- ==== Sys2Proof/Machine/Sequencer.lean ====
section
/-! DEFINITION. The controller as a sequencer: the pseudo-sequences Gated, BusyPoll and ProgramPages
(30_encoding.md R110; 41_status_wel.md R166 to R168; 43_read_write.md R216), the frame each `Xfer` line sends, the
effect of each internal line, and the choice of the agent that moves (10_state.md R31). -/

namespace Sys2Proof.Machine

/-! ### Pseudo-sequences -/

/-- `BusyPoll()` (R166): `poll_count <- 0`, then a status read and its test, which puts the two back while BUSY. -/
def busyPoll : List Micro := [.pollInit, .xfer .rdsr, .pollTest]

/-- `Gated(f)` = `Xfer(WREN)`; f; `BusyPoll()` (R168). -/
def gated (f : FrameKind) : List Micro := [.xfer .wren, .xfer f] ++ busyPoll

/-- `ProgramPages(src, a, n)` (R216): `pg_off <- 0`, then the loop test. -/
def programPages (w : PageWalk) : List Micro := [.pageInit, .pageTest w]

/-- The body of `write` after its range check (R209): the registers, then the loop test. -/
def writeBody (src : DataSrc) : List Micro := [.writeInit src, .writeTest src]

/-- One iteration of the page walk and the test again (R216). -/
def pageIteration (w : PageWalk) : List Micro := gated (.page w) ++ [.pageNext w, .pageTest w]

/-- One iteration of the write loop up to the branch of step 4, and the test again (R209). -/
def chunkIteration (src : DataSrc) : List Micro :=
  [.chunkInit, .xfer .readSector, .fillScratch, .scan, .branch src, .advance, .writeTest src]

/-- Step 4a (R204). -/
def eraseAndMerge (src : DataSrc) : List Micro :=
  gated (.erase .chunkSector) ++ [.merge src] ++ programPages .merged

/-- Step 4b (R205). -/
def directProgram (src : DataSrc) : List Micro := programPages (.direct src)

/-! ### The frames of the pseudocode -/

/-- The erase frame of a target, with the aligned base (R181; R183, R185, R187, R204, R240). -/
def eraseFrame (s : State) : EraseTarget → RawFrame
  | .reqSector => rawFrame s.params.opc .se (some (toAddr (alignDown s.req.addr.toNat Config.sector))) [] 0
  | .reqBlock => rawFrame s.params.opc .be (some (toAddr (alignDown s.req.addr.toNat Config.block))) [] 0
  | .chip => rawFrame s.params.opc .ce none [] 0
  | .chunkSector => rawFrame s.params.opc .se (some s.secBase) [] 0
  | .sectorZero => rawFrame s.params.opc .se (some 0) [] 0

/-- The frame an `Xfer` line sends, or the fault of reading scratch bytes this request has not written (R36). -/
def frameOf (s : State) : FrameKind → Except FaultRecord RawFrame
  | .wren => .ok (rawFrame s.params.opc .wren none [] 0)
  | .rdsr => .ok (rawFrame s.params.opc .rdsr none [] 1)
  | .rpd => .ok (rawFrame s.params.opc .rpd none [] 0)
  | .pd => .ok (rawFrame s.params.opc .pd none [] 0)
  | .rdid => .ok (rawFrame s.params.opc .rdid (some 0) [] 2)
  | .jedec => .ok (rawFrame s.params.opc .jedec none [] 3)
  | .readRequest => .ok (rawFrame s.params.opc .read (some (toAddr s.req.addr.toNat)) [] s.req.len.toNat)
  | .readSector => .ok (rawFrame s.params.opc .read (some s.secBase) [] Config.sector)
  | .readBack => .ok (rawFrame s.params.opc .read (some 0) [] Config.page)
  | .erase t => .ok (eraseFrame s t)
  | .page w =>
    match walkPiece s w with
    | .ok bytes => .ok (rawFrame s.params.opc .pp (some (toAddr (walkBase s w + s.pgOff.toNat))) bytes 0)
    | .error k => .error (.scratchUninit k)
  | .raw f => .ok f

/-! ### The internal lines -/

/-- Byte `j` of the last answer; a byte no frame has read is a draw (log 29). -/
def State.rxByte (s : State) (j : Nat) : Byte := s.rx.getD j (Config.draw (s.draws + j))

/-- The `value` of a `return`. -/
def retValue (s : State) : RetValue → Word
  | .zero => 0
  | .identifier => s.idWord.setWidth 32
  | .capacity => idCapacity s.idWord

/-- The test of a busy-poll on the status byte just read (R166), and the end of the operation on a timeout
(R167). `rest` is the pseudocode after the poll. -/
def State.pollTest (rest : List Micro) (s : State) : State :=
  if busyBit s.params (s.rxByte 0) = false then { s with cont := rest }
  else if pollExhausted s.params (s.pollCount + 1) then
    { s with pollCount := s.pollCount + 1, cont := [.ret .timeout .zero false] }
  else { s with pollCount := s.pollCount + 1, cont := .xfer .rdsr :: .pollTest :: rest }

/-- Step 1 of a chunk (R201). -/
def State.chunkInit (s : State) : State :=
  { s with
    secBase := BitVec.ofNat 24 (alignDown s.curAddr.toNat Config.sector)
    off := BitVec.ofNat 12 (sectorOff s.curAddr.toNat)
    chunk := BitVec.ofNat 13 (chunkLen s.curAddr.toNat s.remLen.toNat) }

/-- Step 3: the scan of the chunk's bytes in the scratch buffer (R203). -/
def State.scan (s : State) : State :=
  match scratchRead s s.off.toNat s.chunk.toNat with
  | .ok dest => { s with needErase := eraseRequired dest }
  | .error k => s.raise (.scratchUninit k)

/-- The merge of step 4a: `scratch[off + j] <- data[buf_off + j]` for j in `[0, chunk)` (R204). -/
def State.merge (src : DataSrc) (s : State) : State :=
  { s with
    scratch := overlay s.scratch s.off.toNat ((slice (srcBytes s src) s.bufOff.toNat s.chunk.toNat).map some) }

/-- Step 5 (R206). -/
def State.advance (s : State) : State :=
  { s with
    curAddr := BitVec.ofNat 25 (s.curAddr.toNat + s.chunk.toNat)
    bufOff := BitVec.ofNat 32 (s.bufOff.toNat + s.chunk.toNat)
    remLen := BitVec.ofNat 32 (s.remLen.toNat - s.chunk.toNat) }

/-- The effect of an internal line; `rest` is the pseudocode after it. A frame line is not internal: `step` sends
it (`frameOf`), and its clause here, which `step` never uses, moves past it. -/
def State.internal (m : Micro) (rest : List Micro) (s : State) : State :=
  match m with
  | .xfer _ => { s with cont := rest }
  | .pollInit => { s with pollCount := 0, cont := rest }
  | .pollTest => s.pollTest rest
  | .pageInit => { s with pgOff := 0, cont := rest }
  | .pageTest w =>
    { s with cont := if s.pgOff.toNat < walkLen s w then pageIteration w ++ rest else rest }
  | .pageNext w =>
    { s with pgOff := BitVec.ofNat 32 (s.pgOff.toNat + walkPieceLen s w), cont := rest }
  | .lenTest => { s with cont := if s.req.len = 0 then [.ret .ok .zero false] else rest }
  | .writeInit src =>
    { s with
      curAddr := BitVec.ofNat 25 (writeAddr s src)
      remLen := BitVec.ofNat 32 (writeLen s src)
      bufOff := 0
      cont := rest }
  | .writeTest src =>
    { s with cont := if 0 < s.remLen.toNat then chunkIteration src ++ rest else rest }
  | .chunkInit => { s.chunkInit with cont := rest }
  | .fillScratch => { s with scratch := overlay s.scratch 0 (s.rx.map some), cont := rest }
  | .scan => { s.scan with cont := rest }
  | .branch src =>
    { s with cont := (if s.needErase then eraseAndMerge src else directProgram src) ++ rest }
  | .merge src => { s.merge src with cont := rest }
  | .advance => { s.advance with cont := rest }
  | .setId16 => { s with idWord := ((s.rxByte 0 ++ s.rxByte 1).setWidth 24), cont := rest }
  | .setId24 => { s with idWord := s.rxByte 0 ++ s.rxByte 1 ++ s.rxByte 2, cont := rest }
  | .idCheck =>
    { s with cont := if idMfr s.idWord = s.params.expectedMfr then rest else [.ret .idMismatch .zero false] }
  | .sizeCheck =>
    { s with
      cont :=
        if (idExp s.idWord).toNat < s.params.expMin.toNat ∨ s.params.expMax.toNat < (idExp s.idWord).toNat
        then [.ret .sizeOutOfRange .zero false] else rest }
  | .compare =>
    { s with cont := if s.rx = s.params.pattern then rest else [.ret .dataMismatch .capacity false] }
  | .ret r v withData => s.respond ⟨r, retValue s v, if withData then s.rx else []⟩

/-! ### Who moves -/

/-- What the machine does next. -/
inductive Move where
  /-- The device completes. -/
  | complete
  /-- The host submits `w`; `rest` is its queue after it. -/
  | submit (w : HostWord) (rest : List HostWord)
  /-- The controller runs one line; `rest` is its pseudocode after it. -/
  | line (m : Micro) (rest : List Micro)
  /-- The pseudocode has ended without `return` (R56). -/
  | finish
  /-- The controller is IDLE and nobody has anything to do. -/
  | wait
  /-- The controller is RUNNING and no agent has an enabled step (R302). -/
  | stuck
  deriving DecidableEq, Repr

/-- The move of the controller, or of the host while the controller is IDLE (R52, R53). A controller with a fault
recorded takes no step (R258). Where neither can move, the device completes if it is BUSY. -/
def State.mainMove (s : State) : Move :=
  match s.ctlState with
  | .idle =>
    match s.hostQueue with
    | w :: rest => .submit w rest
    | [] => if s.busy then .complete else .wait
  | .running =>
    match s.faults with
    | [] =>
      match s.cont with
      | m :: rest => .line m rest
      | [] => .finish
    | _ :: _ => if s.busy then .complete else .stuck

/-- The move of a turn (R31): the completion step is enabled when BUSY = 1 (40_bus_commands.md R146). -/
def State.moveOf (s : State) : Turn → Move
  | .main => s.mainMove
  | .device => if s.busy then .complete else s.mainMove
  | .hostNow =>
    match s.hostQueue with
    | w :: rest => .submit w rest
    | [] => s.mainMove

/-- The turn to take (R31): the schedule's; beyond it, the device's once it is BUSY and has let `delay` turns pass, so
that an enabled completion step eventually happens (40_bus_commands.md R149), and the others' until then (log 1, log
21). -/
def State.turn (s : State) : Turn :=
  match s.schedule with
  | t :: _ => t
  | [] => if s.busy = true ∧ s.delay = 0 then .device else .main

/-- The state once the turn has been taken from its source. -/
def State.afterTurn (s : State) : State :=
  match s.schedule with
  | _ :: rest => { s with schedule := rest }
  | [] => { s with delay := if s.busy then s.delay - 1 else s.delay }

end Sys2Proof.Machine
end

