-- ==== Sys2Proof/Machine/HostData.lean ====
section
/-! DEFINITION. The host's data operations (43_read_write.md): `read`, `write`, `write_no_check`. -/

namespace Sys2Proof.Machine

/-- `read` (R198): a zero length sends no frame (R196). -/
def execHostRead (x : HostArgs) (s : State) : Host.Outcome State Fault Refusal :=
  .next (s.accept .read x [.lenTest, .xfer .readRequest, .ret .ok .zero true])

/-- `write`, the smart write (R209). -/
def execHostWrite (x : HostArgs) (s : State) : Host.Outcome State Fault Refusal :=
  .next (s.accept .write x (writeBody .request ++ [.ret .ok .zero false]))

/-- `write_no_check` (R214). -/
def execWriteNoCheck (x : HostArgs) (s : State) : Host.Outcome State Fault Refusal :=
  .next (s.accept .writeNoCheck x (programPages .raw ++ [.ret .ok .zero false]))

end Sys2Proof.Machine
end

