-- ==== Sys2Proof/Machine/HostErase.lean ====
section
/-! DEFINITION. The host's erase operations (42_erase.md R181 to R187): each is accepted and then runs its
pseudocode, the range check being part of acceptance (60_exceptions.md R265). -/

namespace Sys2Proof.Machine

/-- `erase_sector` (R183). -/
def execEraseSector (x : HostArgs) (s : State) : Host.Outcome State Fault Refusal :=
  .next (s.accept .eraseSector x (gated (.erase .reqSector) ++ [.ret .ok .zero false]))

/-- `erase_block` (R185). -/
def execEraseBlock (x : HostArgs) (s : State) : Host.Outcome State Fault Refusal :=
  .next (s.accept .eraseBlock x (gated (.erase .reqBlock) ++ [.ret .ok .zero false]))

/-- `erase_chip` (R187). -/
def execEraseChip (x : HostArgs) (s : State) : Host.Outcome State Fault Refusal :=
  .next (s.accept .eraseChip x (gated (.erase .chip) ++ [.ret .ok .zero false]))

end Sys2Proof.Machine
end

