-- ==== Sys2Proof/Machine/HostIdPower.lean ====
section
/-! DEFINITION. Initialisation, identification, power and self-test (44_id_selftest_power.md). -/

namespace Sys2Proof.Machine

/-- `init` (R226). -/
def execHostInit (x : HostArgs) (s : State) : Host.Outcome State Fault Refusal :=
  .next (s.accept .init x [.xfer .rpd, .ret .ok .zero false])

/-- `read_id` (R228). -/
def execReadId (x : HostArgs) (s : State) : Host.Outcome State Fault Refusal :=
  .next (s.accept .readId x [.xfer .rdid, .setId16, .ret .ok .identifier false])

/-- `read_jedec_id` (R230). -/
def execReadJedecId (x : HostArgs) (s : State) : Host.Outcome State Fault Refusal :=
  .next (s.accept .readJedecId x [.xfer .jedec, .setId24, .ret .ok .identifier false])

/-- `power_down` (R232). -/
def execPowerDown (x : HostArgs) (s : State) : Host.Outcome State Fault Refusal :=
  .next (s.accept .powerDown x [.xfer .pd, .ret .ok .zero false])

/-- `wake_up` (R234). -/
def execWakeUp (x : HostArgs) (s : State) : Host.Outcome State Fault Refusal :=
  .next (s.accept .wakeUp x [.xfer .rpd, .ret .ok .zero false])

/-- `self_test` (R240): the identity and size checks, then the erase of sector 0, the body of `write`, the read
back and the comparison. -/
def execSelfTest (x : HostArgs) (s : State) : Host.Outcome State Fault Refusal :=
  .next (s.accept .selfTest x
    ([.xfer .jedec, .setId24, .idCheck, .sizeCheck] ++ gated (.erase .sectorZero) ++ writeBody .pattern
      ++ [.xfer .readBack, .compare, .ret .ok .capacity false]))

end Sys2Proof.Machine
end

