-- ==== Sys2Proof/Machine/WirePower.lean ====
section
/-! DEFINITION. The power frames PD (40_bus_commands.md R143) and RPD (R145), and the two steps of software reset,
RSTEN and RST (R150). -/

namespace Sys2Proof.Machine

/-- PD: `ASLEEP <- 1` (R143). -/
def execPd (s : State) : Host.Outcome State Fault Refusal :=
  .next (s.xfer .pd none [] 0 true (fun t => ({ t with asleep := true }, [])))

/-- RPD: `ASLEEP <- 0`; the one frame a sleeping device takes (R144, R145). -/
def execRpd (s : State) : Host.Outcome State Fault Refusal :=
  .next (s.xfer .rpd none [] 0 true (fun t => ({ t with asleep := false }, [])))

/-- RSTEN: never emitted, refused as Unmodelled (R150). -/
def execRsten (s : State) : Host.Outcome State Fault Refusal :=
  .next (s.xfer .rsten none [] 0 true (fun t => (t, [])))

/-- RST: never emitted, refused as Unmodelled (R150). -/
def execRst (s : State) : Host.Outcome State Fault Refusal :=
  .next (s.xfer .rst none [] 0 true (fun t => (t, [])))

end Sys2Proof.Machine
end

