-- ==== Sys2Proof/Machine/WireProgram.lean ====
section
/-! DEFINITION. The acceptance of the program and erase frames (40_bus_commands.md R137 to R140). The array changes
only at the completion step (R146). -/

namespace Sys2Proof.Machine

/-- PP: with WEL = 1, BUSY and `pending <- Program(A, out)` (R137). -/
def execPp (addr : Addr) (out : List Byte) (s : State) : Host.Outcome State Fault Refusal :=
  .next (s.xfer .pp (some addr) out 0 (ppOk s.params addr out.length)
    (fun t => (t.startOp (.program addr out), [])))

/-- SE: with WEL = 1, the erase of the sector that holds A starts (R138). -/
def execSe (addr : Addr) (s : State) : Host.Outcome State Fault Refusal :=
  .next (s.xfer .se (some addr) [] 0 (eraseOk s.params addr)
    (fun t => (t.startOp (.eraseSector (unitBase addr Config.sector)), [])))

/-- BE: with WEL = 1, the erase of the block that holds A starts (R139). -/
def execBe (addr : Addr) (s : State) : Host.Outcome State Fault Refusal :=
  .next (s.xfer .be (some addr) [] 0 (eraseOk s.params addr)
    (fun t => (t.startOp (.eraseBlock (unitBase addr Config.block)), [])))

/-- CE: with WEL = 1, the erase of the whole array starts (R140). -/
def execCe (s : State) : Host.Outcome State Fault Refusal :=
  .next (s.xfer .ce none [] 0 true (fun t => (t.startOp .eraseChip, [])))

end Sys2Proof.Machine
end

