-- ==== Sys2Proof/Machine/WireRead.lean ====
section
/-! DEFINITION. The frames that read: READ (40_bus_commands.md R135), FAST_READ (R150), RDID (R136), JEDEC (R142). -/

namespace Sys2Proof.Machine

/-- READ: `[mem[A+j] | j < n]` (R135). -/
def execWireRead (addr : Addr) (nin : Nat) (s : State) : Host.Outcome State Fault Refusal :=
  .next (s.xfer .read (some addr) [] nin (readOk s.params addr nin)
    (fun t => (t, t.mem.readBytes addr.toNat nin)))

/-- FAST_READ: never emitted, refused as Unmodelled (R150). The byte sent after the address is its dummy; that the trace
has it as the frame's `out` is a DESIGN CHOICE (log 34). -/
def execFastRead (addr : Addr) (dummy : Byte) (nin : Nat) (s : State) : Host.Outcome State Fault Refusal :=
  .next (s.xfer .fastRead (some addr) [dummy] nin true (fun t => (t, [])))

/-- RDID: the manufacturer byte, then the device byte (R136). -/
def execRdid (addr : Addr) (nin : Nat) (s : State) : Host.Outcome State Fault Refusal :=
  .next (s.xfer .rdid (some addr) [] nin (rdidOk addr nin)
    (fun t => (t, [t.params.devMfr, t.params.devId8])))

/-- JEDEC: manufacturer, memory type, capacity exponent (R142). -/
def execJedec (nin : Nat) (s : State) : Host.Outcome State Fault Refusal :=
  .next (s.xfer .jedec none [] nin (jedecOk nin)
    (fun t => (t, [t.params.devMfr, t.params.devType, t.params.devCapExp])))

end Sys2Proof.Machine
end

