-- ==== Sys2Proof/Machine/WireStatus.lean ====
section
/-! DEFINITION. The status and write-enable frames: WREN (40_bus_commands.md R134), RDSR (R133), WRSR (R150). -/

namespace Sys2Proof.Machine

/-- WREN: `WEL <- 1` (R134; 41_status_wel.md R162). -/
def execWren (s : State) : Host.Outcome State Fault Refusal :=
  .next (s.xfer .wren none [] 0 true (fun t => ({ t with wel := true }, [])))

/-- RDSR: one status byte, bits 7 to 2 a draw; honoured while BUSY (R133; 10_state.md R46). -/
def execRdsr (nin : Nat) (s : State) : Host.Outcome State Fault Refusal :=
  .next (s.xfer .rdsr none [] nin (rdsrOk nin)
    (fun t => (t.afterDraws 1, [statusByte t.params (Config.draw t.draws) t.busy t.wel])))

/-- WRSR: never emitted, refused as Unmodelled (R150). -/
def execWrsr (out : List Byte) (s : State) : Host.Outcome State Fault Refusal :=
  .next (s.xfer .wrsr none out 0 true (fun t => (t, [])))

end Sys2Proof.Machine
end

