-- ==== Sys2Proof/Machine/Dispatch.lean ====
section
/-! DEFINITION. One arm per instruction: a wire frame is one frame on the bus, a host request is its acceptance. -/

namespace Sys2Proof.Machine

def exec (i : Instr) (s : State) : Host.Outcome State Fault Refusal :=
  match i with
  | .wren => Sys2Proof.Machine.execWren s
  | .rdsr nin => Sys2Proof.Machine.execRdsr nin s
  | .wrsr out => Sys2Proof.Machine.execWrsr out s
  | .wireRead addr nin => Sys2Proof.Machine.execWireRead addr nin s
  | .fastRead addr dummy nin => Sys2Proof.Machine.execFastRead addr dummy nin s
  | .pp addr out => Sys2Proof.Machine.execPp addr out s
  | .se addr => Sys2Proof.Machine.execSe addr s
  | .be addr => Sys2Proof.Machine.execBe addr s
  | .ce => Sys2Proof.Machine.execCe s
  | .pd => Sys2Proof.Machine.execPd s
  | .rpd => Sys2Proof.Machine.execRpd s
  | .rdid addr nin => Sys2Proof.Machine.execRdid addr nin s
  | .jedec nin => Sys2Proof.Machine.execJedec nin s
  | .rsten => Sys2Proof.Machine.execRsten s
  | .rst => Sys2Proof.Machine.execRst s
  | .hostInit x => Sys2Proof.Machine.execHostInit x s
  | .readId x => Sys2Proof.Machine.execReadId x s
  | .readJedecId x => Sys2Proof.Machine.execReadJedecId x s
  | .hostRead x => Sys2Proof.Machine.execHostRead x s
  | .hostWrite x => Sys2Proof.Machine.execHostWrite x s
  | .writeNoCheck x => Sys2Proof.Machine.execWriteNoCheck x s
  | .eraseSector x => Sys2Proof.Machine.execEraseSector x s
  | .eraseBlock x => Sys2Proof.Machine.execEraseBlock x s
  | .eraseChip x => Sys2Proof.Machine.execEraseChip x s
  | .powerDown x => Sys2Proof.Machine.execPowerDown x s
  | .wakeUp x => Sys2Proof.Machine.execWakeUp x s
  | .selfTest x => Sys2Proof.Machine.execSelfTest x s

end Sys2Proof.Machine
end

