-- ==== Sys2Proof/Machine/Step.lean ====
section
/-! DEFINITION. One step of the machine: the turn's agent moves (10_state.md R31). A frame the controller sends and a
request the host submits are decoded from their encoded form and run by `exec`; everything else is the device's
completion, an internal line, or a return. -/

namespace Sys2Proof.Machine

/-- The host submits a request: the controller decodes and accepts it (R52, R262). -/
def State.submitStep (w : HostWord) (s : State) : Host.Outcome State Fault Refusal :=
  match decodeRequest w with
  | .ok i => exec i s
  | .error _ => .next (s.acceptIllegal w)

/-- The device decodes a frame and handles it (40_bus_commands.md R127, R132). -/
def State.frameStep (f : RawFrame) (s : State) : Host.Outcome State Fault Refusal :=
  match decodeFrame s.params.opc f with
  | .ok i => exec i s
  | .error e => .next (s.xferUndecoded e)

/-- One line of pseudocode; `rest` is what follows it. -/
def State.lineStep (m : Micro) (rest : List Micro) (s : State) : Host.Outcome State Fault Refusal :=
  match m with
  | .xfer kind =>
    match frameOf s kind with
    | .ok f => State.frameStep f { s with cont := rest }
    | .error r => .next (s.raise r)
  | m => .next (s.internal m rest)

/-- A move carried out. -/
def State.perform (s : State) : Move → Host.Outcome State Fault Refusal
  | .complete => .next s.complete
  | .submit w rest => State.submitStep w { s with hostQueue := rest }
  | .line m rest => s.lineStep m rest
  | .finish => .next (s.respond ⟨.ok, 0, []⟩)
  | .wait => .next s
  | .stuck => .fault .stuck

/-- One step. A parameter set that breaks the geometry invariant is refused (00_scope.md R10). -/
def step (s : State) : Host.Outcome State Fault Refusal :=
  if s.params.geometryOk then s.afterTurn.perform (s.afterTurn.moveOf s.turn)
  else .refused .badGeometry

/-- `s` with a table word's instruction placed where `step` takes its next one (log 18, log 19): a request at the
head of the host's queue, with the host to submit it now; a frame as the next line of a running controller with
no fault recorded. -/
def State.withFetchWord (s : State) (nbits w : Nat) : State :=
  match tablePacket s.params.opc nbits w with
  | some (.request r) => { s with hostQueue := r :: s.hostQueue, schedule := .hostNow :: s.schedule }
  | some (.frame f) =>
    { s with
      ctlState := .running
      faults := []
      cont := .xfer (.raw f) :: s.cont
      schedule := .main :: s.schedule }
  | none => s

end Sys2Proof.Machine
end

