-- ==== Sys2Proof/Safety.lean ====
section
/-! DEFINITION. The terms claims are stated in: the clean start of a claim (70_reset_and_hazards.md R288), the end of
a run (R302), the invariants of the machine, runs of several steps, and what a harness counts in the trace
(60_exceptions.md R274). -/

namespace Sys2Proof.Machine

/-- `k` steps of the machine. -/
abbrev runFor (k : Nat) (s : State) : Host.Outcome State Fault Refusal := Sys2Proof.core.run k s

/-- The clean-start premise for claims (R288). -/
structure State.CleanStart (s : State) : Prop where
  idle : s.ctlState = .idle
  no_fault : s.faults = []
  awake : s.asleep = false
  not_busy : s.busy = false
  no_pending : s.pending = .none

/-- A run ends well (R302). -/
structure State.EndsWell (s : State) : Prop where
  no_request : s.hostQueue = []
  idle : s.ctlState = .idle
  no_fault : s.faults = []
  not_refused : s.refused = false
  not_busy : s.busy = false

/-- A pending operation the device can have accepted: inside the array, a program inside one page, an erase at the
base of its unit (40_bus_commands.md R137 to R141). -/
def Pending.Ok (p : Params) : Pending → Prop
  | .none => True
  | .program a d => 1 ≤ d.length ∧ a.toNat % Config.page + d.length ≤ Config.page
      ∧ a.toNat + d.length ≤ p.capacity
  | .eraseSector b => b.toNat % Config.sector = 0 ∧ b.toNat < p.capacity
  | .eraseBlock b => b.toNat % Config.block = 0 ∧ b.toNat < p.capacity
  | .eraseChip => True

/-- The invariant of the machine: the device invariant of 10_state.md R48, the device never asleep with an operation
pending (40_bus_commands.md R143), the array in canonical form inside `[0, CAPACITY)`, the pending operation one
the device accepts, the scratch buffer of `SECTOR` bytes (R36), a controller with a fault recorded still RUNNING
(60_exceptions.md R258), and a refusal always with its record (R259). -/
structure State.Inv (s : State) : Prop where
  mem_canonical : s.mem.wf
  mem_inside : ∀ c ∈ s.mem, c.1 < s.params.capacity
  busy_iff_pending : s.busy = true ↔ s.pending ≠ .none
  busy_wel : s.busy = true → s.wel = true
  busy_awake : s.busy = true → s.asleep = false
  pending_ok : s.pending.Ok s.params
  scratch_size : s.scratch.length = Config.sector
  fault_running : s.faults ≠ [] → s.ctlState = .running
  refused_recorded : s.refused = true → ∃ opc, FaultRecord.unmodelled opc ∈ s.faults

/-- The array and the device's other bits are those of `s`. -/
structure State.SameDevice (s t : State) : Prop where
  mem : t.mem = s.mem
  busy : t.busy = s.busy
  wel : t.wel = s.wel
  asleep : t.asleep = s.asleep
  pending : t.pending = s.pending

/-- The registers of the smart write and the page walk (10_state.md R35 less `poll_count` and `id_word`) are those of
`s`. -/
structure State.SameWalk (s t : State) : Prop where
  curAddr : t.curAddr = s.curAddr
  remLen : t.remLen = s.remLen
  bufOff : t.bufOff = s.bufOff
  pgOff : t.pgOff = s.pgOff
  secBase : t.secBase = s.secBase
  off : t.off = s.off
  chunk : t.chunk = s.chunk
  needErase : t.needErase = s.needErase

/-- Request, position, state, response and inputs of the controller and the host are those of `s`. -/
structure State.SameControl (s t : State) : Prop where
  params : t.params = s.params
  hostQueue : t.hostQueue = s.hostQueue
  response : t.response = s.response
  ctlState : t.ctlState = s.ctlState
  req : t.req = s.req
  cont : t.cont = s.cont
  scratch : t.scratch = s.scratch
  schedule : t.schedule = s.schedule

/-- The poll count, parameters, host queue and refused mark are those of `s`. -/
structure State.SameRest (s t : State) : Prop where
  pollCount : t.pollCount = s.pollCount
  params : t.params = s.params
  hostQueue : t.hostQueue = s.hostQueue
  refused : t.refused = s.refused

/-- The frame's fields as `DeviceFrame(opc, A, out, nin)` sees them (40_bus_commands.md R132), the dummy byte of a
`FAST_READ` as its `out` (DESIGN CHOICE, log 34); host requests have none. -/
def frameFields : Instr → Option (WireOp × Option Addr × List Byte × Nat)
  | .wren => some (.wren, none, [], 0)
  | .rdsr n => some (.rdsr, none, [], n)
  | .wrsr out => some (.wrsr, none, out, 0)
  | .wireRead a n => some (.read, some a, [], n)
  | .fastRead a d n => some (.fastRead, some a, [d], n)
  | .pp a out => some (.pp, some a, out, 0)
  | .se a => some (.se, some a, [], 0)
  | .be a => some (.be, some a, [], 0)
  | .ce => some (.ce, none, [], 0)
  | .pd => some (.pd, none, [], 0)
  | .rpd => some (.rpd, none, [], 0)
  | .rdid a n => some (.rdid, some a, [], n)
  | .jedec n => some (.jedec, none, [], n)
  | .rsten => some (.rsten, none, [], 0)
  | .rst => some (.rst, none, [], 0)
  | .hostInit _ | .readId _ | .readJedecId _ | .hostRead _ | .hostWrite _ | .writeNoCheck _ | .eraseSector _
  | .eraseBlock _ | .eraseChip _ | .powerDown _ | .wakeUp _ | .selfTest _ => none

/-- The host operation and operands of a request; frames have none. -/
def requestFields : Instr → Option (HostOp × HostArgs)
  | .hostInit x => some (.init, x)
  | .readId x => some (.readId, x)
  | .readJedecId x => some (.readJedecId, x)
  | .hostRead x => some (.read, x)
  | .hostWrite x => some (.write, x)
  | .writeNoCheck x => some (.writeNoCheck, x)
  | .eraseSector x => some (.eraseSector, x)
  | .eraseBlock x => some (.eraseBlock, x)
  | .eraseChip x => some (.eraseChip, x)
  | .powerDown x => some (.powerDown, x)
  | .wakeUp x => some (.wakeUp, x)
  | .selfTest x => some (.selfTest, x)
  | .wren | .rdsr _ | .wrsr _ | .wireRead _ _ | .fastRead _ _ _ | .pp _ _ | .se _ | .be _ | .ce | .pd | .rpd
  | .rdid _ _ | .jedec _ | .rsten | .rst => none

/-- The program and erase frames (41_status_wel.md R164). -/
def isGatedOp : WireOp → Bool
  | .pp | .se | .be | .ce => true
  | .wren | .rdsr | .wrsr | .read | .fastRead | .pd | .rpd | .rdid | .jedec | .rsten | .rst => false

/-- Whether a trace entry is a program or erase frame, its opcode read by the table `t`. -/
def TraceEntry.isGated (t : Opcodes) : TraceEntry → Bool
  | .frame opc _ _ _ => (WireOp.ofByte? t opc).any isGatedOp
  | .complete => false

/-- Whether a trace entry is a `WREN` frame. -/
def TraceEntry.isWren (t : Opcodes) : TraceEntry → Bool
  | .frame opc _ _ _ => decide (opc = WireOp.wren.byte t)
  | .complete => false

/-- Whether every program or erase frame of a trace is immediately preceded by a `WREN` frame, not counting
completion entries (41_status_wel.md R169); `prev` says whether the frame before the trace was one. -/
def traceGated (t : Opcodes) : Bool → List TraceEntry → Bool
  | _, [] => true
  | prev, .complete :: rest => traceGated t prev rest
  | prev, .frame opc a out inn :: rest =>
    (prev || !(TraceEntry.frame opc a out inn).isGated t) && traceGated t ((TraceEntry.frame opc a out inn).isWren t) rest

/-- Whether the last frame of a trace, not counting completion entries, is a `WREN`. -/
def lastFrameWren (t : Opcodes) : Bool → List TraceEntry → Bool
  | prev, [] => prev
  | prev, .complete :: rest => lastFrameWren t prev rest
  | _, .frame opc a out inn :: rest => lastFrameWren t ((TraceEntry.frame opc a out inn).isWren t) rest

/-- Whether a line of pseudocode sends a program or erase frame. -/
def FrameKind.isGated : FrameKind → Bool
  | .erase _ | .page _ => true
  | .wren | .rdsr | .rpd | .pd | .rdid | .jedec | .readRequest | .readSector | .readBack | .raw _ => false

/-- Whether the pseudocode still to run sends a `WREN` line immediately before every program or erase line, and
holds no frame given from outside; `prev` says whether the last frame sent was a `WREN`. -/
def contGated : Bool → List Micro → Bool
  | _, [] => true
  | _, .xfer (.raw _) :: _ => false
  | prev, .xfer k :: rest => (prev || !k.isGated) && contGated (decide (k = .wren)) rest
  | _, _ :: rest => contGated false rest

/-- The controller's gating discipline, as an invariant of the machine (R169), for a table in which each byte names at
most one command (log 11). -/
structure State.GatingInv (s : State) : Prop where
  opcodes : s.params.opc.distinct = true
  trace : traceGated s.params.opc false s.trace = true
  cont : contGated (lastFrameWren s.params.opc false s.trace) s.cont = true

/-- The turns of an erase operation whose busy-poll reads BUSY `k` times before the device completes: WREN, the
erase frame, the poll's start, `k` status reads with their tests, the completion, one more read and test, the
return (42_erase.md R189). -/
def eraseTurns (k : Nat) : List Turn :=
  [.main, .main, .main] ++ (List.replicate k [Turn.main, Turn.main]).flatten ++ [.device, .main, .main, .main]

/-- How many frames of a command a trace holds, its opcodes read by the table `t` (60_exceptions.md R274). -/
def countFrames (t : Opcodes) (op : WireOp) (trace : List TraceEntry) : Nat :=
  trace.countP fun e =>
    match e with
    | .frame opc _ _ _ => decide (opc = op.byte t)
    | .complete => false

/-- How many completion steps a trace holds. -/
def countCompletions (trace : List TraceEntry) : Nat := trace.countP fun e => decide (e = .complete)

end Sys2Proof.Machine
end

