-- ==== Sys2Proof/Certificates/Slice0/Obligations.lean ====
section
/-! DEFINITION. The statements for the provers. A statement about runs takes the schedule of turns as data of the
state (10_state.md R31); a statement about draws holds for every value of Config.draw. -/

open Sys2Proof Sys2Proof.Machine

/-! ### Encoding -/

/-- Decoding an encoded instruction gives it back, for every instruction, every operand and every table of distinct
opcode bytes `OPC_*` (30_encoding.md R96 to R99, R100, R106, R115; that the bytes are distinct is log 11). -/
def Obligations.DecodeEncodeRoundTrip : Prop :=
  ∀ (t : Opcodes) (i : Instr), t.distinct = true → decode t (encode t i) = .ok i

/-- Every packet that decodes is the encoding of what it decodes to, whatever the opcode bytes: no bit of a frame or a
request is dropped (30_encoding.md R97, R106). -/
def Obligations.EncodeInvertsDecode : Prop :=
  ∀ (t : Opcodes) (p : Packet) (i : Instr), decode t p = .ok i → encode t i = p

/-- Words written out from 30_encoding.md R97, R100, R106, R115 decode, with the default opcode bytes, to the
instructions they stand for. -/
def Obligations.SpecWordsDecode : Prop :=
  decodeFrame Opcodes.default ⟨0x06, [], 0⟩ = .ok .wren ∧
  decodeFrame Opcodes.default ⟨0x05, [], 1⟩ = .ok (.rdsr 1) ∧
  decodeFrame Opcodes.default ⟨0x20, [0x12, 0x34, 0x56], 0⟩ = .ok (.se 0x123456) ∧
  decodeFrame Opcodes.default ⟨0x02, [0x00, 0x01, 0x00, 0xDE, 0xAD], 0⟩ = .ok (.pp 0x000100 [0xDE, 0xAD]) ∧
  decodeFrame Opcodes.default ⟨0x03, [0x00, 0x0F, 0xFE], 4⟩ = .ok (.wireRead 0x000FFE 4) ∧
  decodeFrame Opcodes.default ⟨0x9F, [], 3⟩ = .ok (.jedec 3) ∧
  decodeRequest ⟨0x00000005, 0x100, 4, [0xDE, 0xAD, 0xBE, 0xEF]⟩ = .ok (.hostWrite ⟨0x100, 4, [0xDE, 0xAD, 0xBE, 0xEF]⟩) ∧
  decodeRequest ⟨0x0000000C, 0, 0, []⟩ = .ok (.selfTest ⟨0, 0, []⟩)

/-- A submitted command word whose op is 0x0, 0xD, 0xE or 0xF, or with a reserved bit set, raises `IllegalOp(cmd)` at
acceptance by an idle controller, and no other word does (60_exceptions.md R262); nothing of the device changes and no
response is sent (R258). That the controller is RUNNING after a rejected word is the model's choice (log 14), and so is
the emptied response (log 25). -/
def Obligations.IllegalCommandWordFaults : Prop :=
  ∀ (s : State) (w : HostWord), s.ctlState = .idle → s.faults = [] →
    ∃ t, State.submitStep w s = .next t ∧
      (FaultRecord.illegalOp w.cmd ∈ t.faults ↔
        cmdOp w.cmd = 0x0 ∨ cmdOp w.cmd = 0xD ∨ cmdOp w.cmd = 0xE ∨ cmdOp w.cmd = 0xF ∨ cmdReserved w.cmd ≠ 0) ∧
      t.ctlState = .running ∧ t.response = none ∧ s.SameDevice t ∧ t.trace = s.trace

/-! ### Steps -/

/-- The step of a running controller whose next line sends a frame is `exec` of the instruction that frame decodes
to, on the state with the turn taken and the position past the line (40_bus_commands.md R127; 10_state.md R34). -/
def Obligations.StepRunsSentFrame : Prop :=
  ∀ (s : State) (k : FrameKind) (rest : List Micro) (later : List Turn) (f : RawFrame) (i : Instr),
    s.params.geometryOk = true → s.schedule = .main :: later → s.ctlState = .running → s.faults = [] →
    s.cont = .xfer k :: rest → frameOf s k = .ok f → decodeFrame s.params.opc f = .ok i →
    step s = exec i { s with schedule := later, cont := rest }

/-- The step in which the host submits a request is `exec` of the instruction the request decodes to, on the state
with the turn taken and the request out of the host's queue (10_state.md R52). -/
def Obligations.StepRunsSubmittedRequest : Prop :=
  ∀ (s : State) (w : HostWord) (rest : List HostWord) (later : List Turn) (i : Instr),
    s.params.geometryOk = true → s.hostQueue = w :: rest →
    (s.schedule = .hostNow :: later ∨ (s.schedule = .main :: later ∧ s.ctlState = .idle)) →
    decodeRequest w = .ok i → step s = exec i { s with schedule := later, hostQueue := rest }

/-- The completion step: on the device's turn with BUSY = 1 the pending operation takes its effect on the array,
BUSY and WEL clear, nothing is pending, the trace says so, and nothing of the controller or the host changes
(40_bus_commands.md R146); the delay of the next operation is a new free value (R149, log 21). -/
def Obligations.DeviceTurnCompletes : Prop :=
  ∀ (s : State) (later : List Turn), s.params.geometryOk = true → s.schedule = .device :: later → s.busy = true →
    step s = .next { s with
      schedule := later
      mem := s.pending.apply s.params s.mem
      busy := false
      wel := false
      pending := .none
      trace := s.trace ++ [.complete]
      delay := Config.drawDelay s.draws
      draws := s.draws + 1 }

/-- The machine stops exactly where the controller is RUNNING and no agent has an enabled step: a fault is recorded,
the device is not BUSY, and no host submits (70_reset_and_hazards.md R302; 60_exceptions.md R258). -/
def Obligations.StuckExactlyWhenNothingEnabled : Prop :=
  ∀ s : State, step s = .fault .stuck ↔
    s.params.geometryOk = true ∧ s.ctlState = .running ∧ s.faults ≠ [] ∧ s.busy = false ∧
      (s.turn = .hostNow → s.hostQueue = [])

/-- A parameter set is refused exactly when page, sector, block and capacity do not divide in turn, or the capacity is
0 or beyond a 24-bit address (00_scope.md R9, R10; that it is not 0 is log 5). -/
def Obligations.BadGeometryRefused : Prop :=
  ∀ s : State, step s = .refused .badGeometry ↔
    ¬ (256 ∣ 4096 ∧ 4096 ∣ 65536 ∧ 65536 ∣ s.params.capacity ∧ 0 < s.params.capacity ∧ s.params.capacity ≤ 2 ^ 24)

/-! ### Frames -/

/-- A `WREN` frame to an awake device with BUSY = 0 sets WEL, whatever it was; only WEL, the answer and the trace
change (41_status_wel.md R162). -/
def Obligations.WrenSetsWel : Prop :=
  ∀ s : State, s.asleep = false → s.busy = false →
    exec .wren s = .next { s with wel := true, rx := [], trace := s.trace ++ [.frame (s.opc .wren) none [] []] }

/-- An `RDSR` frame of one byte to an awake device, BUSY or not, answers a byte whose BUSY and WEL bits are the
device's and whose other bits are a draw; only the answer, the draws and the trace change (40_bus_commands.md R133;
10_state.md R46). -/
def Obligations.RdsrReturnsStatus : Prop :=
  ∀ s : State, s.params.wf = true → s.asleep = false →
    ∃ b : Byte, exec (.rdsr 1) s = .next { s with
        rx := [b], draws := s.draws + 1, trace := s.trace ++ [.frame (s.opc .rdsr) none [] [b]] } ∧
      b.getLsbD s.params.srBusyBit = s.busy ∧ b.getLsbD s.params.srWelBit = s.wel ∧
      ∀ j, j ≠ s.params.srBusyBit → j ≠ s.params.srWelBit → b.getLsbD j = (Config.draw s.draws).getLsbD j

/-- A `READ` frame of `n >= 1` bytes inside the array, to an awake device with BUSY = 0, answers the array's bytes in
ascending order and changes no device state (40_bus_commands.md R135). -/
def Obligations.ReadFrameReturnsArray : Prop :=
  ∀ (s : State) (a : Addr) (n : Nat), s.asleep = false → s.busy = false → 1 ≤ n → a.toNat + n ≤ s.params.capacity →
    ∃ d : List Byte, exec (.wireRead a n) s = .next { s with
        rx := d, trace := s.trace ++ [.frame (s.opc .read) (some a) [] d] } ∧
      d.length = n ∧ ∀ j, j < n → d[j]? = some (s.mem.read (a.toNat + j))

/-- The identification frames to an awake device with BUSY = 0: `RDID` answers the manufacturer and device bytes,
`JEDEC` the manufacturer, type and capacity-exponent bytes (40_bus_commands.md R136, R142). -/
def Obligations.IdFramesReturnIdentity : Prop :=
  ∀ s : State, s.asleep = false → s.busy = false →
    exec (.rdid 0 2) s = .next { s with
      rx := [s.params.devMfr, s.params.devId8]
      trace := s.trace ++ [.frame (s.opc .rdid) (some 0) [] [s.params.devMfr, s.params.devId8]] } ∧
    exec (.jedec 3) s = .next { s with
      rx := [s.params.devMfr, s.params.devType, s.params.devCapExp]
      trace := s.trace ++ [.frame (s.opc .jedec) none [] [s.params.devMfr, s.params.devType, s.params.devCapExp]] }

/-- A well-formed `PP` frame to an awake device with BUSY = 0: with WEL = 1 it sets BUSY and
`pending = Program(A, out)`; with WEL = 0 it changes no device state (40_bus_commands.md R137). -/
def Obligations.PageProgramNeedsWel : Prop :=
  ∀ (s : State) (a : Addr) (d : List Byte), s.asleep = false → s.busy = false →
    (Instr.pp a d).wellFormed s.params.capacity = true →
    exec (.pp a d) s = .next { s with
      busy := s.wel
      pending := if s.wel then .program a d else s.pending
      rx := []
      trace := s.trace ++ [.frame (s.opc .pp) (some a) d []] }

/-- The erase frames to an awake device with BUSY = 0: with WEL = 1, `SE` starts the erase of the sector and `BE` of
the block that contains the address, aligned or not, and `CE` of the chip; with WEL = 0 they change no device state
(40_bus_commands.md R138, R139, R140). -/
def Obligations.EraseFramesNeedWel : Prop :=
  ∀ (s : State) (a : Addr), s.asleep = false → s.busy = false → a.toNat < s.params.capacity →
    exec (.se a) s = .next { s with
      busy := s.wel
      pending := if s.wel then .eraseSector (BitVec.ofNat 24 (a.toNat - a.toNat % 4096)) else s.pending
      rx := []
      trace := s.trace ++ [.frame (s.opc .se) (some a) [] []] } ∧
    exec (.be a) s = .next { s with
      busy := s.wel
      pending := if s.wel then .eraseBlock (BitVec.ofNat 24 (a.toNat - a.toNat % 65536)) else s.pending
      rx := []
      trace := s.trace ++ [.frame (s.opc .be) (some a) [] []] } ∧
    exec .ce s = .next { s with
      busy := s.wel
      pending := if s.wel then .eraseChip else s.pending
      rx := []
      trace := s.trace ++ [.frame (s.opc .ce) none [] []] }

/-- `PD` to an awake device with BUSY = 0 sets ASLEEP; `RPD` to a device with BUSY = 0, asleep or not, clears it
(40_bus_commands.md R143, R145). -/
def Obligations.PowerFramesSwitchAsleep : Prop :=
  ∀ s : State, s.busy = false →
    (s.asleep = false →
      exec .pd s = .next { s with asleep := true, rx := [], trace := s.trace ++ [.frame (s.opc .pd) none [] []] }) ∧
    exec .rpd s = .next { s with asleep := false, rx := [], trace := s.trace ++ [.frame (s.opc .rpd) none [] []] }

/-- An awake device refuses `WRSR`, `FAST_READ`, `RSTEN` and `RST`, in every form and BUSY or not, and every frame
whose opcode byte is not in the table: the refused mark is set with its record, and nothing of the device, the
controller's registers or the host changes (40_bus_commands.md R150). A frame of these commands without the command's
format is refused like the others and is no `BadFrame`, since the refusal comes before the form check (R132). That the
frame is in the trace with no in bytes is the model's choice (log 16), and so is what the trace says of a frame without
a format: the address where the format has one and three bytes are there, the rest as payload, and for a reserved
opcode no address (log 17); that the dummy byte of a `FAST_READ` counts as its `out` is the model's choice too (log 34). -/
def Obligations.UnemittedCommandsRefused : Prop :=
  ∀ s : State, s.asleep = false →
    (∀ (i : Instr) (op : WireOp) (a : Option Addr) (out : List Byte) (n : Nat),
      frameFields i = some (op, a, out, n) → (op = .wrsr ∨ op = .fastRead ∨ op = .rsten ∨ op = .rst) →
      ∃ t, exec i s = .next t ∧ t.refused = true ∧ FaultRecord.unmodelled (s.opc op) ∈ t.faults ∧
        t.trace = s.trace ++ [.frame (s.opc op) a out []] ∧ s.SameDevice t ∧ s.SameWalk t ∧
        t.pollCount = s.pollCount ∧ t.idWord = s.idWord ∧ s.SameControl t) ∧
    (∀ (f : RawFrame) (op : WireOp), WireOp.ofByte? s.params.opc f.opc = some op →
      (op = .wrsr ∨ op = .fastRead ∨ op = .rsten ∨ op = .rst) → decodeOperands op f.rest f.nin = none →
      ∃ (t : State) (a : Option Addr) (out : List Byte), State.frameStep f s = .next t ∧
        ((op.format.hasAddr = true ∧ ∃ b1 b2 b3, f.rest = b1 :: b2 :: b3 :: out ∧ a = some (b1 ++ b2 ++ b3)) ∨
          ((op.format.hasAddr = false ∨ f.rest.length < 3) ∧ out = f.rest ∧ a = none)) ∧
        t.refused = true ∧ (∀ r, r ∈ t.faults ↔ r ∈ s.faults ∨ r = .unmodelled f.opc) ∧
        t.trace = s.trace ++ [.frame f.opc a out []] ∧ s.SameDevice t ∧ s.SameWalk t ∧
        t.pollCount = s.pollCount ∧ t.idWord = s.idWord ∧ s.SameControl t) ∧
    ∀ f : RawFrame, WireOp.ofByte? s.params.opc f.opc = none →
      ∃ t, State.frameStep f s = .next t ∧ t.refused = true ∧ FaultRecord.unmodelled f.opc ∈ t.faults ∧
        t.trace = s.trace ++ [.frame f.opc none f.rest []] ∧ s.SameDevice t ∧ s.SameWalk t ∧
        t.pollCount = s.pollCount ∧ t.idWord = s.idWord ∧ s.SameControl t

/-- While ASLEEP = 1 every frame other than `RPD` raises `DeviceAsleep(opc)` and changes nothing of the device or of the
controller's registers, well formed or not, BUSY or not, of the table's opcodes or not (40_bus_commands.md R144; that a
sleeping device takes no other frame is the spec's general knowledge, log 30). That the frame is in the trace with no in
bytes is the model's choice (log 16), and so is the dummy byte of a `FAST_READ` as its `out` (log 34). An `RPD` of the
wrong format to a sleeping device is a case of `IllFormedFrameFaults`. -/
def Obligations.SleepingDeviceFaults : Prop :=
  ∀ s : State, s.asleep = true →
    (∀ (i : Instr) (op : WireOp) (a : Option Addr) (out : List Byte) (n : Nat),
      frameFields i = some (op, a, out, n) → op ≠ .rpd →
      ∃ t, exec i s = .next t ∧ FaultRecord.deviceAsleep (s.opc op) ∈ t.faults ∧ t.refused = s.refused ∧
        t.draws = s.draws ∧ t.trace = s.trace ++ [.frame (s.opc op) a out []] ∧
        s.SameDevice t ∧ s.SameWalk t ∧ t.pollCount = s.pollCount ∧ t.idWord = s.idWord ∧ s.SameControl t) ∧
    ∀ f : RawFrame, f.opc ≠ s.opc .rpd →
      ∃ t, State.frameStep f s = .next t ∧ FaultRecord.deviceAsleep f.opc ∈ t.faults ∧ t.refused = s.refused ∧
        s.SameDevice t ∧ s.SameWalk t ∧ t.pollCount = s.pollCount ∧ t.idWord = s.idWord ∧ s.SameControl t

/-- An awake device, BUSY or not, and a sleeping one for `RPD`, raises `BadFrame(opc, A, length(out), nin)` for every
frame of an emitted command that fails the checks of 40_bus_commands.md R141: a frame of the command's format whose
operands fail, and a frame that does not have the command's format. Nothing of the device or of the controller's
registers changes. That the frame is in the trace with no in bytes is the model's choice (log 16), and so is what a
frame of the wrong format reports: its address where the format has one and three bytes are there, the rest as payload
(log 17). -/
def Obligations.IllFormedFrameFaults : Prop :=
  ∀ (s : State) (op : WireOp), s.asleep = false ∨ op = .rpd →
    (∀ (i : Instr) (a : Option Addr) (out : List Byte) (n : Nat),
      frameFields i = some (op, a, out, n) → i.wellFormed s.params.capacity = false →
      ∃ t, exec i s = .next t ∧ FaultRecord.badFrame (s.opc op) a out.length n ∈ t.faults ∧ t.refused = s.refused ∧
        t.draws = s.draws ∧ t.trace = s.trace ++ [.frame (s.opc op) a out []] ∧ s.SameDevice t ∧ s.SameWalk t ∧
        t.pollCount = s.pollCount ∧ t.idWord = s.idWord ∧ s.SameControl t) ∧
    ∀ f : RawFrame, WireOp.ofByte? s.params.opc f.opc = some op → emitted op = true →
      decodeOperands op f.rest f.nin = none →
      ∃ (t : State) (a : Option Addr) (out : List Byte), State.frameStep f s = .next t ∧
        ((op.format.hasAddr = true ∧ ∃ b1 b2 b3, f.rest = b1 :: b2 :: b3 :: out ∧ a = some (b1 ++ b2 ++ b3)) ∨
          ((op.format.hasAddr = false ∨ f.rest.length < 3) ∧ out = f.rest ∧ a = none)) ∧
        FaultRecord.badFrame f.opc a out.length f.nin ∈ t.faults ∧ t.refused = s.refused ∧ t.draws = s.draws ∧
        t.trace = s.trace ++ [.frame f.opc a out []] ∧ s.SameDevice t ∧ s.SameWalk t ∧
        t.pollCount = s.pollCount ∧ t.idWord = s.idWord ∧ s.SameControl t

/-- While BUSY = 1 every frame other than `RDSR` has no effect on device state, `RPD` to a sleeping device included; a
well-formed frame of an emitted command changes nothing but its place in the trace, and each byte it reads is a draw of
its own (40_bus_commands.md R151, in the order of R132). -/
def Obligations.BusyDeviceIgnoresFrames : Prop :=
  ∀ (s : State) (i : Instr) (op : WireOp) (a : Option Addr) (out : List Byte) (n : Nat),
    s.asleep = false ∨ op = .rpd → s.busy = true → frameFields i = some (op, a, out, n) → op ≠ .rdsr →
    (∃ t, exec i s = .next t ∧ s.SameDevice t) ∧
    (emitted op = true → i.wellFormed s.params.capacity = true →
      ∃ d : List Byte, exec i s = .next { s with
          rx := d, draws := s.draws + n, trace := s.trace ++ [.frame (s.opc op) a out d] } ∧
        d.length = n ∧ ∀ j, j < n → d[j]? = some (Config.draw (s.draws + j)))

/-- The frame of every wire frame, whatever it does: the array, the controller's registers, the request, the position,
the scratch buffer and the host port are unchanged, and the trace grows by that frame alone (20_memory.md R84, R90;
40_bus_commands.md R127). That the dummy byte of a `FAST_READ` is in the entry as its `out` is the model's choice (log
34). -/
def Obligations.FramesLeaveArrayAndController : Prop :=
  ∀ (s t : State) (i : Instr) (op : WireOp) (a : Option Addr) (out : List Byte) (n : Nat),
    frameFields i = some (op, a, out, n) → exec i s = .next t →
    (∀ x, t.mem.read x = s.mem.read x) ∧ t.mem = s.mem ∧ s.SameWalk t ∧ t.pollCount = s.pollCount ∧
      t.idWord = s.idWord ∧ s.SameControl t ∧ t.trace = s.trace ++ [.frame (s.opc op) a out t.rx]

/-- The transition table of the device (41_status_wel.md R165): for every well-formed frame of an emitted command to
an awake device, and for the completion step. -/
def Obligations.DeviceTransitionTable : Prop :=
  ∀ s : State, s.asleep = false →
    (∀ (i : Instr) (op : WireOp) (a : Option Addr) (out : List Byte) (n : Nat),
      frameFields i = some (op, a, out, n) → emitted op = true → i.wellFormed s.params.capacity = true →
      ∃ t, exec i s = .next t ∧
        deviceState t =
          match deviceState s with
          | .ready => if op = .wren then .writeEnabled else .ready
          | .writeEnabled => if op = .pp ∨ op = .se ∨ op = .be ∨ op = .ce then .busy else .writeEnabled
          | .busy => .busy) ∧
    (deviceState s = .busy → deviceState s.complete = .ready)

/-! ### The device's completion -/

/-- The program effect at completion: each addressed byte becomes `old & payload`, no other byte changes
(40_bus_commands.md R147). -/
def Obligations.ProgramStoresAnd : Prop :=
  ∀ (s : State) (a : Addr) (d : List Byte), s.mem.wf → s.pending = .program a d →
    (∀ j (h : j < d.length), s.complete.mem.read (a.toNat + j) = s.mem.read (a.toNat + j) &&& d[j]) ∧
    ∀ x, (x < a.toNat ∨ a.toNat + d.length ≤ x) → s.complete.mem.read x = s.mem.read x

/-- The erase effect at completion: every byte of the sector, the block or the array becomes 0xFF, no other byte
changes (40_bus_commands.md R148). -/
def Obligations.EraseSetsAllOnes : Prop :=
  ∀ (s : State) (b : Addr) (base size : Nat),
    (s.pending = .eraseSector b ∧ base = b.toNat ∧ size = 4096 ∨
      s.pending = .eraseBlock b ∧ base = b.toNat ∧ size = 65536 ∨
      s.pending = .eraseChip ∧ base = 0 ∧ size = s.params.capacity) →
    ∀ x, s.complete.mem.read x = if base ≤ x ∧ x < base + size then 0xFF else s.mem.read x

/-- Erase and program are idempotent: the same operation a second time leaves the array as the first left it
(20_memory.md R85). -/
def Obligations.PendingOperationsIdempotent : Prop :=
  ∀ (p : Params) (op : Pending) (m : Memory), m.wf → op.apply p (op.apply p m) = op.apply p m

/-! ### Invariants and whole-machine rules -/

/-- Every step keeps the machine's invariant (10_state.md R48; 40_bus_commands.md R143). -/
def Obligations.StepKeepsMachineInvariant : Prop :=
  ∀ s t : State, s.Inv → step s = .next t → t.Inv

/-- Every step keeps the gating discipline: no program or erase frame is sent that a `WREN` frame does not immediately
precede (41_status_wel.md R169). The discipline is stated for a table of distinct opcode bytes (log 11). -/
def Obligations.StepKeepsGatingDiscipline : Prop :=
  ∀ s t : State, s.GatingInv → step s = .next t → t.GatingInv

/-- Both invariants hold at first power-up with any parameters of capacity above the listed addresses, any canonical
array contents and either ASLEEP bit, and at reset (70_reset_and_hazards.md R284; the array contents at reset are log
6); the gating discipline for a table of distinct opcode bytes (log 11). -/
def Obligations.PowerUpMeetsInvariants : Prop :=
  (∀ (p : Params) (m : Memory) (asleep : Bool), m.wf → (∀ c ∈ m, c.1 < p.capacity) →
    (State.powerUp p m asleep).Inv ∧ (p.opc.distinct = true → (State.powerUp p m asleep).GatingInv)) ∧
  State.reset.Inv ∧ State.reset.GatingInv

/-- No step changes a parameter, and no step changes the array but the completion of a BUSY device, which applies the
pending operation (10_state.md R54; 20_memory.md R90). -/
def Obligations.ArrayChangesOnlyAtCompletion : Prop :=
  ∀ s t : State, step s = .next t →
    t.params = s.params ∧
      (t.mem = s.mem ∨ (s.busy = true ∧ t.busy = false ∧ t.mem = s.pending.apply s.params s.mem))

/-- The completion step clears WEL together with BUSY, and no other step clears WEL (41_status_wel.md R163). -/
def Obligations.OnlyCompletionClearsWel : Prop :=
  (∀ s : State, s.complete.wel = false ∧ s.complete.busy = false) ∧
  ∀ s t : State, step s = .next t → s.wel = true → t.wel = false →
    s.busy = true ∧ t.busy = false ∧ t.pending = .none ∧ t.trace = s.trace ++ [.complete]

/-- Raising a fault adds its record, and no step removes a record or the refused mark (60_exceptions.md R257, R259). -/
def Obligations.FaultRecordsAreSticky : Prop :=
  (∀ (s : State) (f : FaultRecord), f ∈ (s.raise f).faults) ∧
  ∀ s t : State, step s = .next t → (∀ f ∈ s.faults, f ∈ t.faults) ∧ (s.refused = true → t.refused = true)

/-- After a fault the controller sends no response, stays RUNNING and takes no further step: a step is the device's
completion or a request that raises `Reentrant` (60_exceptions.md R258, R264). -/
def Obligations.FaultStopsController : Prop :=
  ∀ s t : State, s.ctlState = .running → s.faults ≠ [] → step s = .next t →
    t.ctlState = .running ∧ t.response = s.response ∧ t.cont = s.cont ∧ t.req = s.req ∧ s.SameWalk t ∧
      t.pollCount = s.pollCount ∧ t.idWord = s.idWord ∧ t.scratch = s.scratch ∧
      ((s.busy = true ∧ t.busy = false ∧ t.faults = s.faults) ∨
        (s.SameDevice t ∧ t.trace = s.trace ∧ ∃ op, FaultRecord.reentrant op ∈ t.faults))

/-- The trace only grows, by at most one entry a step (10_state.md R40). -/
def Obligations.TraceOnlyGrows : Prop :=
  ∀ s t : State, step s = .next t → t.trace = s.trace ∨ ∃ e, t.trace = s.trace ++ [e]

/-! ### Acceptance -/

/-- The checks of acceptance in their order, for every request, before any frame (60_exceptions.md R265): `Reentrant`
while RUNNING; then `IllegalOp` for a word that selects no operation; then `BadRequest` for a `write` or
`write_no_check` whose data length differs from `len`; then `OutOfRange`. The first that fails is the one record added,
and a request that passes them adds none (R261, R262, R263, R264). -/
def Obligations.AcceptanceChecksInOrder : Prop :=
  (∀ (s : State) (i : Instr) (op : HostOp) (x : HostArgs), requestFields i = some (op, x) →
    ∃ t, exec i s = .next t ∧ t.trace = s.trace ∧ t.refused = s.refused ∧
      ∀ f, f ∈ t.faults ↔ f ∈ s.faults ∨ some f =
        if s.ctlState = .running then some (.reentrant op.code)
        else if (op = .write ∨ op = .writeNoCheck) ∧ x.data.length ≠ x.len.toNat then
          some (.badRequest op.code x.len x.data.length)
        else if (op = .read ∨ op = .write ∨ op = .writeNoCheck) ∧ s.params.capacity < x.addr.toNat + x.len.toNat then
          some (.outOfRange x.addr x.len)
        else if (op = .eraseSector ∨ op = .eraseBlock) ∧ s.params.capacity ≤ x.addr.toNat then
          some (.outOfRange x.addr 0)
        else none) ∧
  ∀ (s : State) (w : HostWord) (e : DecodeError), decodeRequest w = .error e →
    ∃ t, State.submitStep w s = .next t ∧ t.trace = s.trace ∧ t.refused = s.refused ∧
      ∀ f, f ∈ t.faults ↔ f ∈ s.faults ∨
        f = if s.ctlState = .running then .reentrant (cmdOp w.cmd) else .illegalOp w.cmd

/-- Acceptance by an idle controller latches the request and sets RUNNING (10_state.md R52); it sends no frame and
changes nothing of the device, the host's queue or the schedule. A request while RUNNING changes nothing but the fault
record. That acceptance leaves the walk registers, `poll_count` and `id_word` as they were is the model's choice (log
8), and so are the latching of a request whose check fails (log 14) and the emptied response (log 25). -/
def Obligations.AcceptanceLatchesRequest : Prop :=
  ∀ (s t : State) (i : Instr) (op : HostOp) (x : HostArgs), requestFields i = some (op, x) → exec i s = .next t →
    s.SameDevice t ∧ s.SameWalk t ∧ t.pollCount = s.pollCount ∧ t.idWord = s.idWord ∧ t.rx = s.rx ∧
      t.params = s.params ∧ t.hostQueue = s.hostQueue ∧ t.schedule = s.schedule ∧ t.draws = s.draws ∧
      t.trace = s.trace ∧ t.refused = s.refused ∧ t.ctlState = .running ∧
      (∀ a, t.mem.read a = s.mem.read a) ∧
      (s.ctlState = .idle → t.req = ⟨op.code, x.addr, x.len, x.data⟩ ∧ t.response = none) ∧
      (s.ctlState = .running → t.req = s.req ∧ t.cont = s.cont ∧ t.scratch = s.scratch ∧ t.response = s.response)

/-! ### Operations, from acceptance to the response -/

/-- `init` and `wake_up` on a device that is not BUSY, asleep or not, return `OK(0, [])` after one `RPD` frame with
ASLEEP = 0 (44_id_selftest_power.md R226, R234); `power_down` on an awake one returns `OK(0, [])` after one `PD` frame
with ASLEEP = 1 (R232). Nothing else of the device and no register of the controller changes. What the return leaves
in the registers is the model's choice (log 8). -/
def Obligations.PowerOperationsComplete : Prop :=
  ∀ (s : State) (x : HostArgs), s.params.wf = true → s.ctlState = .idle → s.faults = [] → s.busy = false →
    (∃ t u, exec (.hostInit x) s = .next t ∧ runFor 2 { t with schedule := [.main, .main] } = .next u ∧
      u.ctlState = .idle ∧ u.response = some ⟨.ok, 0, []⟩ ∧ s.SameDevice { u with asleep := s.asleep } ∧ u.asleep = false ∧
      u.faults = [] ∧ s.SameWalk u ∧ s.SameRest u ∧ u.idWord = s.idWord ∧ u.trace = s.trace ++ [.frame (s.opc .rpd) none [] []]) ∧
    (∃ t u, exec (.wakeUp x) s = .next t ∧ runFor 2 { t with schedule := [.main, .main] } = .next u ∧
      u.ctlState = .idle ∧ u.response = some ⟨.ok, 0, []⟩ ∧ s.SameDevice { u with asleep := s.asleep } ∧ u.asleep = false ∧
      u.faults = [] ∧ s.SameWalk u ∧ s.SameRest u ∧ u.idWord = s.idWord ∧ u.trace = s.trace ++ [.frame (s.opc .rpd) none [] []]) ∧
    (s.asleep = false →
      ∃ t u, exec (.powerDown x) s = .next t ∧ runFor 2 { t with schedule := [.main, .main] } = .next u ∧
        u.ctlState = .idle ∧ u.response = some ⟨.ok, 0, []⟩ ∧ s.SameDevice { u with asleep := s.asleep } ∧ u.asleep = true ∧
        u.faults = [] ∧ s.SameWalk u ∧ s.SameRest u ∧ u.idWord = s.idWord ∧ u.trace = s.trace ++ [.frame (s.opc .pd) none [] []])

/-- `read_id` returns the 16-bit manufacturer and device code, `read_jedec_id` the 24-bit code, each after one frame
and with no change of the device (44_id_selftest_power.md R228, R230; 20_memory.md R76). What the return leaves in the
registers is the model's choice (log 8). -/
def Obligations.IdentificationReturnsCodes : Prop :=
  ∀ (s : State) (x : HostArgs), s.params.wf = true → s.CleanStart →
    (∃ t u, exec (.readId x) s = .next t ∧ runFor 3 { t with schedule := [.main, .main, .main] } = .next u ∧
      u.ctlState = .idle ∧
      u.response = some ⟨.ok, BitVec.ofNat 32 (s.params.devMfr.toNat * 256 + s.params.devId8.toNat), []⟩ ∧
      s.SameDevice u ∧ s.SameWalk u ∧ s.SameRest u ∧
      u.idWord.toNat = s.params.devMfr.toNat * 256 + s.params.devId8.toNat ∧ u.faults = [] ∧
      u.trace = s.trace ++ [.frame (s.opc .rdid) (some 0) [] [s.params.devMfr, s.params.devId8]]) ∧
    (∃ t u, exec (.readJedecId x) s = .next t ∧ runFor 3 { t with schedule := [.main, .main, .main] } = .next u ∧
      u.ctlState = .idle ∧
      u.response = some ⟨.ok, BitVec.ofNat 32
        (s.params.devMfr.toNat * 65536 + s.params.devType.toNat * 256 + s.params.devCapExp.toNat), []⟩ ∧
      s.SameDevice u ∧ s.SameWalk u ∧ s.SameRest u ∧
      u.idWord.toNat = s.params.devMfr.toNat * 65536 + s.params.devType.toNat * 256 + s.params.devCapExp.toNat ∧
      u.faults = [] ∧
      u.trace = s.trace ++ [.frame (s.opc .jedec) none [] [s.params.devMfr, s.params.devType, s.params.devCapExp]])

/-- `read` of `len >= 1` bytes inside the array returns them, after one frame, and changes nothing of the device
(43_read_write.md R198). What the return leaves in the registers is the model's choice (log 8). -/
def Obligations.ReadReturnsBytes : Prop :=
  ∀ (s : State) (x : HostArgs), s.params.wf = true → s.CleanStart → 1 ≤ x.len.toNat →
    x.addr.toNat + x.len.toNat ≤ s.params.capacity →
    ∃ (t u : State) (d : List Byte), exec (.hostRead x) s = .next t ∧
      runFor 3 { t with schedule := [.main, .main, .main] } = .next u ∧
      u.ctlState = .idle ∧ u.response = some ⟨.ok, 0, d⟩ ∧ d.length = x.len.toNat ∧
      (∀ j, j < x.len.toNat → d[j]? = some (s.mem.read (x.addr.toNat + j))) ∧
      s.SameDevice u ∧ s.SameWalk u ∧ s.SameRest u ∧ u.idWord = s.idWord ∧ u.faults = [] ∧
      u.trace = s.trace ++ [.frame (s.opc .read) (some (BitVec.ofNat 24 x.addr.toNat)) [] d]

/-- A `read` while the device is BUSY returns `OK` with `len` draws, and the controller does not notice
(43_read_write.md R199). -/
def Obligations.ReadWhileBusyReturnsDraws : Prop :=
  ∀ (s : State) (x : HostArgs), s.params.wf = true → s.ctlState = .idle → s.faults = [] → s.asleep = false →
    s.busy = true → 1 ≤ x.len.toNat → x.addr.toNat + x.len.toNat ≤ s.params.capacity →
    ∃ (t u : State) (d : List Byte), exec (.hostRead x) s = .next t ∧
      runFor 3 { t with schedule := [.main, .main, .main] } = .next u ∧
      u.ctlState = .idle ∧ u.response = some ⟨.ok, 0, d⟩ ∧ d.length = x.len.toNat ∧
      (∀ j, j < x.len.toNat → d[j]? = some (Config.draw (s.draws + j))) ∧ s.SameDevice u ∧ u.faults = []

/-- A `read`, `write` or `write_no_check` of length 0 that passes the range check sends no frame and returns
`OK(0, [])`, on any device (43_read_write.md R196). -/
def Obligations.ZeroLengthSendsNothing : Prop :=
  ∀ (s : State) (x : HostArgs) (i : Instr), s.params.geometryOk = true → s.ctlState = .idle → s.faults = [] →
    x.len = 0 → x.addr.toNat ≤ s.params.capacity →
    (i = .hostRead x ∨ x.data = [] ∧ (i = .hostWrite x ∨ i = .writeNoCheck x)) →
    ∃ (t u : State) (k : Nat), exec i s = .next t ∧
      runFor k { t with schedule := List.replicate k .main } = .next u ∧
      u.ctlState = .idle ∧ u.response = some ⟨.ok, 0, []⟩ ∧ u.trace = s.trace ∧ s.SameDevice u ∧ u.faults = []

/-- `erase_sector`, `erase_block` and `erase_chip` return `OK(0, [])` with exactly their unit at 0xFF and nothing else
of the array changed, after `WREN`, the erase frame, `k + 1` status reads and one completion, for every number `k` of
reads that see BUSY (42_erase.md R183, R185, R187, R189). What the return leaves in the registers is the model's
choice (log 8). -/
def Obligations.EraseOperationsComplete : Prop :=
  ∀ (s : State) (x : HostArgs) (k : Nat), s.params.wf = true → s.CleanStart →
    (∀ limit, s.params.pollLimit = some limit → k < limit) →
    ∀ (i : Instr) (op : WireOp) (base size : Nat),
      (i = .eraseSector x ∧ x.addr.toNat < s.params.capacity ∧ op = .se ∧
          base = x.addr.toNat - x.addr.toNat % 4096 ∧ size = 4096 ∨
        i = .eraseBlock x ∧ x.addr.toNat < s.params.capacity ∧ op = .be ∧
          base = x.addr.toNat - x.addr.toNat % 65536 ∧ size = 65536 ∨
        i = .eraseChip x ∧ op = .ce ∧ base = 0 ∧ size = s.params.capacity) →
      ∃ t u, exec i s = .next t ∧
        runFor (eraseTurns k).length { t with schedule := eraseTurns k } = .next u ∧
        u.ctlState = .idle ∧ u.response = some ⟨.ok, 0, []⟩ ∧ u.faults = [] ∧
        u.busy = false ∧ u.wel = false ∧ u.pending = .none ∧ u.asleep = false ∧ s.SameWalk u ∧ u.pollCount = k ∧
        u.idWord = s.idWord ∧ u.params = s.params ∧ u.hostQueue = s.hostQueue ∧ u.refused = s.refused ∧
        (∀ a, u.mem.read a = if base ≤ a ∧ a < base + size then 0xFF else s.mem.read a) ∧
        u.trace.length = s.trace.length + (k + 4) ∧
        countFrames s.params.opc .wren u.trace = countFrames s.params.opc .wren s.trace + 1 ∧
        countFrames s.params.opc op u.trace = countFrames s.params.opc op s.trace + 1 ∧
        countFrames s.params.opc .rdsr u.trace = countFrames s.params.opc .rdsr s.trace + (k + 1) ∧
        countCompletions u.trace = countCompletions s.trace + 1

/-- Under a poll limit `N`, an `erase_sector`, `erase_block` or `erase_chip` whose `N` status reads all see BUSY returns
`TIMEOUT(0, [])` at once; the device is left BUSY with the erase pending and the array as it was. The same holds of
every busy-poll, whatever operation it belongs to and whatever of its pseudocode is still to run (41_status_wel.md R167,
whose TIMEOUT ends `write`, `write_no_check` and `self_test` too). -/
def Obligations.PollLimitTimesOut : Prop :=
  (∀ (s : State) (x : HostArgs) (limit : Nat), s.params.wf = true → s.CleanStart → s.params.pollLimit = some limit →
    ∀ (i : Instr) (p : Pending),
      (i = .eraseSector x ∧ x.addr.toNat < s.params.capacity ∧
          p = .eraseSector (BitVec.ofNat 24 (x.addr.toNat - x.addr.toNat % 4096)) ∨
        i = .eraseBlock x ∧ x.addr.toNat < s.params.capacity ∧
          p = .eraseBlock (BitVec.ofNat 24 (x.addr.toNat - x.addr.toNat % 65536)) ∨
        i = .eraseChip x ∧ p = .eraseChip) →
      ∃ t u, exec i s = .next t ∧
        runFor (2 * limit + 4) { t with schedule := List.replicate (2 * limit + 4) .main } = .next u ∧
        u.ctlState = .idle ∧ u.response = some ⟨.timeout, 0, []⟩ ∧ u.faults = [] ∧ u.busy = true ∧ u.wel = true ∧
        u.pending = p ∧ u.mem = s.mem ∧
        countFrames s.params.opc .rdsr u.trace = countFrames s.params.opc .rdsr s.trace + limit) ∧
  ∀ (s : State) (rest : List Micro) (limit : Nat), s.params.wf = true → s.ctlState = .running → s.faults = [] →
    s.asleep = false → s.busy = true → s.params.pollLimit = some limit → s.cont = busyPoll ++ rest →
    ∃ u, runFor (2 * limit + 2) { s with schedule := List.replicate (2 * limit + 2) .main } = .next u ∧
      u.ctlState = .idle ∧ u.response = some ⟨.timeout, 0, []⟩ ∧ u.faults = [] ∧ s.SameDevice u ∧
      countFrames s.params.opc .rdsr u.trace = countFrames s.params.opc .rdsr s.trace + limit

/-- An `erase_sector`, `erase_block` or `erase_chip` accepted while the device is BUSY with an earlier operation reports
`OK`, and what it does depends on when the earlier operation completes (41_status_wel.md R172; 70_reset_and_hazards.md
R291). If that is after the `WREN` frame, the erase is lost: the array is what the earlier operation leaves. If it is
before the `WREN`, the erase is performed on what that operation leaves. The first clause is the run in which the poll
reads BUSY `k` times after both frames, below any poll limit. The second is every schedule of turns, by whether its first
turn is the device's, with no poll limit and no further request: no step stops or records a fault, and the controller
becomes IDLE again (R171; the fairness is log 21). -/
def Obligations.EraseRequestedWhileBusy : Prop :=
  ∀ (s : State) (x : HostArgs), s.params.wf = true → s.ctlState = .idle → s.faults = [] → s.asleep = false →
    s.busy = true →
    ∀ (i : Instr) (base size : Nat),
      (i = .eraseSector x ∧ x.addr.toNat < s.params.capacity ∧
          base = x.addr.toNat - x.addr.toNat % 4096 ∧ size = 4096 ∨
        i = .eraseBlock x ∧ x.addr.toNat < s.params.capacity ∧
          base = x.addr.toNat - x.addr.toNat % 65536 ∧ size = 65536 ∨
        i = .eraseChip x ∧ base = 0 ∧ size = s.params.capacity) →
      (∀ k, (∀ limit, s.params.pollLimit = some limit → k < limit) →
        ∃ t u, exec i s = .next t ∧
          runFor (eraseTurns k).length { t with schedule := eraseTurns k } = .next u ∧
          u.ctlState = .idle ∧ u.response = some ⟨.ok, 0, []⟩ ∧ u.faults = [] ∧ u.busy = false ∧ u.wel = false ∧
          u.mem = s.pending.apply s.params s.mem) ∧
      (s.hostQueue = [] → s.params.pollLimit = none →
        ∃ t, exec i s = .next t ∧ ∀ (first : Turn) (turns : List Turn),
          (∃ k u, runFor k { t with schedule := first :: turns } = .next u ∧ u.ctlState = .idle) ∧
          ∀ k, ∃ u, runFor k { t with schedule := first :: turns } = .next u ∧ u.faults = [] ∧
            (u.ctlState = .idle → u.response = some ⟨.ok, 0, []⟩ ∧ u.busy = false ∧ u.wel = false ∧
              ∀ a, u.mem.read a =
                if first = .device ∧ base ≤ a ∧ a < base + size then 0xFF
                else (s.pending.apply s.params s.mem).read a))

/-- `write_no_check` returns `OK(0, [])` under some schedule, with each destination byte `old & data` and no other
byte changed, erased or not (43_read_write.md R213, R214). What the return leaves in the registers is the model's
choice (log 8). -/
def Obligations.WriteNoCheckProgramsAnd : Prop :=
  ∀ (s : State) (x : HostArgs), s.params.wf = true → s.CleanStart → s.mem.wf → x.data.length = x.len.toNat →
    x.addr.toNat + x.len.toNat ≤ s.params.capacity →
    ∃ (t u : State) (turns : List Turn), exec (.writeNoCheck x) s = .next t ∧
      runFor turns.length { t with schedule := turns } = .next u ∧
      u.ctlState = .idle ∧ u.response = some ⟨.ok, 0, []⟩ ∧ u.faults = [] ∧ u.busy = false ∧
      u.asleep = false ∧ s.SameWalk { u with pgOff := s.pgOff } ∧ u.idWord = s.idWord ∧ u.params = s.params ∧
      u.hostQueue = s.hostQueue ∧ u.refused = s.refused ∧
      ∀ a, u.mem.read a =
        if x.addr.toNat ≤ a ∧ a < x.addr.toNat + x.len.toNat then
          s.mem.read a &&& x.data.getD (a - x.addr.toNat) 0xFF
        else s.mem.read a

/-- `write` returns `OK(0, [])` under some schedule, with exactly the bytes of `[addr, addr+len)` the caller's data
and every other byte of the array at its prior value (43_read_write.md R200, R209). What the return leaves in the
registers is the model's choice (log 8). -/
def Obligations.SmartWriteCompletes : Prop :=
  ∀ (s : State) (x : HostArgs), s.params.wf = true → s.CleanStart → s.mem.wf → x.data.length = x.len.toNat →
    x.addr.toNat + x.len.toNat ≤ s.params.capacity →
    ∃ (t u : State) (turns : List Turn), exec (.hostWrite x) s = .next t ∧
      runFor turns.length { t with schedule := turns } = .next u ∧
      u.ctlState = .idle ∧ u.response = some ⟨.ok, 0, []⟩ ∧ u.faults = [] ∧ u.busy = false ∧
      u.asleep = false ∧ u.curAddr.toNat = x.addr.toNat + x.len.toNat ∧ u.remLen = 0 ∧ u.bufOff = x.len ∧
      u.idWord = s.idWord ∧ u.params = s.params ∧ u.hostQueue = s.hostQueue ∧ u.refused = s.refused ∧
      ∀ a, u.mem.read a =
        if x.addr.toNat ≤ a ∧ a < x.addr.toNat + x.len.toNat then x.data.getD (a - x.addr.toNat) 0xFF
        else s.mem.read a

/-- The smart write under every schedule of turns: with no poll limit and no further request, no step faults, refuses
or stops, the controller becomes IDLE again (41_status_wel.md R171; the fairness is log 21), and in whatever state it is
IDLE again, the response is `OK(0, [])`, the bytes of `[addr, addr+len)` are the caller's data, every other byte is at its
prior value, and no `SE` frame was sent if every destination byte read 0xFF (10_state.md R31; 43_read_write.md R200,
R207, R208, R218, R219). -/
def Obligations.SmartWriteUnderEverySchedule : Prop :=
  ∀ (s : State) (x : HostArgs), s.params.wf = true → s.CleanStart → s.mem.wf → s.hostQueue = [] →
    s.params.pollLimit = none → x.data.length = x.len.toNat → x.addr.toNat + x.len.toNat ≤ s.params.capacity →
    ∃ t, exec (.hostWrite x) s = .next t ∧
      (∀ turns : List Turn, ∃ k u, runFor k { t with schedule := turns } = .next u ∧ u.ctlState = .idle) ∧
      ∀ (turns : List Turn) (k : Nat), ∃ u, runFor k { t with schedule := turns } = .next u ∧ u.faults = [] ∧
        (u.ctlState = .idle → u.response = some ⟨.ok, 0, []⟩ ∧ u.busy = false ∧
          ((∀ a, x.addr.toNat ≤ a → a < x.addr.toNat + x.len.toNat → s.mem.read a = 0xFF) →
            countFrames s.params.opc .se u.trace = countFrames s.params.opc .se s.trace) ∧
          ∀ a, u.mem.read a =
            if x.addr.toNat ≤ a ∧ a < x.addr.toNat + x.len.toNat then x.data.getD (a - x.addr.toNat) 0xFF
            else s.mem.read a)

/-- `erase_sector`, `erase_block` and `erase_chip` under every schedule of turns: with no poll limit and no further
request, no step faults, refuses or stops, the controller becomes IDLE again (41_status_wel.md R171; the fairness is log
21), and in whatever state it is IDLE again, the response is `OK(0, [])`, the sector, the block or the array is 0xFF and
every other byte is at its prior value (10_state.md R31; 42_erase.md R183, R185, R187). -/
def Obligations.ErasesUnderEverySchedule : Prop :=
  ∀ (s : State) (x : HostArgs), s.params.wf = true → s.CleanStart → s.hostQueue = [] → s.params.pollLimit = none →
    ∀ (i : Instr) (base size : Nat),
      (i = .eraseSector x ∧ x.addr.toNat < s.params.capacity ∧
          base = x.addr.toNat - x.addr.toNat % 4096 ∧ size = 4096 ∨
        i = .eraseBlock x ∧ x.addr.toNat < s.params.capacity ∧
          base = x.addr.toNat - x.addr.toNat % 65536 ∧ size = 65536 ∨
        i = .eraseChip x ∧ base = 0 ∧ size = s.params.capacity) →
      ∃ t, exec i s = .next t ∧
        (∀ turns : List Turn, ∃ k u, runFor k { t with schedule := turns } = .next u ∧ u.ctlState = .idle) ∧
        ∀ (turns : List Turn) (k : Nat), ∃ u, runFor k { t with schedule := turns } = .next u ∧ u.faults = [] ∧
          (u.ctlState = .idle → u.response = some ⟨.ok, 0, []⟩ ∧ u.busy = false ∧ u.wel = false ∧
            ∀ a, u.mem.read a = if base ≤ a ∧ a < base + size then 0xFF else s.mem.read a)

/-- `write_no_check` under every schedule of turns, with no poll limit and no further request: no step stops or records
a fault, the controller becomes IDLE again (41_status_wel.md R171; the fairness is log 21), and where it is IDLE again the
response is `OK(0, [])`, each destination byte is `old & data` and every other byte is at its prior value (10_state.md
R31; 43_read_write.md R213, R214). -/
def Obligations.WriteNoCheckUnderEverySchedule : Prop :=
  ∀ (s : State) (x : HostArgs), s.params.wf = true → s.CleanStart → s.mem.wf → s.hostQueue = [] →
    s.params.pollLimit = none → x.data.length = x.len.toNat → x.addr.toNat + x.len.toNat ≤ s.params.capacity →
    ∃ t, exec (.writeNoCheck x) s = .next t ∧
      (∀ turns : List Turn, ∃ k u, runFor k { t with schedule := turns } = .next u ∧ u.ctlState = .idle) ∧
      ∀ (turns : List Turn) (k : Nat), ∃ u, runFor k { t with schedule := turns } = .next u ∧ u.faults = [] ∧
        (u.ctlState = .idle → u.response = some ⟨.ok, 0, []⟩ ∧ u.busy = false ∧
          ∀ a, u.mem.read a =
            if x.addr.toNat ≤ a ∧ a < x.addr.toNat + x.len.toNat then
              s.mem.read a &&& x.data.getD (a - x.addr.toNat) 0xFF
            else s.mem.read a)

/-- Under a poll limit `N`, an `erase_sector`, `erase_block` or `erase_chip` is over within `2 * N + 5` steps of its
acceptance whatever the turns, if the host submits nothing more: it answers `OK` or `TIMEOUT` (41_status_wel.md R166,
R167; 10_state.md R31). The number of steps is the model's choice: it counts one step for each line of pseudocode, which
R34 does not fix (log 20). -/
def Obligations.PollLimitBoundsErase : Prop :=
  ∀ (s : State) (x : HostArgs) (limit : Nat), s.params.wf = true → s.CleanStart → s.hostQueue = [] →
    s.params.pollLimit = some limit →
    ∀ i : Instr,
      (i = .eraseSector x ∧ x.addr.toNat < s.params.capacity ∨ i = .eraseBlock x ∧ x.addr.toNat < s.params.capacity ∨
        i = .eraseChip x) →
      ∃ t, exec i s = .next t ∧
        ∀ turns : List Turn, ∃ (j : Nat) (u : State), j ≤ 2 * limit + 5 ∧
          runFor j { t with schedule := turns } = .next u ∧ u.ctlState = .idle ∧ u.faults = [] ∧
          (u.response = some ⟨.ok, 0, []⟩ ∧ u.busy = false ∨ u.response = some ⟨.timeout, 0, []⟩)

/-- `self_test` on a device whose manufacturer byte is the expected one and whose exponent is in range returns `OK`
with the capacity `2^e`, if 32 bits hold it, under some schedule; sector 0 then holds the pattern and 0xFF, and
nothing else of the array changed (44_id_selftest_power.md R240, R242). What the return leaves in the registers is the
model's choice (log 8). -/
def Obligations.SelfTestPasses : Prop :=
  ∀ (s : State) (x : HostArgs), s.params.wf = true → s.CleanStart → s.mem.wf →
    s.params.devMfr = s.params.expectedMfr → s.params.expMin.toNat ≤ s.params.devCapExp.toNat →
    s.params.devCapExp.toNat ≤ s.params.expMax.toNat →
    ∃ (t u : State) (turns : List Turn) (v : Word), exec (.selfTest x) s = .next t ∧
      runFor turns.length { t with schedule := turns } = .next u ∧
      u.ctlState = .idle ∧ u.response = some ⟨.ok, v, []⟩ ∧
      (s.params.devCapExp.toNat < 32 → v.toNat = 2 ^ s.params.devCapExp.toNat) ∧
      u.faults = [] ∧ u.busy = false ∧ u.asleep = false ∧ u.params = s.params ∧
      u.idWord = s.params.devMfr ++ s.params.devType ++ s.params.devCapExp ∧
      u.hostQueue = s.hostQueue ∧ u.refused = s.refused ∧
      ∀ a, u.mem.read a =
        if a < 256 then s.params.pattern.getD a 0xFF else if a < 4096 then 0xFF else s.mem.read a

/-- `self_test` under every schedule of turns, with no poll limit and no further request, on a device with the expected
manufacturer byte and an exponent in range: no step stops or records a fault, the controller becomes IDLE again
(41_status_wel.md R171; the fairness is log 21), and where it is IDLE again the response is `OK(2^e, [])`, if 32 bits hold
`2^e`, and sector 0 holds the pattern and 0xFF (10_state.md R31; 44_id_selftest_power.md R240, R242). -/
def Obligations.SelfTestUnderEverySchedule : Prop :=
  ∀ (s : State) (x : HostArgs), s.params.wf = true → s.CleanStart → s.mem.wf → s.hostQueue = [] →
    s.params.pollLimit = none → s.params.devMfr = s.params.expectedMfr →
    s.params.expMin.toNat ≤ s.params.devCapExp.toNat → s.params.devCapExp.toNat ≤ s.params.expMax.toNat →
    ∃ t, exec (.selfTest x) s = .next t ∧
      (∀ turns : List Turn, ∃ k u, runFor k { t with schedule := turns } = .next u ∧ u.ctlState = .idle) ∧
      ∀ (turns : List Turn) (k : Nat), ∃ u, runFor k { t with schedule := turns } = .next u ∧ u.faults = [] ∧
        (u.ctlState = .idle →
          (∃ v : Word, u.response = some ⟨.ok, v, []⟩ ∧
            (s.params.devCapExp.toNat < 32 → v.toNat = 2 ^ s.params.devCapExp.toNat)) ∧
          ∀ a, u.mem.read a =
            if a < 256 then s.params.pattern.getD a 0xFF else if a < 4096 then 0xFF else s.mem.read a)

/-- The three failure outcomes of `self_test` (44_id_selftest_power.md R241). On a device with another manufacturer
byte it ends with `ID_MISMATCH`, on one with the expected byte and an exponent out of range with `SIZE_OUT_OF_RANGE`,
after one frame and without touching the chip (R236, R237). The comparison ends it with `OK(2^e, [])` if the bytes read
back are the pattern and with `DATA_MISMATCH(2^e, [])` if any differs (R238, R240), if 32 bits hold `2^e`: the accepted
pseudocode ends with the read-back and the comparison; the comparison goes by whatever bytes the last frame read; and
the read-back from an awake device with BUSY = 0 makes them the first 256 bytes of the array. -/
def Obligations.SelfTestFailureOutcomes : Prop :=
  (∀ (s : State) (x : HostArgs), s.params.wf = true → s.CleanStart →
    (∃ (t : State) (before : List Micro), exec (.selfTest x) s = .next t ∧
      t.cont = before ++ [.xfer .readBack, .compare, .ret .ok .capacity false]) ∧
    (s.params.devMfr ≠ s.params.expectedMfr →
      ∃ t u, exec (.selfTest x) s = .next t ∧ runFor 4 { t with schedule := List.replicate 4 .main } = .next u ∧
        u.ctlState = .idle ∧ u.response = some ⟨.idMismatch, 0, []⟩ ∧ u.faults = [] ∧ s.SameDevice u ∧
        u.trace.length = s.trace.length + 1) ∧
    (s.params.devMfr = s.params.expectedMfr →
      (s.params.devCapExp.toNat < s.params.expMin.toNat ∨ s.params.expMax.toNat < s.params.devCapExp.toNat) →
      ∃ t u, exec (.selfTest x) s = .next t ∧ runFor 5 { t with schedule := List.replicate 5 .main } = .next u ∧
        u.ctlState = .idle ∧ u.response = some ⟨.sizeOutOfRange, 0, []⟩ ∧ u.faults = [] ∧ s.SameDevice u ∧
        u.trace.length = s.trace.length + 1)) ∧
  ∀ s : State, s.params.wf = true → s.ctlState = .running → s.faults = [] →
    (s.cont = [.compare, .ret .ok .capacity false] →
      ∃ (u : State) (v : Word), runFor 2 { s with schedule := [.main, .main] } = .next u ∧ u.ctlState = .idle ∧
        u.response = some ⟨if s.rx = s.params.pattern then .ok else .dataMismatch, v, []⟩ ∧
        (s.idWord.toNat % 256 < 32 → v.toNat = 2 ^ (s.idWord.toNat % 256)) ∧ u.faults = [] ∧ s.SameDevice u ∧
        u.trace = s.trace) ∧
    (s.cont = [.xfer .readBack, .compare, .ret .ok .capacity false] → s.asleep = false → s.busy = false →
      ∃ (u : State) (v : Word) (r : Result), runFor 3 { s with schedule := [.main, .main, .main] } = .next u ∧
        u.ctlState = .idle ∧ u.response = some ⟨r, v, []⟩ ∧
        ((∀ j, j < 256 → s.params.pattern[j]? = some (s.mem.read j)) → r = .ok) ∧
        ((∃ j, j < 256 ∧ s.params.pattern[j]? ≠ some (s.mem.read j)) → r = .dataMismatch) ∧
        (s.idWord.toNat % 256 < 32 → v.toNat = 2 ^ (s.idWord.toNat % 256)) ∧ u.faults = [] ∧ s.SameDevice u ∧
        u.trace.length = s.trace.length + 1)

/-! ### The arithmetic of the smart write -/

/-- Step 1 of a chunk: `sec_base`, `off` and `chunk` are the sector's base, the offset in it and
`min(rem_len, SECTOR - off)`, held without loss in their registers; `1 <= chunk <= SECTOR` and `off + chunk <= SECTOR`
(43_read_write.md R201). -/
def Obligations.ChunkRegistersComputed : Prop :=
  ∀ (s : State) (rest : List Micro), s.curAddr.toNat < 2 ^ 24 → 0 < s.remLen.toNat →
    ∃ t, t = s.internal .chunkInit rest ∧
      t.secBase.toNat = s.curAddr.toNat / 4096 * 4096 ∧ t.off.toNat = s.curAddr.toNat % 4096 ∧
      t.chunk.toNat = min s.remLen.toNat (4096 - s.curAddr.toNat % 4096) ∧
      1 ≤ t.chunk.toNat ∧ t.chunk.toNat ≤ 4096 ∧ t.off.toNat + t.chunk.toNat ≤ 4096 ∧ t.cont = rest ∧
      s.SameDevice t ∧ t.curAddr = s.curAddr ∧ t.remLen = s.remLen ∧ t.bufOff = s.bufOff

/-- Step 3: with the chunk's bytes written in the scratch buffer, `need_erase` is set exactly when one of them is not
0xFF; the bytes outside `[off, off + chunk)` do not matter (43_read_write.md R203). -/
def Obligations.ScanDecidesErase : Prop :=
  ∀ (s : State) (rest : List Micro),
    (∀ k, s.off.toNat ≤ k → k < s.off.toNat + s.chunk.toNat → ∃ b, s.scratch[k]? = some (some b)) →
    ((s.internal .scan rest).needErase = true ↔
      ∃ k b, s.off.toNat ≤ k ∧ k < s.off.toNat + s.chunk.toNat ∧ s.scratch[k]? = some (some b) ∧ b ≠ 0xFF) ∧
    (s.internal .scan rest).faults = s.faults ∧ (s.internal .scan rest).cont = rest

/-- Reading a scratch byte the current request has not written is the fault `ScratchUninit` of the first such byte, in
both lines that read the buffer: the scan of the chunk's bytes (step 3) and the page of a merged sector (step 4a), which
then sends no frame (10_state.md R36). -/
def Obligations.UnwrittenScratchFaults : Prop :=
  ∀ (s : State) (m : Micro) (rest : List Micro) (lo n k : Nat),
    (m = .scan ∧ lo = s.off.toNat ∧ n = s.chunk.toNat ∨
      m = .xfer (.page .merged) ∧ lo = s.pgOff.toNat ∧
        n = min (4096 - s.pgOff.toNat) (256 - (s.secBase.toNat + s.pgOff.toNat) % 256)) →
    lo ≤ k → k < lo + n → (∀ j, lo ≤ j → j < k → ∃ b, s.scratch[j]? = some (some b)) → s.scratch[k]? = some none →
    ∃ t, s.lineStep m rest = .next t ∧ FaultRecord.scratchUninit k ∈ t.faults ∧ t.trace = s.trace ∧
      t.scratch = s.scratch ∧ s.SameDevice t

/-- The page split: a piece at offset `i < n` has 1 to `PAGE` bytes, lies in one page, and does not run past the end;
it ends at the program's end or at a page boundary (43_read_write.md R215). -/
def Obligations.PieceStaysInOnePage : Prop :=
  ∀ a n i : Nat, i < n →
    pieceLen a n i = min (n - i) (256 - (a + i) % 256) ∧ 1 ≤ pieceLen a n i ∧ pieceLen a n i ≤ 256 ∧
      (a + i) % 256 + pieceLen a n i ≤ 256 ∧ (a + i) / 256 = (a + i + pieceLen a n i - 1) / 256 ∧
      (i + pieceLen a n i = n ∨ (a + i + pieceLen a n i) % 256 = 0)

/-- The test of a busy-poll: with the BUSY bit 0 the poll is done and the pseudocode goes on; with it 1 the count goes
up, and the poll either reads the status again or, at the limit, ends the operation with `TIMEOUT`
(41_status_wel.md R166, R167). -/
def Obligations.PollTestFollowsBusyBit : Prop :=
  ∀ (s : State) (rest : List Micro) (b : Byte), s.rx = [b] →
    (b.getLsbD s.params.srBusyBit = false →
      (s.internal .pollTest rest).cont = rest ∧ (s.internal .pollTest rest).pollCount = s.pollCount) ∧
    (b.getLsbD s.params.srBusyBit = true →
      (s.internal .pollTest rest).pollCount = s.pollCount + 1 ∧
      (s.internal .pollTest rest).cont =
        if ∃ limit, s.params.pollLimit = some limit ∧ limit ≤ s.pollCount + 1 then [.ret .timeout .zero false]
        else .xfer .rdsr :: .pollTest :: rest)

/-! ### Reset -/

/-- The controller's reset: IDLE, no fault, not refused, an empty trace, and a scratch buffer that no request has
written; the array, BUSY, WEL, `pending` and the identity bytes keep their values, and ASLEEP is a draw
(70_reset_and_hazards.md R281, R282; 10_state.md R57). -/
def Obligations.ControllerResetKeepsDevice : Prop :=
  ∀ s : State, ∃ t, t = s.controllerReset ∧ t.ctlState = .idle ∧ t.faults = [] ∧ t.refused = false ∧ t.trace = [] ∧
    (∀ k, k < 4096 → t.scratch[k]? = some none) ∧ t.mem = s.mem ∧ t.busy = s.busy ∧ t.wel = s.wel ∧ t.pending = s.pending ∧
    t.params = s.params ∧ t.asleep = (Config.draw s.draws).getLsbD 0

/-- The state right after reset with a fresh device: the values 10_state.md R57 and 70_reset_and_hazards.md R284 give,
with ASLEEP a draw, and the default geometry and opcode bytes (00_scope.md R9; 30_encoding.md R100). That the array
lists nothing, so that every byte reads 0xFF, is the model's choice (log 6). -/
def Obligations.ResetValues : Prop :=
  State.reset.ctlState = .idle ∧ State.reset.faults = [] ∧ State.reset.refused = false ∧ State.reset.trace = [] ∧
    State.reset.busy = false ∧ State.reset.wel = false ∧ State.reset.pending = .none ∧
    State.reset.asleep = (Config.draw 0).getLsbD 0 ∧ State.reset.scratch.length = 4096 ∧
    State.reset.params.capacity = 2 ^ 24 ∧ State.reset.params.sectorCount = 4096 ∧ State.reset.params.pollLimit = none ∧
    State.reset.params.opc.bytes =
      [0x06, 0x05, 0x01, 0x03, 0x0B, 0x02, 0x20, 0xD8, 0xC7, 0xB9, 0xAB, 0x90, 0x9F, 0x66, 0x99] ∧
    ∀ a, State.reset.mem.read a = 0xFF

/-! ### Fairness -/

/-- The completion step is weakly fair (40_bus_commands.md R149, which assumes it): from every state with BUSY = 1,
within the turns fixed from outside and the device's delay, whatever they are, the pending operation has taken its
effect, once. How the delay bounds the wait is the model's choice (log 21). -/
def Obligations.DeviceEventuallyCompletes : Prop :=
  ∀ s : State, s.params.geometryOk = true → s.busy = true →
    ∃ (k : Nat) (u : State), k ≤ s.schedule.length + s.delay + 1 ∧ runFor k s = .next u ∧ u.busy = false ∧
      u.wel = false ∧ u.pending = .none ∧ u.mem = s.pending.apply s.params s.mem ∧
      countCompletions u.trace = countCompletions s.trace + 1
end

