-- ==== Sys2Proof/Laws/Params.lean ====
section
/-! SUPPORT. What an admitted parameter set (00_scope.md R9, R10) gives, one lemma per condition, and the regions of the
array (20_memory.md R73). -/

namespace Sys2Proof

/-- The conditions of `Params.wf`, one by one. -/
theorem Params.wf_parts {p : Params} (h : p.wf = true) :
    p.geometryOk = true ∧ p.pollLimit ≠ some 0 ∧ p.pattern.length = Config.page ∧ p.srBusyBit < 8 ∧ p.srWelBit < 8 ∧
      p.srBusyBit ≠ p.srWelBit ∧ p.opc.distinct = true := by
  simpa only [Params.wf, Bool.and_eq_true, decide_eq_true_eq, and_assoc] using h

theorem Params.wf_geometry {p : Params} (h : p.wf = true) : p.geometryOk = true := (wf_parts h).1

theorem Params.wf_limit {p : Params} (h : p.wf = true) : p.pollLimit ≠ some 0 := (wf_parts h).2.1

theorem Params.wf_pattern {p : Params} (h : p.wf = true) : p.pattern.length = Config.page := (wf_parts h).2.2.1

theorem Params.wf_opcodes {p : Params} (h : p.wf = true) : p.opc.distinct = true := (wf_parts h).2.2.2.2.2.2

/-- The capacity of an admitted geometry: whole blocks, at least one, within a 24-bit address. -/
theorem Params.geometry_capacity {p : Params} (h : p.geometryOk = true) :
    p.capacity % 65536 = 0 ∧ 0 < p.capacity ∧ p.capacity ≤ 2 ^ 24 := by
  simp only [Params.geometryOk, Bool.and_eq_true, decide_eq_true_eq] at h
  exact ⟨h.1.1.2, h.1.2, h.2⟩

theorem Params.wf_capacity {p : Params} (h : p.wf = true) : p.capacity % 65536 = 0 ∧ p.capacity ≤ 2 ^ 24 :=
  have := geometry_capacity (wf_geometry h)
  ⟨this.1, this.2.2⟩

/-- The sectors cover the array exactly. -/
theorem Params.sectorCount_mul {p : Params} (h : p.geometryOk = true) : p.sectorCount * Config.sector = p.capacity := by
  have := (geometry_capacity h).1
  simp only [Params.sectorCount, Config.sector]
  omega

theorem Opcodes.default_distinct : Opcodes.default.distinct = true := by decide

end Sys2Proof
end

