-- ==== Sys2Proof/Laws/Flags.lean ====
section
/-! SUPPORT. The laws of the status byte (10_state.md R46; 40_bus_commands.md R133) and of the erase decision
(43_read_write.md R203). -/

namespace Sys2Proof.Machine

/-- A bit put in place reads back. -/
theorem setBit_same (v : Byte) {i : Nat} (x : Bool) (h : i < 8) : (setBit v i x).getLsbD i = x := by
  cases x <;> simp [setBit, h]

/-- The other bits keep their values. -/
theorem setBit_other (v : Byte) {i j : Nat} (x : Bool) (h : j ≠ i) : (setBit v i x).getLsbD j = v.getLsbD j := by
  have e : (1#8 <<< i).getLsbD j = false := by
    rw [BitVec.getLsbD_shiftLeft, BitVec.getLsbD_one]
    simp only [Bool.and_eq_false_iff, decide_eq_false_iff_not, Bool.not_eq_false']
    by_cases hj : j < i
    · exact .inl (.inr (by simpa using hj))
    · exact .inr (.inr (by omega))
  by_cases hj : j < 8
  · cases x
    · show BitVec.getLsbD (v &&& ~~~(1#8 <<< i)) j = _
      rw [BitVec.getLsbD_and, BitVec.getLsbD_not, e]
      simp [hj]
    · show BitVec.getLsbD (v ||| 1#8 <<< i) j = _
      rw [BitVec.getLsbD_or, e, Bool.or_false]
  · rw [BitVec.getLsbD_of_ge _ _ (by omega), BitVec.getLsbD_of_ge _ _ (by omega)]

/-- The bit a busy-poll looks at is BUSY. -/
theorem busyBit_statusByte {p : Params} (hp : p.wf = true) (d : Byte) (busy wel : Bool) :
    busyBit p (statusByte p d busy wel) = busy := by
  obtain ⟨-, -, -, hbit, -, hne, -⟩ := Params.wf_parts hp
  rw [busyBit, statusByte, setBit_other _ _ hne, setBit_same _ _ hbit]

theorem eraseRequired_eq_false {l : List Byte} : eraseRequired l = false ↔ ∀ b ∈ l, b = Config.erased := by
  simp [eraseRequired]

/-- The manufacturer byte of an assembled JEDEC code (44_id_selftest_power.md R236). -/
theorem idMfr_append (a b c : Byte) : idMfr (a ++ b ++ c) = a := by
  apply BitVec.eq_of_getLsbD_eq
  intro i hi
  show BitVec.getLsbD (BitVec.extractLsb' (n := 8 + 8 + 8) 16 8 _) _ = _
  rw [BitVec.getLsbD_extractLsb', BitVec.getLsbD_append, if_neg (by omega), BitVec.getLsbD_append, if_neg (by omega),
    show 16 + i - 8 - 8 = i by omega]
  simp [hi]

/-- The exponent byte of an assembled JEDEC code (R231). -/
theorem idExp_append (a b c : Byte) : idExp (a ++ b ++ c) = c := by
  apply BitVec.eq_of_getLsbD_eq
  intro i hi
  show BitVec.getLsbD (BitVec.extractLsb' (n := 8 + 8 + 8) 0 8 _) _ = _
  rw [BitVec.getLsbD_extractLsb', BitVec.getLsbD_append, if_pos (by omega), Nat.zero_add]
  simp [hi]

/-- The number a 16-bit code stands for (44_id_selftest_power.md R228). -/
theorem toNat_append2 (a b : Byte) : BitVec.toNat (w := 16) (a ++ b) = a.toNat * 256 + b.toNat := by
  show BitVec.toNat (w := 8 + 8) (a ++ b) = _
  rw [BitVec.toNat_append, ← Nat.shiftLeft_add_eq_or_of_lt b.isLt, Nat.shiftLeft_eq]

/-- The number a 24-bit code stands for (R230). -/
theorem toNat_append3 (a b c : Byte) :
    BitVec.toNat (w := 24) (a ++ b ++ c) = a.toNat * 65536 + b.toNat * 256 + c.toNat := by
  show BitVec.toNat (w := 8 + 8 + 8) (a ++ b ++ c) = _
  rw [BitVec.toNat_append, ← Nat.shiftLeft_add_eq_or_of_lt c.isLt, Nat.shiftLeft_eq,
    show BitVec.toNat (w := 8 + 8) (a ++ b) = _ from toNat_append2 a b]
  omega

/-- A capacity that the value field holds is reported as it is (44_id_selftest_power.md R231). -/
theorem idCapacity_toNat {w : BitVec 24} (h : (idExp w).toNat < 32) : (idCapacity w).toNat = 2 ^ (idExp w).toNat := by
  rw [idCapacity, if_pos h, BitVec.toNat_ofNat]
  exact Nat.mod_eq_of_lt (Nat.pow_lt_pow_right (by omega) h)

end Sys2Proof.Machine
end

