-- ==== Sys2Proof/Laws/Memory.lean ====
section
/-! SUPPORT. The laws of the array: what a read sees after a write, a program (40_bus_commands.md R147) and an erase
(R148), and that each keeps the canonical form and stays inside the array. -/

namespace Sys2Proof.Machine

@[simp] theorem Memory.read_nil (a : Nat) : Memory.read [] a = Config.erased := rfl

theorem Memory.read_cons (b : Nat) (v : Byte) (m : Memory) (a : Nat) :
    Memory.read ((b, v) :: m) a = if b = a then v else Memory.read m a := rfl

theorem Memory.wf_nil : Memory.wf [] := by simp [Memory.wf]

theorem Memory.wf_tail {c : Host.Cell} {m : Memory} (h : Memory.wf (c :: m)) : Memory.wf m :=
  ⟨(List.pairwise_cons.mp h.1).2, fun d hd => h.2 d (List.mem_cons_of_mem _ hd)⟩

/-- An address below every listed one is unlisted. -/
theorem Memory.read_below {m : Memory} {a : Nat} (h : ∀ c ∈ m, a < c.1) : m.read a = Config.erased := by
  induction m with
  | nil => rfl
  | cons c m ih =>
    obtain ⟨b, v⟩ := c
    have hb : a < b := h (b, v) (by simp)
    rw [Memory.read_cons, if_neg (by omega), ih fun d hd => h d (List.mem_cons_of_mem _ hd)]

/-- A write leaves every other address alone. -/
theorem Memory.read_write_other (m : Memory) {a x : Nat} (v : Byte) (h : a ≠ x) :
    (m.write a v).read x = m.read x := by
  induction m with
  | nil => by_cases hv : v = Config.erased <;> simp [Memory.write, hv, Memory.read_cons, h]
  | cons c m ih =>
    obtain ⟨b, w⟩ := c
    simp only [Memory.write]
    split_ifs <;> simp_all [Memory.read_cons]

/-- A read after a write to the same address gives the value written. -/
theorem Memory.read_write_same {m : Memory} (hm : m.wf) (a : Nat) (v : Byte) : (m.write a v).read a = v := by
  induction m with
  | nil => by_cases hv : v = Config.erased <;> simp [Memory.write, hv, Memory.read_cons]
  | cons c m ih =>
    obtain ⟨b, w⟩ := c
    have hrise : ∀ d ∈ m, b < d.1 := (List.pairwise_cons.mp hm.1).1
    simp only [Memory.write]
    split_ifs with h1 h2 h3 h4
    · subst h2
      exact Memory.read_below fun d hd => by
        rcases List.mem_cons.mp hd with rfl | hd
        · exact h1
        · exact h1.trans (hrise d hd)
    · simp [Memory.read_cons]
    · subst h3 h4
      exact Memory.read_below hrise
    · simp [Memory.read_cons]
    · rw [Memory.read_cons, if_neg h3, ih (Memory.wf_tail hm)]

theorem Memory.read_write {m : Memory} (hm : m.wf) (a x : Nat) (v : Byte) :
    (m.write a v).read x = if a = x then v else m.read x := by
  split_ifs with h
  · subst h; exact Memory.read_write_same hm a v
  · exact Memory.read_write_other m v h

/-- Every cell after a write is the written one or was listed before. -/
theorem Memory.mem_write {m : Memory} {a : Nat} {v : Byte} {c : Host.Cell} (h : c ∈ m.write a v) :
    (c = (a, v) ∧ v ≠ Config.erased) ∨ c ∈ m := by
  induction m with
  | nil =>
    by_cases hv : v = Config.erased <;> simp [Memory.write, hv] at h
    exact .inl ⟨h, hv⟩
  | cons d m ih =>
    obtain ⟨b, w⟩ := d
    simp only [Memory.write] at h
    split_ifs at h with h1 h2 h3 h4
    · exact .inr h
    · rcases List.mem_cons.mp h with rfl | h
      · exact .inl ⟨rfl, h2⟩
      · exact .inr h
    · exact .inr (List.mem_cons_of_mem _ h)
    · rcases List.mem_cons.mp h with rfl | h
      · exact .inl ⟨rfl, h4⟩
      · exact .inr (List.mem_cons_of_mem _ h)
    · rcases List.mem_cons.mp h with rfl | h
      · exact .inr (by simp)
      · exact (ih h).imp id (List.mem_cons_of_mem _)

/-- A write keeps the canonical form. -/
theorem Memory.write_wf {m : Memory} (hm : m.wf) (a : Nat) (v : Byte) : (m.write a v).wf := by
  induction m with
  | nil => by_cases hv : v = Config.erased <;> simp [Memory.write, hv, Memory.wf]
  | cons c m ih =>
    obtain ⟨b, w⟩ := c
    have hrise : ∀ d ∈ m, b < d.1 := (List.pairwise_cons.mp hm.1).1
    have htail := Memory.wf_tail hm
    have hw : w ≠ Config.erased := hm.2 (b, w) (by simp)
    simp only [Memory.write]
    split_ifs with h1 h2 h3 h4
    · exact hm
    · refine ⟨List.pairwise_cons.mpr ⟨fun d hd => ?_, hm.1⟩, fun d hd => ?_⟩
      · rcases List.mem_cons.mp hd with rfl | hd
        · exact h1
        · exact h1.trans (hrise d hd)
      · rcases List.mem_cons.mp hd with rfl | hd
        · exact h2
        · exact hm.2 d hd
    · exact htail
    · subst h3
      refine ⟨List.pairwise_cons.mpr ⟨hrise, htail.1⟩, fun d hd => ?_⟩
      rcases List.mem_cons.mp hd with rfl | hd
      · exact h4
      · exact htail.2 d hd
    · refine ⟨List.pairwise_cons.mpr ⟨fun d hd => ?_, (ih htail).1⟩, fun d hd => ?_⟩
      · rcases Memory.mem_write hd with ⟨rfl, -⟩ | hd
        · show b < a; omega
        · exact hrise d hd
      · rcases List.mem_cons.mp hd with rfl | hd
        · exact hw
        · exact (ih htail).2 d hd

/-- A program keeps the canonical form. -/
theorem Memory.program_wf {m : Memory} (hm : m.wf) (a : Nat) (d : List Byte) : (m.program a d).wf := by
  induction d generalizing m a with
  | nil => exact hm
  | cons b d ih => exact ih (Memory.write_wf hm a _) (a + 1)

/-- Programmed bytes lie in the programmed range, or were listed before. -/
theorem Memory.mem_program {m : Memory} {a : Nat} {d : List Byte} {c : Host.Cell} (h : c ∈ m.program a d) :
    (a ≤ c.1 ∧ c.1 < a + d.length) ∨ c ∈ m := by
  induction d generalizing m a with
  | nil => exact .inr h
  | cons b d ih =>
    rcases ih h with ⟨h1, h2⟩ | h
    · exact .inl ⟨by omega, by simp only [List.length_cons]; omega⟩
    · rcases Memory.mem_write h with ⟨rfl, -⟩ | h
      · exact .inl ⟨by simp, by simp⟩
      · exact .inr h

/-- The program law, byte by byte: `old & d` in the range, nothing else changed (R147). -/
theorem Memory.read_program {m : Memory} (hm : m.wf) (a : Nat) (d : List Byte) (x : Nat) :
    (m.program a d).read x =
      if a ≤ x ∧ x < a + d.length then m.read x &&& d.getD (x - a) Config.erased else m.read x := by
  induction d generalizing m a with
  | nil => simp [Memory.program]
  | cons b d ih =>
    rw [Memory.program, ih (Memory.write_wf hm a _), Memory.read_write hm]
    by_cases hx : a = x
    · subst hx; simp
    · rw [if_neg hx]
      by_cases h : a + 1 ≤ x ∧ x < a + 1 + d.length
      · obtain ⟨k, rfl⟩ : ∃ k, x = a + 1 + k := ⟨x - (a + 1), by omega⟩
        have h1 : a + 1 + k - (a + 1) = k := by omega
        have h2 : a + 1 + k - a = k + 1 := by omega
        rw [if_pos h, if_pos (by simp only [List.length_cons]; omega), h1, h2, List.getD_cons_succ]
      · rw [if_neg h, if_neg (by simp only [List.length_cons]; omega)]

/-- The erase law, byte by byte: `0xFF` in the range, nothing else changed (R148). -/
theorem Memory.read_eraseRange (m : Memory) (b n x : Nat) :
    (m.eraseRange b n).read x = if b ≤ x ∧ x < b + n then Config.erased else m.read x := by
  induction m with
  | nil => simp [Memory.eraseRange]
  | cons c m ih =>
    obtain ⟨y, v⟩ := c
    unfold Memory.eraseRange at ih ⊢
    by_cases hy : b ≤ y ∧ y < b + n
    · rw [List.filter_cons_of_neg (by simp [hy.1, hy.2]), ih, Memory.read_cons]
      by_cases hx : y = x
      · subst hx; simp [hy]
      · simp [hx]
    · rw [List.filter_cons_of_pos (by simp only [Bool.not_eq_true', Bool.and_eq_false_iff, decide_eq_false_iff_not]; omega),
        Memory.read_cons, Memory.read_cons, ih]
      by_cases hx : y = x
      · subst hx; simp [hy]
      · simp [hx]

theorem Memory.mem_eraseRange {m : Memory} {b n : Nat} {c : Host.Cell} (h : c ∈ m.eraseRange b n) : c ∈ m :=
  (List.mem_filter.mp h).1

/-- An erase keeps the canonical form. -/
theorem Memory.eraseRange_wf {m : Memory} (hm : m.wf) (b n : Nat) : (m.eraseRange b n).wf :=
  ⟨hm.1.sublist List.filter_sublist, fun _ hc => hm.2 _ (Memory.mem_eraseRange hc)⟩

/-- Every pending operation keeps the canonical form. -/
theorem Pending.apply_wf (p : Params) (op : Pending) {m : Memory} (hm : m.wf) : (op.apply p m).wf := by
  cases op with
  | none => exact hm
  | program a d => exact Memory.program_wf hm _ _
  | eraseSector b => exact Memory.eraseRange_wf hm _ _
  | eraseBlock b => exact Memory.eraseRange_wf hm _ _
  | eraseChip => exact Memory.eraseRange_wf hm _ _

@[simp] theorem Memory.readBytes_length (m : Memory) (a n : Nat) : (m.readBytes a n).length = n := by
  simp [Memory.readBytes]

theorem Memory.readBytes_getElem (m : Memory) (a n j : Nat) (h : j < (m.readBytes a n).length) :
    (m.readBytes a n)[j] = m.read (a + j) := by
  simp [Memory.readBytes]

/-- Two canonical memories that read alike are equal: equal arrays are equal data. -/
theorem Memory.ext_of_read {m n : Memory} (hm : m.wf) (hn : n.wf) (h : ∀ a, m.read a = n.read a) : m = n := by
  induction m generalizing n with
  | nil =>
    cases n with
    | nil => rfl
    | cons c n =>
      obtain ⟨b, v⟩ := c
      have := h b
      simp [Memory.read_cons] at this
      exact absurd this.symm (hn.2 (b, v) (by simp))
  | cons c m ih =>
    obtain ⟨b, v⟩ := c
    have hrm : ∀ d ∈ m, b < d.1 := (List.pairwise_cons.mp hm.1).1
    have hv : v ≠ Config.erased := hm.2 (b, v) (by simp)
    cases n with
    | nil =>
      have := h b
      simp [Memory.read_cons] at this
      exact absurd this hv
    | cons e n =>
      obtain ⟨b', v'⟩ := e
      have hrn : ∀ d ∈ n, b' < d.1 := (List.pairwise_cons.mp hn.1).1
      have hv' : v' ≠ Config.erased := hn.2 (b', v') (by simp)
      have hb : b = b' := by
        rcases Nat.lt_trichotomy b b' with hlt | heq | hlt
        · have := h b
          rw [Memory.read_cons, if_pos rfl, Memory.read_cons, if_neg (by omega),
            Memory.read_below fun d hd => hlt.trans (hrn d hd)] at this
          exact absurd this hv
        · exact heq
        · have := h b'
          rw [Memory.read_cons, if_neg (by omega), Memory.read_cons, if_pos rfl,
            Memory.read_below fun d hd => hlt.trans (hrm d hd)] at this
          exact absurd this.symm hv'
      subst hb
      have hvv : v = v' := by simpa [Memory.read_cons] using h b
      subst hvv
      congr 1
      refine ih (Memory.wf_tail hm) (Memory.wf_tail hn) fun a => ?_
      by_cases ha : b = a
      · subst ha; rw [Memory.read_below hrm, Memory.read_below hrn]
      · simpa [Memory.read_cons, ha] using h a

end Sys2Proof.Machine
end

