-- ==== Sys2Proof/Laws/Decode.lean ====
section
/-! SUPPORT. Small laws of the encoding tables: every opcode byte of a table of distinct bytes and every host
code reads back as its command, an address
reads back from its three bytes, and the frames of the pseudocode decode to the commands they name. -/

namespace Sys2Proof

theorem WireOp.mem_all (op : WireOp) : op ∈ WireOp.all := by cases op <;> decide

theorem WireOp.byte_of_ofByte? {t : Opcodes} {b : Byte} {op : WireOp} (h : WireOp.ofByte? t b = some op) :
    op.byte t = b := by
  simpa using List.find?_some h

/-- In a table of distinct bytes a byte names one command. -/
theorem WireOp.byte_injective {t : Opcodes} (ht : t.distinct = true) {a b : WireOp} (h : a.byte t = b.byte t) : a = b :=
  List.inj_on_of_nodup_map (show (WireOp.all.map (WireOp.byte t)).Nodup from of_decide_eq_true ht)
    a.mem_all b.mem_all h

theorem WireOp.byte_eq_iff {t : Opcodes} (ht : t.distinct = true) {a b : WireOp} : a.byte t = b.byte t ↔ a = b :=
  ⟨WireOp.byte_injective ht, fun h => by rw [h]⟩

/-- Every opcode byte of a table of distinct bytes reads back as its command. -/
theorem WireOp.ofByte?_byte {t : Opcodes} (ht : t.distinct = true) (op : WireOp) :
    WireOp.ofByte? t (op.byte t) = some op := by
  cases h : WireOp.ofByte? t (op.byte t) with
  | none => simpa using List.find?_eq_none.mp h op op.mem_all
  | some o => rw [WireOp.byte_injective ht (WireOp.byte_of_ofByte? h)]

@[simp] theorem HostOp.ofCode?_code (op : HostOp) : HostOp.ofCode? op.code = some op := by
  cases op <;> decide

theorem HostOp.code_of_ofCode? {c : BitVec 4} {op : HostOp} (h : HostOp.ofCode? c = some op) : op.code = c := by
  simpa using List.find?_some h

/-- An address assembled from its own bytes (30_encoding.md R97, R99). -/
@[simp] theorem addrOfBytes_addrBytes (a : Addr) :
    addrOfBytes (a.extractLsb' 16 8) (a.extractLsb' 8 8) (a.extractLsb' 0 8) = a := by
  unfold addrOfBytes
  ext i hi
  simp only [BitVec.getElem_append, BitVec.getElem_extractLsb']
  split_ifs with h1 h2
  · simp [BitVec.getLsbD_eq_getElem hi]
  · rw [show 8 + (i - 8) = i by omega, BitVec.getLsbD_eq_getElem hi]
  · rw [show 16 + (i - 8 - 8) = i by omega, BitVec.getLsbD_eq_getElem hi]

/-- The bytes of an assembled address. -/
theorem addrBytes_addrOfBytes (b1 b2 b3 : Byte) : addrBytes (addrOfBytes b1 b2 b3) = [b1, b2, b3] := by
  have e1 : (addrOfBytes b1 b2 b3).extractLsb' 16 8 = b1 := by
    ext i hi
    rw [BitVec.getElem_extractLsb']
    show BitVec.getLsbD (w := 8 + 8 + 8) (b1 ++ b2 ++ b3) (16 + i) = _
    rw [BitVec.getLsbD_append, BitVec.getLsbD_append, if_neg (by omega), if_neg (by omega),
      show 16 + i - 8 - 8 = i by omega, BitVec.getLsbD_eq_getElem hi]
  have e2 : (addrOfBytes b1 b2 b3).extractLsb' 8 8 = b2 := by
    ext i hi
    rw [BitVec.getElem_extractLsb']
    show BitVec.getLsbD (w := 8 + 8 + 8) (b1 ++ b2 ++ b3) (8 + i) = _
    rw [BitVec.getLsbD_append, BitVec.getLsbD_append, if_neg (by omega), if_pos (by omega),
      show 8 + i - 8 = i by omega, BitVec.getLsbD_eq_getElem hi]
  have e3 : (addrOfBytes b1 b2 b3).extractLsb' 0 8 = b3 := by
    ext i hi
    rw [BitVec.getElem_extractLsb']
    show BitVec.getLsbD (w := 8 + 8 + 8) (b1 ++ b2 ++ b3) (0 + i) = _
    rw [BitVec.getLsbD_append, if_pos (by omega), Nat.zero_add, BitVec.getLsbD_eq_getElem hi]
  rw [addrBytes, e1, e2, e3]

@[simp] theorem decodeAddr_addrBytes (a : Addr) (out : List Byte) (k : Addr → List Byte → Option Instr) :
    decodeAddr (addrBytes a ++ out) k = k a out := by
  simp [decodeAddr, addrBytes]

@[simp] theorem decodeAddr_addrBytes_nil (a : Addr) (k : Addr → List Byte → Option Instr) :
    decodeAddr (addrBytes a) k = k a [] := by
  simp [decodeAddr, addrBytes]

section
variable {t : Opcodes} (ht : t.distinct = true)
include ht

theorem decodeFrame_of_operands {op : WireOp} {rest : List Byte} {nin : Nat} {i : Instr}
    (h : decodeOperands op rest nin = some i) : decodeFrame t ⟨op.byte t, rest, nin⟩ = .ok i := by
  simp [decodeFrame, h, WireOp.ofByte?_byte ht]

theorem decode_rawFrame_addr {op : WireOp} {a : Addr} {out : List Byte} {nin : Nat} {i : Instr}
    (h : decodeOperands op (addrBytes a ++ out) nin = some i) :
    decodeFrame t (rawFrame t op (some a) out nin) = .ok i :=
  decodeFrame_of_operands ht h

theorem decode_wren : decodeFrame t (rawFrame t .wren none [] 0) = .ok .wren := decodeFrame_of_operands ht rfl

theorem decode_rdsr (n : Nat) : decodeFrame t (rawFrame t .rdsr none [] n) = .ok (.rdsr n) :=
  decodeFrame_of_operands ht rfl

theorem decode_rpd : decodeFrame t (rawFrame t .rpd none [] 0) = .ok .rpd := decodeFrame_of_operands ht rfl

theorem decode_pd : decodeFrame t (rawFrame t .pd none [] 0) = .ok .pd := decodeFrame_of_operands ht rfl

theorem decode_ce : decodeFrame t (rawFrame t .ce none [] 0) = .ok .ce := decodeFrame_of_operands ht rfl

theorem decode_jedec (n : Nat) : decodeFrame t (rawFrame t .jedec none [] n) = .ok (.jedec n) :=
  decodeFrame_of_operands ht rfl

theorem decode_rdid (a : Addr) (n : Nat) : decodeFrame t (rawFrame t .rdid (some a) [] n) = .ok (.rdid a n) :=
  decode_rawFrame_addr ht (by simp [decodeOperands])

theorem decode_read (a : Addr) (n : Nat) : decodeFrame t (rawFrame t .read (some a) [] n) = .ok (.wireRead a n) :=
  decode_rawFrame_addr ht (by simp [decodeOperands])

theorem decode_se (a : Addr) : decodeFrame t (rawFrame t .se (some a) [] 0) = .ok (.se a) :=
  decode_rawFrame_addr ht (by simp [decodeOperands, decodeBare])

theorem decode_be (a : Addr) : decodeFrame t (rawFrame t .be (some a) [] 0) = .ok (.be a) :=
  decode_rawFrame_addr ht (by simp [decodeOperands, decodeBare])

theorem decode_pp (a : Addr) (out : List Byte) : decodeFrame t (rawFrame t .pp (some a) out 0) = .ok (.pp a out) :=
  decode_rawFrame_addr ht (by simp [decodeOperands])

end

/-- A request's words decode to its instruction (30_encoding.md R106, R115). -/
@[simp] theorem decodeRequest_requestWord (op : HostOp) (x : HostArgs) :
    decodeRequest (requestWord op x) = .ok (op.instr x) := by
  have h1 : ∀ op : HostOp, cmdReserved ((0 : BitVec 28) ++ op.code) = 0 := by intro op; cases op <;> decide
  have h2 : ∀ op : HostOp, cmdOp ((0 : BitVec 28) ++ op.code) = op.code := by intro op; cases op <;> decide
  simp only [decodeRequest, requestWord, h1, h2, HostOp.ofCode?_code, if_true]

end Sys2Proof
end

