-- ==== Sys2Proof/Laws/State.lean ====
section
/-! SUPPORT. What each state update leaves in each field: one lemma per field per update, so that no later proof
unfolds a record update. -/

namespace Sys2Proof.Machine

/-! ### A recorded fault (`State.raise`) -/

@[simp] theorem State.raise_params (f : FaultRecord) (s : State) : (s.raise f).params = s.params := rfl
@[simp] theorem State.raise_hostQueue (f : FaultRecord) (s : State) : (s.raise f).hostQueue = s.hostQueue := rfl
@[simp] theorem State.raise_response (f : FaultRecord) (s : State) : (s.raise f).response = s.response := rfl
@[simp] theorem State.raise_ctlState (f : FaultRecord) (s : State) : (s.raise f).ctlState = s.ctlState := rfl
@[simp] theorem State.raise_req (f : FaultRecord) (s : State) : (s.raise f).req = s.req := rfl
@[simp] theorem State.raise_cont (f : FaultRecord) (s : State) : (s.raise f).cont = s.cont := rfl
@[simp] theorem State.raise_curAddr (f : FaultRecord) (s : State) : (s.raise f).curAddr = s.curAddr := rfl
@[simp] theorem State.raise_remLen (f : FaultRecord) (s : State) : (s.raise f).remLen = s.remLen := rfl
@[simp] theorem State.raise_bufOff (f : FaultRecord) (s : State) : (s.raise f).bufOff = s.bufOff := rfl
@[simp] theorem State.raise_pgOff (f : FaultRecord) (s : State) : (s.raise f).pgOff = s.pgOff := rfl
@[simp] theorem State.raise_secBase (f : FaultRecord) (s : State) : (s.raise f).secBase = s.secBase := rfl
@[simp] theorem State.raise_off (f : FaultRecord) (s : State) : (s.raise f).off = s.off := rfl
@[simp] theorem State.raise_chunk (f : FaultRecord) (s : State) : (s.raise f).chunk = s.chunk := rfl
@[simp] theorem State.raise_needErase (f : FaultRecord) (s : State) : (s.raise f).needErase = s.needErase := rfl
@[simp] theorem State.raise_pollCount (f : FaultRecord) (s : State) : (s.raise f).pollCount = s.pollCount := rfl
@[simp] theorem State.raise_idWord (f : FaultRecord) (s : State) : (s.raise f).idWord = s.idWord := rfl
@[simp] theorem State.raise_scratch (f : FaultRecord) (s : State) : (s.raise f).scratch = s.scratch := rfl
@[simp] theorem State.raise_rx (f : FaultRecord) (s : State) : (s.raise f).rx = s.rx := rfl
@[simp] theorem State.raise_mem (f : FaultRecord) (s : State) : (s.raise f).mem = s.mem := rfl
@[simp] theorem State.raise_busy (f : FaultRecord) (s : State) : (s.raise f).busy = s.busy := rfl
@[simp] theorem State.raise_wel (f : FaultRecord) (s : State) : (s.raise f).wel = s.wel := rfl
@[simp] theorem State.raise_asleep (f : FaultRecord) (s : State) : (s.raise f).asleep = s.asleep := rfl
@[simp] theorem State.raise_pending (f : FaultRecord) (s : State) : (s.raise f).pending = s.pending := rfl
@[simp] theorem State.raise_faults (f : FaultRecord) (s : State) : (s.raise f).faults = if f ∈ s.faults then s.faults else s.faults ++ [f] := rfl
@[simp] theorem State.raise_refused (f : FaultRecord) (s : State) : (s.raise f).refused = s.refused := rfl
@[simp] theorem State.raise_trace (f : FaultRecord) (s : State) : (s.raise f).trace = s.trace := rfl
@[simp] theorem State.raise_schedule (f : FaultRecord) (s : State) : (s.raise f).schedule = s.schedule := rfl
@[simp] theorem State.raise_delay (f : FaultRecord) (s : State) : (s.raise f).delay = s.delay := rfl
@[simp] theorem State.raise_draws (f : FaultRecord) (s : State) : (s.raise f).draws = s.draws := rfl

/-! ### A refusal (`State.refuse`) -/

@[simp] theorem State.refuse_params (opc : Byte) (s : State) : (s.refuse opc).params = s.params := rfl
@[simp] theorem State.refuse_hostQueue (opc : Byte) (s : State) : (s.refuse opc).hostQueue = s.hostQueue := rfl
@[simp] theorem State.refuse_response (opc : Byte) (s : State) : (s.refuse opc).response = s.response := rfl
@[simp] theorem State.refuse_ctlState (opc : Byte) (s : State) : (s.refuse opc).ctlState = s.ctlState := rfl
@[simp] theorem State.refuse_req (opc : Byte) (s : State) : (s.refuse opc).req = s.req := rfl
@[simp] theorem State.refuse_cont (opc : Byte) (s : State) : (s.refuse opc).cont = s.cont := rfl
@[simp] theorem State.refuse_curAddr (opc : Byte) (s : State) : (s.refuse opc).curAddr = s.curAddr := rfl
@[simp] theorem State.refuse_remLen (opc : Byte) (s : State) : (s.refuse opc).remLen = s.remLen := rfl
@[simp] theorem State.refuse_bufOff (opc : Byte) (s : State) : (s.refuse opc).bufOff = s.bufOff := rfl
@[simp] theorem State.refuse_pgOff (opc : Byte) (s : State) : (s.refuse opc).pgOff = s.pgOff := rfl
@[simp] theorem State.refuse_secBase (opc : Byte) (s : State) : (s.refuse opc).secBase = s.secBase := rfl
@[simp] theorem State.refuse_off (opc : Byte) (s : State) : (s.refuse opc).off = s.off := rfl
@[simp] theorem State.refuse_chunk (opc : Byte) (s : State) : (s.refuse opc).chunk = s.chunk := rfl
@[simp] theorem State.refuse_needErase (opc : Byte) (s : State) : (s.refuse opc).needErase = s.needErase := rfl
@[simp] theorem State.refuse_pollCount (opc : Byte) (s : State) : (s.refuse opc).pollCount = s.pollCount := rfl
@[simp] theorem State.refuse_idWord (opc : Byte) (s : State) : (s.refuse opc).idWord = s.idWord := rfl
@[simp] theorem State.refuse_scratch (opc : Byte) (s : State) : (s.refuse opc).scratch = s.scratch := rfl
@[simp] theorem State.refuse_rx (opc : Byte) (s : State) : (s.refuse opc).rx = s.rx := rfl
@[simp] theorem State.refuse_mem (opc : Byte) (s : State) : (s.refuse opc).mem = s.mem := rfl
@[simp] theorem State.refuse_busy (opc : Byte) (s : State) : (s.refuse opc).busy = s.busy := rfl
@[simp] theorem State.refuse_wel (opc : Byte) (s : State) : (s.refuse opc).wel = s.wel := rfl
@[simp] theorem State.refuse_asleep (opc : Byte) (s : State) : (s.refuse opc).asleep = s.asleep := rfl
@[simp] theorem State.refuse_pending (opc : Byte) (s : State) : (s.refuse opc).pending = s.pending := rfl
@[simp] theorem State.refuse_faults (opc : Byte) (s : State) : (s.refuse opc).faults = if .unmodelled opc ∈ s.faults then s.faults else s.faults ++ [.unmodelled opc] := rfl
@[simp] theorem State.refuse_refused (opc : Byte) (s : State) : (s.refuse opc).refused = true := rfl
@[simp] theorem State.refuse_trace (opc : Byte) (s : State) : (s.refuse opc).trace = s.trace := rfl
@[simp] theorem State.refuse_schedule (opc : Byte) (s : State) : (s.refuse opc).schedule = s.schedule := rfl
@[simp] theorem State.refuse_delay (opc : Byte) (s : State) : (s.refuse opc).delay = s.delay := rfl
@[simp] theorem State.refuse_draws (opc : Byte) (s : State) : (s.refuse opc).draws = s.draws := rfl

/-! ### A frame in the trace (`State.logFrame`) -/

@[simp] theorem State.logFrame_params (opc : Byte) (addr : Option Addr) (out inn : List Byte) (s : State) : (s.logFrame opc addr out inn).params = s.params := rfl
@[simp] theorem State.logFrame_hostQueue (opc : Byte) (addr : Option Addr) (out inn : List Byte) (s : State) : (s.logFrame opc addr out inn).hostQueue = s.hostQueue := rfl
@[simp] theorem State.logFrame_response (opc : Byte) (addr : Option Addr) (out inn : List Byte) (s : State) : (s.logFrame opc addr out inn).response = s.response := rfl
@[simp] theorem State.logFrame_ctlState (opc : Byte) (addr : Option Addr) (out inn : List Byte) (s : State) : (s.logFrame opc addr out inn).ctlState = s.ctlState := rfl
@[simp] theorem State.logFrame_req (opc : Byte) (addr : Option Addr) (out inn : List Byte) (s : State) : (s.logFrame opc addr out inn).req = s.req := rfl
@[simp] theorem State.logFrame_cont (opc : Byte) (addr : Option Addr) (out inn : List Byte) (s : State) : (s.logFrame opc addr out inn).cont = s.cont := rfl
@[simp] theorem State.logFrame_curAddr (opc : Byte) (addr : Option Addr) (out inn : List Byte) (s : State) : (s.logFrame opc addr out inn).curAddr = s.curAddr := rfl
@[simp] theorem State.logFrame_remLen (opc : Byte) (addr : Option Addr) (out inn : List Byte) (s : State) : (s.logFrame opc addr out inn).remLen = s.remLen := rfl
@[simp] theorem State.logFrame_bufOff (opc : Byte) (addr : Option Addr) (out inn : List Byte) (s : State) : (s.logFrame opc addr out inn).bufOff = s.bufOff := rfl
@[simp] theorem State.logFrame_pgOff (opc : Byte) (addr : Option Addr) (out inn : List Byte) (s : State) : (s.logFrame opc addr out inn).pgOff = s.pgOff := rfl
@[simp] theorem State.logFrame_secBase (opc : Byte) (addr : Option Addr) (out inn : List Byte) (s : State) : (s.logFrame opc addr out inn).secBase = s.secBase := rfl
@[simp] theorem State.logFrame_off (opc : Byte) (addr : Option Addr) (out inn : List Byte) (s : State) : (s.logFrame opc addr out inn).off = s.off := rfl
@[simp] theorem State.logFrame_chunk (opc : Byte) (addr : Option Addr) (out inn : List Byte) (s : State) : (s.logFrame opc addr out inn).chunk = s.chunk := rfl
@[simp] theorem State.logFrame_needErase (opc : Byte) (addr : Option Addr) (out inn : List Byte) (s : State) : (s.logFrame opc addr out inn).needErase = s.needErase := rfl
@[simp] theorem State.logFrame_pollCount (opc : Byte) (addr : Option Addr) (out inn : List Byte) (s : State) : (s.logFrame opc addr out inn).pollCount = s.pollCount := rfl
@[simp] theorem State.logFrame_idWord (opc : Byte) (addr : Option Addr) (out inn : List Byte) (s : State) : (s.logFrame opc addr out inn).idWord = s.idWord := rfl
@[simp] theorem State.logFrame_scratch (opc : Byte) (addr : Option Addr) (out inn : List Byte) (s : State) : (s.logFrame opc addr out inn).scratch = s.scratch := rfl
@[simp] theorem State.logFrame_rx (opc : Byte) (addr : Option Addr) (out inn : List Byte) (s : State) : (s.logFrame opc addr out inn).rx = inn := rfl
@[simp] theorem State.logFrame_mem (opc : Byte) (addr : Option Addr) (out inn : List Byte) (s : State) : (s.logFrame opc addr out inn).mem = s.mem := rfl
@[simp] theorem State.logFrame_busy (opc : Byte) (addr : Option Addr) (out inn : List Byte) (s : State) : (s.logFrame opc addr out inn).busy = s.busy := rfl
@[simp] theorem State.logFrame_wel (opc : Byte) (addr : Option Addr) (out inn : List Byte) (s : State) : (s.logFrame opc addr out inn).wel = s.wel := rfl
@[simp] theorem State.logFrame_asleep (opc : Byte) (addr : Option Addr) (out inn : List Byte) (s : State) : (s.logFrame opc addr out inn).asleep = s.asleep := rfl
@[simp] theorem State.logFrame_pending (opc : Byte) (addr : Option Addr) (out inn : List Byte) (s : State) : (s.logFrame opc addr out inn).pending = s.pending := rfl
@[simp] theorem State.logFrame_faults (opc : Byte) (addr : Option Addr) (out inn : List Byte) (s : State) : (s.logFrame opc addr out inn).faults = s.faults := rfl
@[simp] theorem State.logFrame_refused (opc : Byte) (addr : Option Addr) (out inn : List Byte) (s : State) : (s.logFrame opc addr out inn).refused = s.refused := rfl
@[simp] theorem State.logFrame_trace (opc : Byte) (addr : Option Addr) (out inn : List Byte) (s : State) : (s.logFrame opc addr out inn).trace = s.trace ++ [.frame opc addr out inn] := rfl
@[simp] theorem State.logFrame_schedule (opc : Byte) (addr : Option Addr) (out inn : List Byte) (s : State) : (s.logFrame opc addr out inn).schedule = s.schedule := rfl
@[simp] theorem State.logFrame_delay (opc : Byte) (addr : Option Addr) (out inn : List Byte) (s : State) : (s.logFrame opc addr out inn).delay = s.delay := rfl
@[simp] theorem State.logFrame_draws (opc : Byte) (addr : Option Addr) (out inn : List Byte) (s : State) : (s.logFrame opc addr out inn).draws = s.draws := rfl

/-! ### Draws made (`State.afterDraws`) -/

@[simp] theorem State.afterDraws_params (n : Nat) (s : State) : (s.afterDraws n).params = s.params := rfl
@[simp] theorem State.afterDraws_hostQueue (n : Nat) (s : State) : (s.afterDraws n).hostQueue = s.hostQueue := rfl
@[simp] theorem State.afterDraws_response (n : Nat) (s : State) : (s.afterDraws n).response = s.response := rfl
@[simp] theorem State.afterDraws_ctlState (n : Nat) (s : State) : (s.afterDraws n).ctlState = s.ctlState := rfl
@[simp] theorem State.afterDraws_req (n : Nat) (s : State) : (s.afterDraws n).req = s.req := rfl
@[simp] theorem State.afterDraws_cont (n : Nat) (s : State) : (s.afterDraws n).cont = s.cont := rfl
@[simp] theorem State.afterDraws_curAddr (n : Nat) (s : State) : (s.afterDraws n).curAddr = s.curAddr := rfl
@[simp] theorem State.afterDraws_remLen (n : Nat) (s : State) : (s.afterDraws n).remLen = s.remLen := rfl
@[simp] theorem State.afterDraws_bufOff (n : Nat) (s : State) : (s.afterDraws n).bufOff = s.bufOff := rfl
@[simp] theorem State.afterDraws_pgOff (n : Nat) (s : State) : (s.afterDraws n).pgOff = s.pgOff := rfl
@[simp] theorem State.afterDraws_secBase (n : Nat) (s : State) : (s.afterDraws n).secBase = s.secBase := rfl
@[simp] theorem State.afterDraws_off (n : Nat) (s : State) : (s.afterDraws n).off = s.off := rfl
@[simp] theorem State.afterDraws_chunk (n : Nat) (s : State) : (s.afterDraws n).chunk = s.chunk := rfl
@[simp] theorem State.afterDraws_needErase (n : Nat) (s : State) : (s.afterDraws n).needErase = s.needErase := rfl
@[simp] theorem State.afterDraws_pollCount (n : Nat) (s : State) : (s.afterDraws n).pollCount = s.pollCount := rfl
@[simp] theorem State.afterDraws_idWord (n : Nat) (s : State) : (s.afterDraws n).idWord = s.idWord := rfl
@[simp] theorem State.afterDraws_scratch (n : Nat) (s : State) : (s.afterDraws n).scratch = s.scratch := rfl
@[simp] theorem State.afterDraws_rx (n : Nat) (s : State) : (s.afterDraws n).rx = s.rx := rfl
@[simp] theorem State.afterDraws_mem (n : Nat) (s : State) : (s.afterDraws n).mem = s.mem := rfl
@[simp] theorem State.afterDraws_busy (n : Nat) (s : State) : (s.afterDraws n).busy = s.busy := rfl
@[simp] theorem State.afterDraws_wel (n : Nat) (s : State) : (s.afterDraws n).wel = s.wel := rfl
@[simp] theorem State.afterDraws_asleep (n : Nat) (s : State) : (s.afterDraws n).asleep = s.asleep := rfl
@[simp] theorem State.afterDraws_pending (n : Nat) (s : State) : (s.afterDraws n).pending = s.pending := rfl
@[simp] theorem State.afterDraws_faults (n : Nat) (s : State) : (s.afterDraws n).faults = s.faults := rfl
@[simp] theorem State.afterDraws_refused (n : Nat) (s : State) : (s.afterDraws n).refused = s.refused := rfl
@[simp] theorem State.afterDraws_trace (n : Nat) (s : State) : (s.afterDraws n).trace = s.trace := rfl
@[simp] theorem State.afterDraws_schedule (n : Nat) (s : State) : (s.afterDraws n).schedule = s.schedule := rfl
@[simp] theorem State.afterDraws_delay (n : Nat) (s : State) : (s.afterDraws n).delay = s.delay := rfl
@[simp] theorem State.afterDraws_draws (n : Nat) (s : State) : (s.afterDraws n).draws = s.draws + n := rfl

/-! ### The start of a program or erase (`State.startOp`) -/

@[simp] theorem State.startOp_params (p : Pending) (s : State) : (s.startOp p).params = s.params := by cases h : s.wel <;> simp [State.startOp, h]
@[simp] theorem State.startOp_hostQueue (p : Pending) (s : State) : (s.startOp p).hostQueue = s.hostQueue := by cases h : s.wel <;> simp [State.startOp, h]
@[simp] theorem State.startOp_response (p : Pending) (s : State) : (s.startOp p).response = s.response := by cases h : s.wel <;> simp [State.startOp, h]
@[simp] theorem State.startOp_ctlState (p : Pending) (s : State) : (s.startOp p).ctlState = s.ctlState := by cases h : s.wel <;> simp [State.startOp, h]
@[simp] theorem State.startOp_req (p : Pending) (s : State) : (s.startOp p).req = s.req := by cases h : s.wel <;> simp [State.startOp, h]
@[simp] theorem State.startOp_cont (p : Pending) (s : State) : (s.startOp p).cont = s.cont := by cases h : s.wel <;> simp [State.startOp, h]
@[simp] theorem State.startOp_curAddr (p : Pending) (s : State) : (s.startOp p).curAddr = s.curAddr := by cases h : s.wel <;> simp [State.startOp, h]
@[simp] theorem State.startOp_remLen (p : Pending) (s : State) : (s.startOp p).remLen = s.remLen := by cases h : s.wel <;> simp [State.startOp, h]
@[simp] theorem State.startOp_bufOff (p : Pending) (s : State) : (s.startOp p).bufOff = s.bufOff := by cases h : s.wel <;> simp [State.startOp, h]
@[simp] theorem State.startOp_pgOff (p : Pending) (s : State) : (s.startOp p).pgOff = s.pgOff := by cases h : s.wel <;> simp [State.startOp, h]
@[simp] theorem State.startOp_secBase (p : Pending) (s : State) : (s.startOp p).secBase = s.secBase := by cases h : s.wel <;> simp [State.startOp, h]
@[simp] theorem State.startOp_off (p : Pending) (s : State) : (s.startOp p).off = s.off := by cases h : s.wel <;> simp [State.startOp, h]
@[simp] theorem State.startOp_chunk (p : Pending) (s : State) : (s.startOp p).chunk = s.chunk := by cases h : s.wel <;> simp [State.startOp, h]
@[simp] theorem State.startOp_needErase (p : Pending) (s : State) : (s.startOp p).needErase = s.needErase := by cases h : s.wel <;> simp [State.startOp, h]
@[simp] theorem State.startOp_pollCount (p : Pending) (s : State) : (s.startOp p).pollCount = s.pollCount := by cases h : s.wel <;> simp [State.startOp, h]
@[simp] theorem State.startOp_idWord (p : Pending) (s : State) : (s.startOp p).idWord = s.idWord := by cases h : s.wel <;> simp [State.startOp, h]
@[simp] theorem State.startOp_scratch (p : Pending) (s : State) : (s.startOp p).scratch = s.scratch := by cases h : s.wel <;> simp [State.startOp, h]
@[simp] theorem State.startOp_rx (p : Pending) (s : State) : (s.startOp p).rx = s.rx := by cases h : s.wel <;> simp [State.startOp, h]
@[simp] theorem State.startOp_mem (p : Pending) (s : State) : (s.startOp p).mem = s.mem := by cases h : s.wel <;> simp [State.startOp, h]
@[simp] theorem State.startOp_busy (p : Pending) (s : State) : (s.startOp p).busy = (s.wel || s.busy) := by cases h : s.wel <;> simp [State.startOp, h]
@[simp] theorem State.startOp_wel (p : Pending) (s : State) : (s.startOp p).wel = s.wel := by cases h : s.wel <;> simp [State.startOp, h]
@[simp] theorem State.startOp_asleep (p : Pending) (s : State) : (s.startOp p).asleep = s.asleep := by cases h : s.wel <;> simp [State.startOp, h]
@[simp] theorem State.startOp_pending (p : Pending) (s : State) : (s.startOp p).pending = if s.wel then p else s.pending := by cases h : s.wel <;> simp [State.startOp, h]
@[simp] theorem State.startOp_faults (p : Pending) (s : State) : (s.startOp p).faults = s.faults := by cases h : s.wel <;> simp [State.startOp, h]
@[simp] theorem State.startOp_refused (p : Pending) (s : State) : (s.startOp p).refused = s.refused := by cases h : s.wel <;> simp [State.startOp, h]
@[simp] theorem State.startOp_trace (p : Pending) (s : State) : (s.startOp p).trace = s.trace := by cases h : s.wel <;> simp [State.startOp, h]
@[simp] theorem State.startOp_schedule (p : Pending) (s : State) : (s.startOp p).schedule = s.schedule := by cases h : s.wel <;> simp [State.startOp, h]
@[simp] theorem State.startOp_delay (p : Pending) (s : State) : (s.startOp p).delay = s.delay := by cases h : s.wel <;> simp [State.startOp, h]
@[simp] theorem State.startOp_draws (p : Pending) (s : State) : (s.startOp p).draws = s.draws := by cases h : s.wel <;> simp [State.startOp, h]

/-! ### The completion step (`State.complete`) -/

@[simp] theorem State.complete_params (s : State) : (s.complete).params = s.params := rfl
@[simp] theorem State.complete_hostQueue (s : State) : (s.complete).hostQueue = s.hostQueue := rfl
@[simp] theorem State.complete_response (s : State) : (s.complete).response = s.response := rfl
@[simp] theorem State.complete_ctlState (s : State) : (s.complete).ctlState = s.ctlState := rfl
@[simp] theorem State.complete_req (s : State) : (s.complete).req = s.req := rfl
@[simp] theorem State.complete_cont (s : State) : (s.complete).cont = s.cont := rfl
@[simp] theorem State.complete_curAddr (s : State) : (s.complete).curAddr = s.curAddr := rfl
@[simp] theorem State.complete_remLen (s : State) : (s.complete).remLen = s.remLen := rfl
@[simp] theorem State.complete_bufOff (s : State) : (s.complete).bufOff = s.bufOff := rfl
@[simp] theorem State.complete_pgOff (s : State) : (s.complete).pgOff = s.pgOff := rfl
@[simp] theorem State.complete_secBase (s : State) : (s.complete).secBase = s.secBase := rfl
@[simp] theorem State.complete_off (s : State) : (s.complete).off = s.off := rfl
@[simp] theorem State.complete_chunk (s : State) : (s.complete).chunk = s.chunk := rfl
@[simp] theorem State.complete_needErase (s : State) : (s.complete).needErase = s.needErase := rfl
@[simp] theorem State.complete_pollCount (s : State) : (s.complete).pollCount = s.pollCount := rfl
@[simp] theorem State.complete_idWord (s : State) : (s.complete).idWord = s.idWord := rfl
@[simp] theorem State.complete_scratch (s : State) : (s.complete).scratch = s.scratch := rfl
@[simp] theorem State.complete_rx (s : State) : (s.complete).rx = s.rx := rfl
@[simp] theorem State.complete_mem (s : State) : (s.complete).mem = s.pending.apply s.params s.mem := rfl
@[simp] theorem State.complete_busy (s : State) : (s.complete).busy = false := rfl
@[simp] theorem State.complete_wel (s : State) : (s.complete).wel = false := rfl
@[simp] theorem State.complete_asleep (s : State) : (s.complete).asleep = s.asleep := rfl
@[simp] theorem State.complete_pending (s : State) : (s.complete).pending = .none := rfl
@[simp] theorem State.complete_faults (s : State) : (s.complete).faults = s.faults := rfl
@[simp] theorem State.complete_refused (s : State) : (s.complete).refused = s.refused := rfl
@[simp] theorem State.complete_trace (s : State) : (s.complete).trace = s.trace ++ [.complete] := rfl
@[simp] theorem State.complete_schedule (s : State) : (s.complete).schedule = s.schedule := rfl
@[simp] theorem State.complete_delay (s : State) : (s.complete).delay = Config.drawDelay s.draws := rfl
@[simp] theorem State.complete_draws (s : State) : (s.complete).draws = s.draws + 1 := rfl

/-! ### Latching a request (`State.latch`) -/

@[simp] theorem State.latch_params (r : Request) (code : List Micro) (s : State) : (s.latch r code).params = s.params := rfl
@[simp] theorem State.latch_hostQueue (r : Request) (code : List Micro) (s : State) : (s.latch r code).hostQueue = s.hostQueue := rfl
@[simp] theorem State.latch_response (r : Request) (code : List Micro) (s : State) : (s.latch r code).response = none := rfl
@[simp] theorem State.latch_ctlState (r : Request) (code : List Micro) (s : State) : (s.latch r code).ctlState = .running := rfl
@[simp] theorem State.latch_req (r : Request) (code : List Micro) (s : State) : (s.latch r code).req = r := rfl
@[simp] theorem State.latch_cont (r : Request) (code : List Micro) (s : State) : (s.latch r code).cont = code := rfl
@[simp] theorem State.latch_curAddr (r : Request) (code : List Micro) (s : State) : (s.latch r code).curAddr = s.curAddr := rfl
@[simp] theorem State.latch_remLen (r : Request) (code : List Micro) (s : State) : (s.latch r code).remLen = s.remLen := rfl
@[simp] theorem State.latch_bufOff (r : Request) (code : List Micro) (s : State) : (s.latch r code).bufOff = s.bufOff := rfl
@[simp] theorem State.latch_pgOff (r : Request) (code : List Micro) (s : State) : (s.latch r code).pgOff = s.pgOff := rfl
@[simp] theorem State.latch_secBase (r : Request) (code : List Micro) (s : State) : (s.latch r code).secBase = s.secBase := rfl
@[simp] theorem State.latch_off (r : Request) (code : List Micro) (s : State) : (s.latch r code).off = s.off := rfl
@[simp] theorem State.latch_chunk (r : Request) (code : List Micro) (s : State) : (s.latch r code).chunk = s.chunk := rfl
@[simp] theorem State.latch_needErase (r : Request) (code : List Micro) (s : State) : (s.latch r code).needErase = s.needErase := rfl
@[simp] theorem State.latch_pollCount (r : Request) (code : List Micro) (s : State) : (s.latch r code).pollCount = s.pollCount := rfl
@[simp] theorem State.latch_idWord (r : Request) (code : List Micro) (s : State) : (s.latch r code).idWord = s.idWord := rfl
@[simp] theorem State.latch_scratch (r : Request) (code : List Micro) (s : State) : (s.latch r code).scratch = State.blankScratch := rfl
@[simp] theorem State.latch_rx (r : Request) (code : List Micro) (s : State) : (s.latch r code).rx = s.rx := rfl
@[simp] theorem State.latch_mem (r : Request) (code : List Micro) (s : State) : (s.latch r code).mem = s.mem := rfl
@[simp] theorem State.latch_busy (r : Request) (code : List Micro) (s : State) : (s.latch r code).busy = s.busy := rfl
@[simp] theorem State.latch_wel (r : Request) (code : List Micro) (s : State) : (s.latch r code).wel = s.wel := rfl
@[simp] theorem State.latch_asleep (r : Request) (code : List Micro) (s : State) : (s.latch r code).asleep = s.asleep := rfl
@[simp] theorem State.latch_pending (r : Request) (code : List Micro) (s : State) : (s.latch r code).pending = s.pending := rfl
@[simp] theorem State.latch_faults (r : Request) (code : List Micro) (s : State) : (s.latch r code).faults = s.faults := rfl
@[simp] theorem State.latch_refused (r : Request) (code : List Micro) (s : State) : (s.latch r code).refused = s.refused := rfl
@[simp] theorem State.latch_trace (r : Request) (code : List Micro) (s : State) : (s.latch r code).trace = s.trace := rfl
@[simp] theorem State.latch_schedule (r : Request) (code : List Micro) (s : State) : (s.latch r code).schedule = s.schedule := rfl
@[simp] theorem State.latch_delay (r : Request) (code : List Micro) (s : State) : (s.latch r code).delay = s.delay := rfl
@[simp] theorem State.latch_draws (r : Request) (code : List Micro) (s : State) : (s.latch r code).draws = s.draws := rfl

/-! ### The response (`State.respond`) -/

@[simp] theorem State.respond_params (r : Response) (s : State) : (s.respond r).params = s.params := rfl
@[simp] theorem State.respond_hostQueue (r : Response) (s : State) : (s.respond r).hostQueue = s.hostQueue := rfl
@[simp] theorem State.respond_response (r : Response) (s : State) : (s.respond r).response = some r := rfl
@[simp] theorem State.respond_ctlState (r : Response) (s : State) : (s.respond r).ctlState = .idle := rfl
@[simp] theorem State.respond_req (r : Response) (s : State) : (s.respond r).req = s.req := rfl
@[simp] theorem State.respond_cont (r : Response) (s : State) : (s.respond r).cont = [] := rfl
@[simp] theorem State.respond_curAddr (r : Response) (s : State) : (s.respond r).curAddr = s.curAddr := rfl
@[simp] theorem State.respond_remLen (r : Response) (s : State) : (s.respond r).remLen = s.remLen := rfl
@[simp] theorem State.respond_bufOff (r : Response) (s : State) : (s.respond r).bufOff = s.bufOff := rfl
@[simp] theorem State.respond_pgOff (r : Response) (s : State) : (s.respond r).pgOff = s.pgOff := rfl
@[simp] theorem State.respond_secBase (r : Response) (s : State) : (s.respond r).secBase = s.secBase := rfl
@[simp] theorem State.respond_off (r : Response) (s : State) : (s.respond r).off = s.off := rfl
@[simp] theorem State.respond_chunk (r : Response) (s : State) : (s.respond r).chunk = s.chunk := rfl
@[simp] theorem State.respond_needErase (r : Response) (s : State) : (s.respond r).needErase = s.needErase := rfl
@[simp] theorem State.respond_pollCount (r : Response) (s : State) : (s.respond r).pollCount = s.pollCount := rfl
@[simp] theorem State.respond_idWord (r : Response) (s : State) : (s.respond r).idWord = s.idWord := rfl
@[simp] theorem State.respond_scratch (r : Response) (s : State) : (s.respond r).scratch = s.scratch := rfl
@[simp] theorem State.respond_rx (r : Response) (s : State) : (s.respond r).rx = s.rx := rfl
@[simp] theorem State.respond_mem (r : Response) (s : State) : (s.respond r).mem = s.mem := rfl
@[simp] theorem State.respond_busy (r : Response) (s : State) : (s.respond r).busy = s.busy := rfl
@[simp] theorem State.respond_wel (r : Response) (s : State) : (s.respond r).wel = s.wel := rfl
@[simp] theorem State.respond_asleep (r : Response) (s : State) : (s.respond r).asleep = s.asleep := rfl
@[simp] theorem State.respond_pending (r : Response) (s : State) : (s.respond r).pending = s.pending := rfl
@[simp] theorem State.respond_faults (r : Response) (s : State) : (s.respond r).faults = s.faults := rfl
@[simp] theorem State.respond_refused (r : Response) (s : State) : (s.respond r).refused = s.refused := rfl
@[simp] theorem State.respond_trace (r : Response) (s : State) : (s.respond r).trace = s.trace := rfl
@[simp] theorem State.respond_schedule (r : Response) (s : State) : (s.respond r).schedule = s.schedule := rfl
@[simp] theorem State.respond_delay (r : Response) (s : State) : (s.respond r).delay = s.delay := rfl
@[simp] theorem State.respond_draws (r : Response) (s : State) : (s.respond r).draws = s.draws := rfl

/-! ### The turn taken (`State.afterTurn`) -/

@[simp] theorem State.afterTurn_params (s : State) : (s.afterTurn).params = s.params := by unfold State.afterTurn; split <;> simp_all
@[simp] theorem State.afterTurn_hostQueue (s : State) : (s.afterTurn).hostQueue = s.hostQueue := by unfold State.afterTurn; split <;> simp_all
@[simp] theorem State.afterTurn_response (s : State) : (s.afterTurn).response = s.response := by unfold State.afterTurn; split <;> simp_all
@[simp] theorem State.afterTurn_ctlState (s : State) : (s.afterTurn).ctlState = s.ctlState := by unfold State.afterTurn; split <;> simp_all
@[simp] theorem State.afterTurn_req (s : State) : (s.afterTurn).req = s.req := by unfold State.afterTurn; split <;> simp_all
@[simp] theorem State.afterTurn_cont (s : State) : (s.afterTurn).cont = s.cont := by unfold State.afterTurn; split <;> simp_all
@[simp] theorem State.afterTurn_curAddr (s : State) : (s.afterTurn).curAddr = s.curAddr := by unfold State.afterTurn; split <;> simp_all
@[simp] theorem State.afterTurn_remLen (s : State) : (s.afterTurn).remLen = s.remLen := by unfold State.afterTurn; split <;> simp_all
@[simp] theorem State.afterTurn_bufOff (s : State) : (s.afterTurn).bufOff = s.bufOff := by unfold State.afterTurn; split <;> simp_all
@[simp] theorem State.afterTurn_pgOff (s : State) : (s.afterTurn).pgOff = s.pgOff := by unfold State.afterTurn; split <;> simp_all
@[simp] theorem State.afterTurn_secBase (s : State) : (s.afterTurn).secBase = s.secBase := by unfold State.afterTurn; split <;> simp_all
@[simp] theorem State.afterTurn_off (s : State) : (s.afterTurn).off = s.off := by unfold State.afterTurn; split <;> simp_all
@[simp] theorem State.afterTurn_chunk (s : State) : (s.afterTurn).chunk = s.chunk := by unfold State.afterTurn; split <;> simp_all
@[simp] theorem State.afterTurn_needErase (s : State) : (s.afterTurn).needErase = s.needErase := by unfold State.afterTurn; split <;> simp_all
@[simp] theorem State.afterTurn_pollCount (s : State) : (s.afterTurn).pollCount = s.pollCount := by unfold State.afterTurn; split <;> simp_all
@[simp] theorem State.afterTurn_idWord (s : State) : (s.afterTurn).idWord = s.idWord := by unfold State.afterTurn; split <;> simp_all
@[simp] theorem State.afterTurn_scratch (s : State) : (s.afterTurn).scratch = s.scratch := by unfold State.afterTurn; split <;> simp_all
@[simp] theorem State.afterTurn_rx (s : State) : (s.afterTurn).rx = s.rx := by unfold State.afterTurn; split <;> simp_all
@[simp] theorem State.afterTurn_mem (s : State) : (s.afterTurn).mem = s.mem := by unfold State.afterTurn; split <;> simp_all
@[simp] theorem State.afterTurn_busy (s : State) : (s.afterTurn).busy = s.busy := by unfold State.afterTurn; split <;> simp_all
@[simp] theorem State.afterTurn_wel (s : State) : (s.afterTurn).wel = s.wel := by unfold State.afterTurn; split <;> simp_all
@[simp] theorem State.afterTurn_asleep (s : State) : (s.afterTurn).asleep = s.asleep := by unfold State.afterTurn; split <;> simp_all
@[simp] theorem State.afterTurn_pending (s : State) : (s.afterTurn).pending = s.pending := by unfold State.afterTurn; split <;> simp_all
@[simp] theorem State.afterTurn_faults (s : State) : (s.afterTurn).faults = s.faults := by unfold State.afterTurn; split <;> simp_all
@[simp] theorem State.afterTurn_refused (s : State) : (s.afterTurn).refused = s.refused := by unfold State.afterTurn; split <;> simp_all
@[simp] theorem State.afterTurn_trace (s : State) : (s.afterTurn).trace = s.trace := by unfold State.afterTurn; split <;> simp_all
@[simp] theorem State.afterTurn_schedule (s : State) : (s.afterTurn).schedule = s.schedule.tail := by unfold State.afterTurn; split <;> simp_all
@[simp] theorem State.afterTurn_delay (s : State) : (s.afterTurn).delay = if s.schedule = [] ∧ s.busy = true then s.delay - 1 else s.delay := by unfold State.afterTurn; split <;> simp_all
@[simp] theorem State.afterTurn_draws (s : State) : (s.afterTurn).draws = s.draws := by unfold State.afterTurn; split <;> simp_all

/-! ### The controller's reset (`State.controllerReset`) -/

@[simp] theorem State.controllerReset_params (s : State) : (s.controllerReset).params = s.params := rfl
@[simp] theorem State.controllerReset_hostQueue (s : State) : (s.controllerReset).hostQueue = s.hostQueue := rfl
@[simp] theorem State.controllerReset_response (s : State) : (s.controllerReset).response = none := rfl
@[simp] theorem State.controllerReset_ctlState (s : State) : (s.controllerReset).ctlState = .idle := rfl
@[simp] theorem State.controllerReset_req (s : State) : (s.controllerReset).req = s.req := rfl
@[simp] theorem State.controllerReset_cont (s : State) : (s.controllerReset).cont = [] := rfl
@[simp] theorem State.controllerReset_curAddr (s : State) : (s.controllerReset).curAddr = s.curAddr := rfl
@[simp] theorem State.controllerReset_remLen (s : State) : (s.controllerReset).remLen = s.remLen := rfl
@[simp] theorem State.controllerReset_bufOff (s : State) : (s.controllerReset).bufOff = s.bufOff := rfl
@[simp] theorem State.controllerReset_pgOff (s : State) : (s.controllerReset).pgOff = s.pgOff := rfl
@[simp] theorem State.controllerReset_secBase (s : State) : (s.controllerReset).secBase = s.secBase := rfl
@[simp] theorem State.controllerReset_off (s : State) : (s.controllerReset).off = s.off := rfl
@[simp] theorem State.controllerReset_chunk (s : State) : (s.controllerReset).chunk = s.chunk := rfl
@[simp] theorem State.controllerReset_needErase (s : State) : (s.controllerReset).needErase = s.needErase := rfl
@[simp] theorem State.controllerReset_pollCount (s : State) : (s.controllerReset).pollCount = s.pollCount := rfl
@[simp] theorem State.controllerReset_idWord (s : State) : (s.controllerReset).idWord = s.idWord := rfl
@[simp] theorem State.controllerReset_scratch (s : State) : (s.controllerReset).scratch = State.blankScratch := rfl
@[simp] theorem State.controllerReset_rx (s : State) : (s.controllerReset).rx = [] := rfl
@[simp] theorem State.controllerReset_mem (s : State) : (s.controllerReset).mem = s.mem := rfl
@[simp] theorem State.controllerReset_busy (s : State) : (s.controllerReset).busy = s.busy := rfl
@[simp] theorem State.controllerReset_wel (s : State) : (s.controllerReset).wel = s.wel := rfl
@[simp] theorem State.controllerReset_asleep (s : State) : (s.controllerReset).asleep = (Config.draw s.draws).getLsbD 0 := rfl
@[simp] theorem State.controllerReset_pending (s : State) : (s.controllerReset).pending = s.pending := rfl
@[simp] theorem State.controllerReset_faults (s : State) : (s.controllerReset).faults = [] := rfl
@[simp] theorem State.controllerReset_refused (s : State) : (s.controllerReset).refused = false := rfl
@[simp] theorem State.controllerReset_trace (s : State) : (s.controllerReset).trace = [] := rfl
@[simp] theorem State.controllerReset_schedule (s : State) : (s.controllerReset).schedule = s.schedule := rfl
@[simp] theorem State.controllerReset_delay (s : State) : (s.controllerReset).delay = s.delay := rfl
@[simp] theorem State.controllerReset_draws (s : State) : (s.controllerReset).draws = s.draws + 1 := rfl

end Sys2Proof.Machine
end

