-- ==== Sys2Proof/Laws/Frames.lean ====
section
/-! SUPPORT. What one frame can do: the cases of `State.xfer` in the order of 40_bus_commands.md R132, one inversion
lemma for every frame instruction (`exec_frame_effect`), and one for every request (`exec_request`). -/

namespace Sys2Proof.Machine

/-! ### The form checks are WellFormed's -/

theorem rdsrOk_eq (p : Params) (n : Nat) : rdsrOk n = (Instr.rdsr n).wellFormed p.capacity := rfl

theorem readOk_eq (p : Params) (a : Addr) (n : Nat) : readOk p a n = (Instr.wireRead a n).wellFormed p.capacity := rfl

theorem ppOk_eq (p : Params) (a : Addr) (d : List Byte) :
    ppOk p a d.length = (Instr.pp a d).wellFormed p.capacity := rfl

theorem eraseOk_eq_se (p : Params) (a : Addr) : eraseOk p a = (Instr.se a).wellFormed p.capacity := rfl

theorem eraseOk_eq_be (p : Params) (a : Addr) : eraseOk p a = (Instr.be a).wellFormed p.capacity := rfl

theorem rdidOk_eq (p : Params) (a : Addr) (n : Nat) : rdidOk a n = (Instr.rdid a n).wellFormed p.capacity := rfl

theorem jedecOk_eq (p : Params) (n : Nat) : jedecOk n = (Instr.jedec n).wellFormed p.capacity := rfl

/-! ### The five outcomes of a frame -/

section
variable {op : WireOp} {addr : Option Addr} {out : List Byte} {nin : Nat} {formOk : Bool}
  {command : State → State × List Byte} {s : State}

theorem xfer_asleep (h : s.asleep = true) (hop : op ≠ .rpd) :
    s.xfer op addr out nin formOk command = (s.logFrame (s.opc op) addr out []).raise (.deviceAsleep (s.opc op)) := by
  simp [State.xfer, h, hop]

theorem xfer_unmodelled (h : s.asleep = false) (hop : emitted op = false) :
    s.xfer op addr out nin formOk command = (s.logFrame (s.opc op) addr out []).refuse (s.opc op) := by
  simp [State.xfer, h, hop]

theorem xfer_badForm (h : s.asleep = false ∨ op = .rpd) (hop : emitted op = true) (hf : formOk = false) :
    s.xfer op addr out nin formOk command =
      (s.logFrame (s.opc op) addr out []).raise (.badFrame (s.opc op) addr out.length nin) := by
  rcases h with h | h
  · simp [State.xfer, h, hop, hf]
  · subst h; simp [State.xfer, hf, emitted]

theorem xfer_ignored (h : s.asleep = false ∨ op = .rpd) (hop : emitted op = true) (hf : formOk = true)
    (hb : s.busy = true) (hr : op ≠ .rdsr) :
    s.xfer op addr out nin formOk command = (s.afterDraws nin).logFrame (s.opc op) addr out (s.drawBytes nin) := by
  rcases h with h | h
  · simp [State.xfer, h, hop, hf, hb, hr]
  · subst h; simp [State.xfer, hf, hb, emitted]

theorem xfer_command (h : s.asleep = false ∨ op = .rpd) (hop : emitted op = true) (hf : formOk = true)
    (hb : s.busy = false ∨ op = .rdsr) :
    s.xfer op addr out nin formOk command = (command s).1.logFrame (s.opc op) addr out (command s).2 := by
  rcases h with h | h
  · rcases hb with hb | hb <;> simp [State.xfer, h, hf, hb] <;> simp_all
  · subst h
    rcases hb with hb | hb
    · simp [State.xfer, hf, hb, emitted]
    · cases hb

end

/-- Everything a frame of the command `op` can do to the machine. -/
inductive FrameEffect (op : WireOp) (addr : Option Addr) (out : List Byte) (s : State) : State → Prop
  /-- It raises a fault (R141, R144). -/
  | fault (f : FaultRecord) : FrameEffect op addr out s ((s.logFrame (s.opc op) addr out []).raise f)
  /-- It is refused (R150). -/
  | refused : FrameEffect op addr out s ((s.logFrame (s.opc op) addr out []).refuse (s.opc op))
  /-- It is answered without a change of the device: a read, an ignored frame, a rejected program or erase. -/
  | answered (n : Nat) (inn : List Byte) :
      FrameEffect op addr out s ((s.afterDraws n).logFrame (s.opc op) addr out inn)
  /-- WREN on an idle, awake device. -/
  | enabled (hop : op = .wren) (ha : s.asleep = false) (hb : s.busy = false) :
      FrameEffect op addr out s ({ s with wel := true }.logFrame (s.opc op) addr out [])
  /-- A program or erase is accepted. -/
  | started (p : Pending) (hop : isGatedOp op = true) (ha : s.asleep = false) (hb : s.busy = false)
      (hw : s.wel = true) (hp : p ≠ .none) (hok : p.Ok s.params) :
      FrameEffect op addr out s ({ s with busy := true, pending := p }.logFrame (s.opc op) addr out [])
  /-- PD on an idle, awake device. -/
  | slept (hop : op = .pd) (ha : s.asleep = false) (hb : s.busy = false) :
      FrameEffect op addr out s ({ s with asleep := true }.logFrame (s.opc op) addr out [])
  /-- RPD on an idle device. -/
  | woke (hop : op = .rpd) (hb : s.busy = false) :
      FrameEffect op addr out s ({ s with asleep := false }.logFrame (s.opc op) addr out [])

/-- The cases of a frame. -/
theorem xfer_effect {op : WireOp} {addr : Option Addr} {out : List Byte} {nin : Nat} {formOk : Bool}
    {command : State → State × List Byte} {s : State}
    (hc : (s.asleep = false ∨ op = .rpd) → emitted op = true → formOk = true → (s.busy = false ∨ op = .rdsr) →
      FrameEffect op addr out s ((command s).1.logFrame (s.opc op) addr out (command s).2)) :
    FrameEffect op addr out s (s.xfer op addr out nin formOk command) := by
  by_cases h1 : s.asleep = true ∧ op ≠ .rpd
  · rw [xfer_asleep h1.1 h1.2]; exact .fault _
  have ha : s.asleep = false ∨ op = .rpd := by
    by_cases h : s.asleep = true
    · exact .inr (by_contra fun hn => h1 ⟨h, hn⟩)
    · exact .inl (by simpa using h)
  by_cases h2 : emitted op = true
  · by_cases h3 : formOk = true
    · by_cases h4 : s.busy = true ∧ op ≠ .rdsr
      · rw [xfer_ignored ha h2 h3 h4.1 h4.2]; exact .answered _ _
      · have hb : s.busy = false ∨ op = .rdsr := by
          by_cases h : s.busy = true
          · exact .inr (by_contra fun hn => h4 ⟨h, hn⟩)
          · exact .inl (by simpa using h)
        rw [xfer_command ha h2 h3 hb]; exact hc ha h2 h3 hb
    · rw [xfer_badForm ha h2 (by simpa using h3)]; exact .fault _
  · have h2' : emitted op = false := by simpa using h2
    rcases ha with ha | ha
    · rw [xfer_unmodelled ha h2']; exact .refused
    · subst ha; cases h2'

theorem alignDown_mod (a g : Nat) : alignDown a g % g = 0 := by
  have h : alignDown a g = g * (a / g) := by
    have := Nat.div_add_mod a g
    unfold alignDown
    omega
  rw [h, Nat.mul_mod_right]

theorem alignDown_le (a g : Nat) : alignDown a g ≤ a := Nat.sub_le _ _

/-- The base of a unit of the array as a number. -/
theorem unitBase_toNat (a : Addr) (g : Nat) : (unitBase a g).toNat = alignDown a.toNat g := by
  have h := alignDown_le a.toNat g
  have := a.isLt
  simp [unitBase, toAddr, Nat.mod_eq_of_lt (show alignDown a.toNat g < 16777216 by omega)]

theorem startOp_effect {op : WireOp} {addr : Option Addr} {out : List Byte} {s : State} {p : Pending}
    (hop : isGatedOp op = true) (ha : s.asleep = false) (hb : s.busy = false) (hp : p ≠ .none)
    (hok : p.Ok s.params) : FrameEffect op addr out s ((s.startOp p).logFrame (s.opc op) addr out []) := by
  by_cases hw : s.wel = true
  · rw [State.startOp, if_pos hw]; exact .started p hop ha hb hw hp hok
  · rw [State.startOp, if_neg hw]; exact .answered 0 []

/-- The rule of a frame's command once the filters of 40_bus_commands.md R132 let it through: the new device and the in
bytes. -/
def commandOf (i : Instr) (t : State) : State × List Byte :=
  match i with
  | .wren => ({ t with wel := true }, [])
  | .rdsr _ => (t.afterDraws 1, [statusByte t.params (Config.draw t.draws) t.busy t.wel])
  | .wireRead a n => (t, t.mem.readBytes a.toNat n)
  | .pp a out => (t.startOp (.program a out), [])
  | .se a => (t.startOp (.eraseSector (unitBase a Config.sector)), [])
  | .be a => (t.startOp (.eraseBlock (unitBase a Config.block)), [])
  | .ce => (t.startOp .eraseChip, [])
  | .pd => ({ t with asleep := true }, [])
  | .rpd => ({ t with asleep := false }, [])
  | .rdid _ _ => (t, [t.params.devMfr, t.params.devId8])
  | .jedec _ => (t, [t.params.devMfr, t.params.devType, t.params.devCapExp])
  | .wrsr _ | .fastRead _ _ _ | .rsten | .rst | .hostInit _ | .readId _ | .readJedecId _ | .hostRead _ | .hostWrite _
  | .writeNoCheck _ | .eraseSector _ | .eraseBlock _ | .eraseChip _ | .powerDown _ | .wakeUp _ | .selfTest _ => (t, [])

/-- Every frame instruction is one `Xfer` of its fields, its form check being WellFormed's. -/
theorem exec_frame {i : Instr} {op : WireOp} {addr : Option Addr} {out : List Byte} {nin : Nat}
    (h : frameFields i = some (op, addr, out, nin)) (s : State) :
    exec i s = .next (s.xfer op addr out nin (i.wellFormed s.params.capacity) (commandOf i)) := by
  cases i <;> simp only [frameFields, Option.some.injEq, Prod.mk.injEq, reduceCtorEq] at h
  all_goals obtain ⟨rfl, rfl, rfl, rfl⟩ := h; rfl

/-- A frame instruction that every filter lets through has its command's effect. -/
theorem exec_honoured {i : Instr} {op : WireOp} {addr : Option Addr} {out : List Byte} {nin : Nat} {s : State}
    (h : frameFields i = some (op, addr, out, nin)) (ha : s.asleep = false ∨ op = .rpd) (he : emitted op = true)
    (hf : i.wellFormed s.params.capacity = true) (hb : s.busy = false ∨ op = .rdsr) :
    exec i s = .next ((commandOf i s).1.logFrame (s.opc op) addr out (commandOf i s).2) := by
  rw [exec_frame h, xfer_command ha he hf hb]

/-- A well-formed frame instruction while BUSY (40_bus_commands.md R151). -/
theorem exec_ignored {i : Instr} {op : WireOp} {addr : Option Addr} {out : List Byte} {nin : Nat} {s : State}
    (h : frameFields i = some (op, addr, out, nin)) (ha : s.asleep = false ∨ op = .rpd) (he : emitted op = true)
    (hf : i.wellFormed s.params.capacity = true) (hb : s.busy = true) (hr : op ≠ .rdsr) :
    exec i s = .next ((s.afterDraws nin).logFrame (s.opc op) addr out (s.drawBytes nin)) := by
  rw [exec_frame h, xfer_ignored ha he hf hb hr]

/-- Every frame instruction answers a next state, and it is one of the effects of its command. -/
theorem exec_frame_effect {i : Instr} {op : WireOp} {addr : Option Addr} {out : List Byte} {nin : Nat}
    (h : frameFields i = some (op, addr, out, nin)) (s : State) :
    ∃ t, exec i s = .next t ∧ FrameEffect op addr out s t := by
  cases i <;> simp only [frameFields, Option.some.injEq, Prod.mk.injEq, reduceCtorEq] at h
  all_goals obtain ⟨rfl, rfl, rfl, rfl⟩ := h
  all_goals refine ⟨_, rfl, xfer_effect fun ha he hf hb => ?_⟩
  case wren => exact .enabled rfl (by simpa using ha) (by simpa using hb)
  case rdsr => exact .answered 1 _
  case wrsr => cases he
  case wireRead => exact .answered 0 _
  case fastRead => cases he
  case pp a d =>
    refine startOp_effect rfl (by simpa using ha) (by simpa using hb) (by simp) ?_
    simp only [ppOk, Bool.and_eq_true, decide_eq_true_eq] at hf
    exact ⟨hf.1.1.1, hf.1.2, hf.2⟩
  case se a =>
    refine startOp_effect rfl (by simpa using ha) (by simpa using hb) (by simp) ?_
    have := alignDown_le a.toNat Config.sector
    simp only [eraseOk, decide_eq_true_eq] at hf
    simp only [Pending.Ok, unitBase_toNat, alignDown_mod, true_and]
    omega
  case be a =>
    refine startOp_effect rfl (by simpa using ha) (by simpa using hb) (by simp) ?_
    have := alignDown_le a.toNat Config.block
    simp only [eraseOk, decide_eq_true_eq] at hf
    simp only [Pending.Ok, unitBase_toNat, alignDown_mod, true_and]
    omega
  case ce => exact startOp_effect rfl (by simpa using ha) (by simpa using hb) (by simp) trivial
  case pd => exact .slept rfl (by simpa using ha) (by simpa using hb)
  case rpd => exact .woke rfl (by simpa using hb)
  case rdid => exact .answered 0 _
  case jedec => exact .answered 0 _
  case rsten => cases he
  case rst => cases he

/-- A frame the decoder does not read only raises a fault or is refused, and is in the trace. -/
theorem xferUndecoded_cases (e : DecodeError) (s : State) :
    (∃ w, e = .illegalOp w ∧ s.xferUndecoded e = s.raise (.illegalOp w.cmd)) ∨
      ∃ opc a out, (∃ f, s.xferUndecoded e = (s.logFrame opc a out []).raise f) ∨
        s.xferUndecoded e = (s.logFrame opc a out []).refuse opc := by
  cases e with
  | unknownOpcode opc rest nin =>
    refine .inr ⟨opc, none, rest, ?_⟩
    cases h : s.asleep
    · exact .inr (by simp [State.xferUndecoded, h])
    · exact .inl ⟨.deviceAsleep opc, by simp only [State.xferUndecoded, h, if_true]⟩
  | badFormat op a out nin =>
    refine .inr ⟨(s.opc op), a, out, ?_⟩
    simp only [State.xferUndecoded]
    split_ifs
    · exact .inl ⟨_, rfl⟩
    · exact .inr rfl
    · exact .inl ⟨_, rfl⟩
  | illegalOp w => exact .inl ⟨w, rfl, rfl⟩

/-! ### Requests -/

/-- Everything acceptance can do (60_exceptions.md R265). -/
theorem accept_cases (op : HostOp) (x : HostArgs) (code : List Micro) (s : State) :
    (s.ctlState = .running ∧ s.accept op x code = s.raise (.reentrant op.code)) ∨
      s.ctlState = .idle ∧
        ((∃ f, s.accept op x code = (s.latch ⟨op.code, x.addr, x.len, x.data⟩ code).raise f) ∨
          s.accept op x code = s.latch ⟨op.code, x.addr, x.len, x.data⟩ code) := by
  cases hc : s.ctlState with
  | running => exact .inl ⟨rfl, by simp [State.accept, hc]⟩
  | idle =>
    refine .inr ⟨rfl, ?_⟩
    cases hl : lengthFault op x with
    | some f => exact .inl ⟨f, by simp [State.accept, hc, hl]⟩
    | none =>
      cases hr : rangeFault s.params op x with
      | some f => exact .inl ⟨f, by simp [State.accept, hc, hl, hr]⟩
      | none => exact .inr (by simp [State.accept, hc, hl, hr])

/-- A request that passes the checks of acceptance. -/
theorem accept_passes {op : HostOp} {x : HostArgs} {s : State} (hi : s.ctlState = .idle) (hl : lengthFault op x = none)
    (hr : rangeFault s.params op x = none) (code : List Micro) :
    s.accept op x code = s.latch ⟨op.code, x.addr, x.len, x.data⟩ code := by
  simp [State.accept, hi, hl, hr]

/-- The pseudocode of a host operation. -/
def codeOf : HostOp → List Micro
  | .init => [.xfer .rpd, .ret .ok .zero false]
  | .readId => [.xfer .rdid, .setId16, .ret .ok .identifier false]
  | .readJedecId => [.xfer .jedec, .setId24, .ret .ok .identifier false]
  | .read => [.lenTest, .xfer .readRequest, .ret .ok .zero true]
  | .write => writeBody .request ++ [.ret .ok .zero false]
  | .writeNoCheck => programPages .raw ++ [.ret .ok .zero false]
  | .eraseSector => gated (.erase .reqSector) ++ [.ret .ok .zero false]
  | .eraseBlock => gated (.erase .reqBlock) ++ [.ret .ok .zero false]
  | .eraseChip => gated (.erase .chip) ++ [.ret .ok .zero false]
  | .powerDown => [.xfer .pd, .ret .ok .zero false]
  | .wakeUp => [.xfer .rpd, .ret .ok .zero false]
  | .selfTest => [.xfer .jedec, .setId24, .idCheck, .sizeCheck] ++ gated (.erase .sectorZero)
      ++ writeBody .pattern ++ [.xfer .readBack, .compare, .ret .ok .capacity false]

/-- A request instruction is the acceptance of its operation. -/
theorem exec_request {i : Instr} {op : HostOp} {x : HostArgs} (h : requestFields i = some (op, x)) (s : State) :
    exec i s = .next (s.accept op x (codeOf op)) := by
  cases i <;> simp only [requestFields, Option.some.injEq, Prod.mk.injEq, reduceCtorEq] at h
  all_goals obtain ⟨rfl, rfl⟩ := h; rfl

/-- Every instruction is a frame or a request. -/
theorem frame_or_request (i : Instr) :
    (∃ op addr out nin, frameFields i = some (op, addr, out, nin)) ∨ ∃ op x, requestFields i = some (op, x) := by
  cases i <;> first | exact .inl ⟨_, _, _, _, rfl⟩ | exact .inr ⟨_, _, rfl⟩

/-- Every instruction answers a next state. -/
theorem exec_next (i : Instr) (s : State) : ∃ t, exec i s = .next t := by
  rcases frame_or_request i with ⟨_, _, _, _, h⟩ | ⟨_, _, h⟩
  · exact ⟨_, exec_frame h s⟩
  · exact ⟨_, exec_request h s⟩

/-- A decoded request is a request instruction, a decoded frame a frame instruction of the opcode sent. -/
theorem decodeRequest_fields {w : HostWord} {i : Instr} (h : decodeRequest w = .ok i) :
    ∃ op x, requestFields i = some (op, x) := by
  unfold decodeRequest at h
  split_ifs at h
  split at h
  · next op _ => cases h; cases op <;> exact ⟨_, _, rfl⟩
  · cases h

theorem decodeFrame_fields {t : Opcodes} {f : RawFrame} {i : Instr} (h : decodeFrame t f = .ok i) :
    ∃ op addr out nin, frameFields i = some (op, addr, out, nin) ∧ op.byte t = f.opc := by
  unfold decodeFrame at h
  split at h
  · cases h
  · next op hop =>
    split at h
    · next i' hi =>
      cases h
      have hb := WireOp.byte_of_ofByte? hop
      cases op <;> simp only [decodeOperands, decodeBare, decodeAddr] at hi <;> (repeat' split at hi) <;> cases hi <;>
        exact ⟨_, _, _, _, rfl, hb⟩
    · cases h

end Sys2Proof.Machine
end

