-- ==== Sys2Proof/Laws/Step.lean ====
section
/-! SUPPORT. What one step can do, said once (`step_cases`): every later fact about all steps is a case analysis over
`StepCase`. -/

namespace Sys2Proof.Machine

/-- The command a line of the pseudocode sends (a raw frame's is its own). -/
def FrameKind.op? : FrameKind → Option WireOp
  | .wren => some .wren
  | .rdsr => some .rdsr
  | .rpd => some .rpd
  | .pd => some .pd
  | .rdid => some .rdid
  | .jedec => some .jedec
  | .readRequest | .readSector | .readBack => some .read
  | .erase .reqSector | .erase .chunkSector | .erase .sectorZero => some .se
  | .erase .reqBlock => some .be
  | .erase .chip => some .ce
  | .page _ => some .pp
  | .raw _ => none

/-- Everything one step can do once its turn is taken. -/
inductive StepCase (s : State) : State → Prop
  /-- The device completes (40_bus_commands.md R146). -/
  | complete (hb : s.busy = true) : StepCase s s.complete
  /-- A request while RUNNING (60_exceptions.md R264). -/
  | reentrant (w : HostWord) (rest : List HostWord) (op : BitVec 4) (hq : s.hostQueue = w :: rest)
      (hc : s.ctlState = .running) : StepCase s ({ s with hostQueue := rest }.raise (.reentrant op))
  /-- A request accepted (10_state.md R52). -/
  | accepted (w : HostWord) (rest : List HostWord) (r : Request) (op : HostOp) (hq : s.hostQueue = w :: rest)
      (hc : s.ctlState = .idle) : StepCase s ({ s with hostQueue := rest }.latch r (codeOf op))
  /-- A request that fails a check of acceptance (60_exceptions.md R265). -/
  | rejected (w : HostWord) (rest : List HostWord) (r : Request) (code : List Micro) (f : FaultRecord)
      (hq : s.hostQueue = w :: rest) (hc : s.ctlState = .idle) (hcode : code = [] ∨ ∃ op, code = codeOf op) :
      StepCase s (({ s with hostQueue := rest }.latch r code).raise f)
  /-- A frame of the pseudocode (40_bus_commands.md R127); in a table of distinct bytes it is the line's own command. -/
  | frame (k : FrameKind) (rest : List Micro) (op : WireOp) (addr : Option Addr) (out : List Byte) (t : State)
      (hc : s.ctlState = .running) (hf : s.faults = []) (hcont : s.cont = .xfer k :: rest)
      (hop : s.params.opc.distinct = true → ∀ o, k.op? = some o → op = o) (ht : FrameEffect op addr out { s with cont := rest } t) : StepCase s t
  /-- A frame that the device does not decode; in a table of distinct bytes it comes from outside. -/
  | garbled (k : FrameKind) (rest : List Micro) (e : DecodeError) (hc : s.ctlState = .running) (hf : s.faults = [])
      (hcont : s.cont = .xfer k :: rest) (hraw : s.params.opc.distinct = true → ∃ f, k = .raw f) :
      StepCase s ({ s with cont := rest }.xferUndecoded e)
  /-- A page program whose scratch bytes this request has not written (10_state.md R36). -/
  | unwritten (k : FrameKind) (rest : List Micro) (r : FaultRecord) (hc : s.ctlState = .running)
      (hf : s.faults = []) (hcont : s.cont = .xfer k :: rest) (hk : frameOf s k = .error r) :
      StepCase s (s.raise r)
  /-- An internal line. -/
  | line (m : Micro) (rest : List Micro) (hm : ∀ k, m ≠ .xfer k) (hc : s.ctlState = .running)
      (hf : s.faults = []) (hcont : s.cont = m :: rest) : StepCase s (s.internal m rest)
  /-- The pseudocode has ended (10_state.md R56). -/
  | finish (hc : s.ctlState = .running) (hf : s.faults = []) (hcont : s.cont = []) :
      StepCase s (s.respond ⟨.ok, 0, []⟩)
  /-- Nobody has anything to do. -/
  | wait (hc : s.ctlState = .idle) (hq : s.hostQueue = []) (hb : s.busy = false) : StepCase s s

/-- The frame a line sends decodes to a frame instruction of the line's command. -/
theorem frameOf_decodes {s : State} {k : FrameKind} {f : RawFrame} (ht : s.params.opc.distinct = true)
    (h : frameOf s k = .ok f) (hk : ∀ r, k ≠ .raw r) : ∃ i op addr out nin, decodeFrame s.params.opc f = .ok i ∧
      frameFields i = some (op, addr, out, nin) ∧ k.op? = some op := by
  cases k with
  | raw r => exact absurd rfl (hk r)
  | erase t =>
    cases t <;> cases h
    · exact ⟨_, _, _, _, _, decode_se ht _, rfl, rfl⟩
    · exact ⟨_, _, _, _, _, decode_be ht _, rfl, rfl⟩
    · exact ⟨_, _, _, _, _, decode_ce ht, rfl, rfl⟩
    · exact ⟨_, _, _, _, _, decode_se ht _, rfl, rfl⟩
    · exact ⟨_, _, _, _, _, decode_se ht _, rfl, rfl⟩
  | page w =>
    simp only [frameOf] at h
    split at h
    · cases h; exact ⟨_, _, _, _, _, decode_pp ht _ _, rfl, rfl⟩
    · cases h
  | wren => cases h; exact ⟨_, _, _, _, _, decode_wren ht, rfl, rfl⟩
  | rdsr => cases h; exact ⟨_, _, _, _, _, decode_rdsr ht _, rfl, rfl⟩
  | rpd => cases h; exact ⟨_, _, _, _, _, decode_rpd ht, rfl, rfl⟩
  | pd => cases h; exact ⟨_, _, _, _, _, decode_pd ht, rfl, rfl⟩
  | rdid => cases h; exact ⟨_, _, _, _, _, decode_rdid ht _ _, rfl, rfl⟩
  | jedec => cases h; exact ⟨_, _, _, _, _, decode_jedec ht _, rfl, rfl⟩
  | readRequest => cases h; exact ⟨_, _, _, _, _, decode_read ht _ _, rfl, rfl⟩
  | readSector => cases h; exact ⟨_, _, _, _, _, decode_read ht _ _, rfl, rfl⟩
  | readBack => cases h; exact ⟨_, _, _, _, _, decode_read ht _ _, rfl, rfl⟩

theorem submitStep_case {s : State} {w : HostWord} {rest : List HostWord} {t : State}
    (hq : s.hostQueue = w :: rest) (h : State.submitStep w { s with hostQueue := rest } = .next t) : StepCase s t := by
  unfold State.submitStep at h
  split at h
  · next i hi =>
    obtain ⟨op, x, hf⟩ := decodeRequest_fields hi
    rw [exec_request hf] at h
    cases h
    rcases accept_cases op x (codeOf op) { s with hostQueue := rest } with ⟨hc, he⟩ | ⟨hc, ⟨f, he⟩ | he⟩ <;> rw [he]
    · exact .reentrant w rest _ hq hc
    · exact .rejected w rest _ _ f hq hc (.inr ⟨op, rfl⟩)
    · exact .accepted w rest _ op hq hc
  · cases h
    unfold State.acceptIllegal
    cases hc : s.ctlState
    · simpa [hc] using StepCase.rejected w rest _ _ _ hq hc (.inl rfl)
    · simpa [hc] using StepCase.reentrant w rest (cmdOp w.cmd) hq hc

theorem lineStep_case {s : State} {m : Micro} {rest : List Micro} {t : State} (hc : s.ctlState = .running)
    (hf : s.faults = []) (hcont : s.cont = m :: rest) (h : s.lineStep m rest = .next t) : StepCase s t := by
  by_cases hm : ∃ k, m = .xfer k
  · obtain ⟨k, rfl⟩ := hm
    simp only [State.lineStep] at h
    split at h
    · next f hfr =>
      unfold State.frameStep at h
      split at h
      · next i hi =>
        obtain ⟨op, addr, out, nin, hfi, -⟩ := decodeFrame_fields hi
        obtain ⟨t', ht', heff⟩ := exec_frame_effect hfi { s with cont := rest }
        rw [ht'] at h
        cases h
        refine .frame k rest op addr out t hc hf hcont (fun hd o ho => ?_) heff
        by_cases hk : ∃ r, k = .raw r
        · obtain ⟨r, rfl⟩ := hk; cases ho
        · obtain ⟨i', op', addr', out', nin', hd', hf', hop⟩ := frameOf_decodes hd hfr fun r hr => hk ⟨r, hr⟩
          rw [show decodeFrame s.params.opc f = .ok i from hi] at hd'
          cases hd'
          rw [hfi] at hf'
          cases hf'
          rw [hop] at ho
          cases ho
          rfl
      · next e he =>
        cases h
        refine .garbled k rest e hc hf hcont fun hd => by_contra fun hk => ?_
        obtain ⟨i', _, _, _, _, hd', -, -⟩ := frameOf_decodes hd hfr fun r hr => hk ⟨r, hr⟩
        rw [show decodeFrame s.params.opc f = .error e from he] at hd'
        cases hd'
    · next r hr =>
      cases h
      exact .unwritten k rest r hc hf hcont hr
  · have hm' : ∀ k, m ≠ .xfer k := fun k hk => hm ⟨k, hk⟩
    have : s.lineStep m rest = .next (s.internal m rest) := by
      cases m <;> first | rfl | exact absurd rfl (hm' _)
    rw [this] at h
    cases h
    exact .line m rest hm' hc hf hcont

theorem mainMove_case {s t : State} (h : s.perform s.mainMove = .next t) : StepCase s t := by
  unfold State.mainMove at h
  split at h
  · next hc =>
    split at h
    · next w rest hq => exact submitStep_case hq h
    · next hq =>
      split_ifs at h with hb
      · cases h; exact .complete hb
      · cases h; exact .wait hc hq (by simpa using hb)
  · next hc =>
    split at h
    · next hf =>
      split at h
      · next m rest hcont => exact lineStep_case hc hf hcont h
      · next hcont => cases h; exact .finish hc hf hcont
    · split_ifs at h with hb
      · cases h; exact .complete hb
      · cases h

/-- What a step can do. -/
theorem step_cases {s t : State} (h : step s = .next t) : s.params.geometryOk = true ∧ StepCase s.afterTurn t := by
  unfold step at h
  split_ifs at h with hg
  refine ⟨hg, ?_⟩
  cases ht : s.turn with
  | main => rw [ht] at h; exact mainMove_case h
  | device =>
    rw [ht] at h
    simp only [State.moveOf] at h
    split_ifs at h with hb
    · cases h; exact .complete hb
    · exact mainMove_case h
  | hostNow =>
    rw [ht] at h
    simp only [State.moveOf] at h
    split at h
    · next w rest hq => exact submitStep_case hq h
    · exact mainMove_case h

end Sys2Proof.Machine
end

