-- ==== Sys2Proof/Laws/Runs.lean ====
section
/-! SUPPORT. Laws of runs. `Reach` is a run under a schedule that is given; `SafeFor` is every run of bounded length
under every schedule. Both are closed under the same rules (`Closed`): one line, one frame, one busy-poll. What a
piece of pseudocode computes is proved once from those rules and serves both. -/

namespace Sys2Proof.Machine

/-! ### The fields a position does not depend on -/

/-- What a busy-poll leaves open: the last answer, the poll count, the draws, the device's delay and the trace. -/
structure Book where
  rx : List Byte
  pollCount : Nat
  draws : Nat
  delay : Nat
  trace : List TraceEntry

/-- The bookkeeping of a state. -/
def State.book (s : State) : Book := ⟨s.rx, s.pollCount, s.draws, s.delay, s.trace⟩

/-- `s` at the position `rest`, with other bookkeeping. -/
def State.onward (s : State) (rest : List Micro) (b : Book) : State :=
  { s with
    cont := rest
    rx := b.rx
    pollCount := b.pollCount
    draws := b.draws
    delay := b.delay
    trace := b.trace }

theorem countFrames_append (t : Opcodes) (op : WireOp) (a b : List TraceEntry) :
    countFrames t op (a ++ b) = countFrames t op a + countFrames t op b := by
  simp [countFrames]

/-- The trace `after` holds as many frames of each command other than `RDSR` as `before`. -/
def OnlyPolls (t : Opcodes) (before after : List TraceEntry) : Prop :=
  ∀ op, op ≠ .rdsr → countFrames t op after = countFrames t op before

theorem OnlyPolls.refl (t : Opcodes) (l : List TraceEntry) : OnlyPolls t l l := fun _ _ => rfl

theorem OnlyPolls.complete {t : Opcodes} {a l : List TraceEntry} (h : OnlyPolls t a l) :
    OnlyPolls t a (l ++ [.complete]) := fun op ho => by
  rw [countFrames_append, h op ho]; rfl

theorem countFrames_frame {t : Opcodes} (ht : t.distinct = true) (o op : WireOp) (a : Option Addr)
    (out inn : List Byte) : countFrames t o [.frame (op.byte t) a out inn] = if op = o then 1 else 0 := by
  simp [countFrames, List.countP_cons, WireOp.byte_eq_iff ht]

theorem OnlyPolls.read {t : Opcodes} (ht : t.distinct = true) {a l : List TraceEntry} (h : OnlyPolls t a l)
    (out inn : List Byte) : OnlyPolls t a (l ++ [.frame (WireOp.rdsr.byte t) none out inn]) := fun op ho => by
  rw [countFrames_append, h op ho, countFrames_frame ht, if_neg (Ne.symm ho), Nat.add_zero]

/-- `s` with the pending operation, if the device is BUSY, completed. -/
def State.settled (s : State) : State :=
  if s.busy then { s with mem := s.pending.apply s.params s.mem, busy := false, wel := false, pending := .none } else s

/-- A controller whose next line can run. -/
structure State.Enabled (s : State) : Prop where
  geometry : s.params.geometryOk = true
  running : s.ctlState = .running
  no_fault : s.faults = []

/-- A running controller without a fault, an awake device, and admitted parameters. -/
structure State.Live (s : State) : Prop where
  params : s.params.wf = true
  running : s.ctlState = .running
  no_fault : s.faults = []
  awake : s.asleep = false

theorem State.Live.geometry {s : State} (h : s.Live) : s.params.geometryOk = true := Params.wf_geometry h.params

theorem State.Live.opcodes {s : State} (h : s.Live) : s.params.opc.distinct = true := Params.wf_opcodes h.params

theorem State.Live.enabled {s : State} (h : s.Live) : s.Enabled := ⟨h.geometry, h.2, h.3⟩

/-! ### The schedule is read by the choice of the turn alone -/

theorem frameOf_book (s : State) (k : FrameKind) (sch : List Turn) (c : List Micro) (d : Nat) :
    frameOf { s with schedule := sch, cont := c, delay := d } k = frameOf s k := by
  cases k with
  | erase t => cases t <;> rfl
  | page w => cases w <;> rfl
  | _ => rfl

theorem internal_schedule (m : Micro) (rest : List Micro) (s : State) (sch : List Turn) :
    { s with schedule := sch }.internal m rest = { s.internal m rest with schedule := sch } := by
  cases m with
  | pollTest =>
    have e : ({ s with schedule := sch } : State).rxByte 0 = s.rxByte 0 := rfl
    simp only [State.internal, State.pollTest, e]
    cases busyBit s.params (s.rxByte 0) <;> cases pollExhausted s.params (s.pollCount + 1) <;> rfl
  | scan =>
    have e : scratchRead { s with schedule := sch } s.off.toNat s.chunk.toNat = scratchRead s s.off.toNat s.chunk.toNat := rfl
    simp only [State.internal, State.scan, e]
    cases scratchRead s s.off.toNat s.chunk.toNat <;> rfl
  | pageTest w => cases w <;> rfl
  | pageNext w => cases w <;> rfl
  | writeInit src => cases src <;> rfl
  | merge src => cases src <;> rfl
  | ret r v d => cases v <;> rfl
  | _ => rfl

theorem startOp_schedule (p : Pending) (s : State) (sch : List Turn) :
    { s with schedule := sch }.startOp p = { s.startOp p with schedule := sch } := by
  cases h : s.wel <;> simp [State.startOp, h]

theorem commandOf_schedule (i : Instr) (s : State) (sch : List Turn) :
    commandOf i { s with schedule := sch } = ({ (commandOf i s).1 with schedule := sch }, (commandOf i s).2) := by
  cases i <;> first | rfl | exact congrArg (·, []) (startOp_schedule _ s sch)

theorem xfer_schedule {op : WireOp} {addr : Option Addr} {out : List Byte} {nin : Nat} {formOk : Bool}
    {command : State → State × List Byte} (s : State) (sch : List Turn)
    (hc : command { s with schedule := sch } = ({ (command s).1 with schedule := sch }, (command s).2)) :
    { s with schedule := sch }.xfer op addr out nin formOk command =
      { s.xfer op addr out nin formOk command with schedule := sch } := by
  simp only [State.xfer, hc]
  by_cases h1 : s.asleep = true ∧ op ≠ .rpd
  · rw [if_pos h1, if_pos h1]; rfl
  by_cases h2 : emitted op = false
  · rw [if_neg h1, if_neg h1, if_pos h2, if_pos h2]; rfl
  by_cases h3 : formOk = false
  · rw [if_neg h1, if_neg h1, if_neg h2, if_neg h2, if_pos h3, if_pos h3]; rfl
  by_cases h4 : s.busy = true ∧ op ≠ .rdsr
  · rw [if_neg h1, if_neg h1, if_neg h2, if_neg h2, if_neg h3, if_neg h3, if_pos h4, if_pos h4]; rfl
  · rw [if_neg h1, if_neg h1, if_neg h2, if_neg h2, if_neg h3, if_neg h3, if_neg h4, if_neg h4]; rfl

theorem exec_frame_schedule {i : Instr} {op : WireOp} {addr : Option Addr} {out : List Byte} {nin : Nat}
    (h : frameFields i = some (op, addr, out, nin)) {s t : State} (he : exec i s = .next t) (sch : List Turn) :
    exec i { s with schedule := sch } = .next { t with schedule := sch } := by
  rw [exec_frame h] at he ⊢
  cases he
  exact congrArg _ (xfer_schedule s sch (commandOf_schedule i s sch))

/-! ### Runs under a given schedule -/

/-- From `s`, the turns `sch` lead to `t`, whatever turns follow. -/
def Reach (s : State) (sch : List Turn) (t : State) : Prop :=
  ∀ later : List Turn, runFor sch.length { s with schedule := sch ++ later } = .next { t with schedule := later }

theorem Reach.nil (s : State) : Reach s [] s := fun _ => rfl

theorem run_add (j k : Nat) (s t : State) (h : runFor j s = .next t) : runFor (j + k) s = runFor k t := by
  induction j generalizing s with
  | zero => cases h; rw [Nat.zero_add]
  | succ j ih =>
    rw [Nat.succ_add]
    simp only [runFor, Host.Core.run] at h ih ⊢
    split at h
    · next s' hs => exact ih _ h
    · cases h
    · cases h

theorem Reach.trans {s t u : State} {a b : List Turn} (h1 : Reach s a t) (h2 : Reach t b u) : Reach s (a ++ b) u := by
  intro later
  rw [List.append_assoc, List.length_append, run_add _ _ _ _ (h1 (b ++ later))]
  exact h2 later

theorem Reach.run {s t : State} {sch : List Turn} (h : Reach s sch t) :
    runFor sch.length { s with schedule := sch } = .next { t with schedule := [] } := by
  have := h []
  rwa [List.append_nil] at this

/-- One step under a turn. -/
theorem Reach.one {s t : State} {turn : Turn}
    (h : ∀ later, step { s with schedule := turn :: later } = .next { t with schedule := later }) : Reach s [turn] t := by
  intro later
  show Sys2Proof.core.run 1 _ = _
  have := h later
  simp only [Host.Core.run, Sys2Proof.core, List.cons_append, List.nil_append]
  rw [this]

theorem step_turn {s : State} (hg : s.params.geometryOk = true) (turn : Turn) (later : List Turn) :
    step { s with schedule := turn :: later } =
      { s with schedule := later }.perform (({ s with schedule := later } : State).moveOf turn) := by
  unfold step
  rw [if_pos hg]
  rfl

theorem mainMove_line {s : State} (h : s.Enabled) {m : Micro} {rest : List Micro} (hc : s.cont = m :: rest)
    (sch : List Turn) : ({ s with schedule := sch } : State).mainMove = .line m rest := by
  unfold State.mainMove
  simp only [h.running, h.no_fault, hc]

theorem lineStep_internal {s : State} {m : Micro} {rest : List Micro} (hm : ∀ k, m ≠ .xfer k) :
    s.lineStep m rest = .next (s.internal m rest) := by
  cases m <;> first | rfl | exact absurd rfl (hm _)

/-- An internal line on the controller's turn. -/
theorem Reach.line {s : State} (h : s.Enabled) {m : Micro} {rest : List Micro} (hc : s.cont = m :: rest)
    (hm : ∀ k, m ≠ .xfer k) : Reach s [.main] (s.internal m rest) := by
  refine .one fun later => ?_
  rw [step_turn h.geometry]
  show State.perform _ (State.mainMove _) = _
  rw [mainMove_line h hc, State.perform, lineStep_internal hm, internal_schedule]

theorem lineStep_frame {s t : State} {k : FrameKind} {rest : List Micro} {f : RawFrame} {i : Instr}
    (hf : frameOf s k = .ok f) (hd : decodeFrame s.params.opc f = .ok i) (he : exec i { s with cont := rest } = .next t)
    (sch : List Turn) :
    State.lineStep (.xfer k) rest { s with schedule := sch } = .next { t with schedule := sch } := by
  obtain ⟨op, addr, out, nin, hfi, -⟩ := decodeFrame_fields hd
  have e : frameOf { s with schedule := sch } k = .ok f := (frameOf_book s k sch s.cont s.delay).trans hf
  simp only [State.lineStep, e, State.frameStep, hd]
  exact exec_frame_schedule hfi he sch

/-- A frame line on the controller's turn. -/
theorem Reach.frame {s t : State} (h : s.Enabled) {k : FrameKind} {rest : List Micro} {f : RawFrame} {i : Instr}
    (hc : s.cont = .xfer k :: rest) (hf : frameOf s k = .ok f) (hd : decodeFrame s.params.opc f = .ok i)
    (he : exec i { s with cont := rest } = .next t) : Reach s [.main] t := by
  refine .one fun later => ?_
  rw [step_turn h.geometry]
  show State.perform _ (State.mainMove _) = _
  rw [mainMove_line h hc, State.perform]
  exact lineStep_frame hf hd he later

/-- A frame line that the device honours. -/
theorem Reach.honoured {s : State} (h : s.Enabled) {k : FrameKind} {rest : List Micro} {f : RawFrame} {i : Instr}
    {op : WireOp} {addr : Option Addr} {out : List Byte} {nin : Nat} (hc : s.cont = .xfer k :: rest)
    (hf : frameOf s k = .ok f) (hd : decodeFrame s.params.opc f = .ok i) (hi : frameFields i = some (op, addr, out, nin))
    (ha : s.asleep = false ∨ op = .rpd) (he : emitted op = true) (hwf : i.wellFormed s.params.capacity = true)
    (hb : s.busy = false ∨ op = .rdsr) :
    Reach s [.main] ((commandOf i { s with cont := rest }).1.logFrame (s.opc op) addr out
      (commandOf i { s with cont := rest }).2) :=
  .frame h hc hf hd (exec_honoured (s := { s with cont := rest }) hi ha he hwf hb)

/-- A frame line that a BUSY device ignores. -/
theorem Reach.ignored {s : State} (h : s.Enabled) {k : FrameKind} {rest : List Micro} {f : RawFrame} {i : Instr}
    {op : WireOp} {addr : Option Addr} {out : List Byte} {nin : Nat} (hc : s.cont = .xfer k :: rest)
    (hf : frameOf s k = .ok f) (hd : decodeFrame s.params.opc f = .ok i) (hi : frameFields i = some (op, addr, out, nin))
    (ha : s.asleep = false ∨ op = .rpd) (he : emitted op = true) (hwf : i.wellFormed s.params.capacity = true)
    (hb : s.busy = true) (hr : op ≠ .rdsr) :
    Reach s [.main] (({ s with cont := rest }.afterDraws nin).logFrame (s.opc op) addr out (s.drawBytes nin)) :=
  .frame h hc hf hd (exec_ignored (s := { s with cont := rest }) hi ha he hwf hb hr)

/-- The completion on the device's turn. -/
theorem Reach.complete {s : State} (hg : s.params.geometryOk = true) (hb : s.busy = true) :
    Reach s [.device] s.complete := by
  refine .one fun later => ?_
  rw [step_turn hg]
  simp only [State.moveOf, hb, if_true]
  rfl

/-! ### The frames of the busy-poll -/

/-- The answer to `RDSR`, BUSY or not. -/
def State.polled (s : State) (rest : List Micro) : State :=
  let status := statusByte s.params (Config.draw s.draws) s.busy s.wel
  { s with
    cont := rest
    rx := [status]
    draws := s.draws + 1
    trace := s.trace ++ [.frame (s.opc .rdsr) none [] [status]] }

theorem exec_rdsr_polled {s : State} (ha : s.asleep = false) (rest : List Micro) :
    exec (.rdsr 1) { s with cont := rest } = .next (s.polled rest) :=
  exec_honoured (s := { s with cont := rest }) rfl (.inl ha) rfl rfl (.inr rfl)

theorem busyBit_polled {s : State} (h : s.Live) (rest : List Micro) :
    busyBit s.params ((s.polled rest).rxByte 0) = s.busy :=
  busyBit_statusByte h.params _ _ _

theorem Reach.poll {s : State} (h : s.Live) {rest : List Micro} (hc : s.cont = .xfer .rdsr :: rest) :
    Reach s [.main] (s.polled rest) :=
  .frame h.enabled hc rfl (decode_rdsr h.opcodes 1) (exec_rdsr_polled h.awake rest)

/-- The test after a status read that saw BUSY = 0. -/
theorem pollTest_done {s : State} {rest : List Micro} (h : busyBit s.params (s.rxByte 0) = false) :
    s.internal .pollTest rest = { s with cont := rest } := by
  simp only [State.internal, State.pollTest, if_pos h]

/-- The test after a status read that saw BUSY = 1, below the limit. -/
theorem pollTest_again {s : State} {rest : List Micro} (h : busyBit s.params (s.rxByte 0) = true)
    (hl : pollExhausted s.params (s.pollCount + 1) = false) :
    s.internal .pollTest rest = { s with pollCount := s.pollCount + 1, cont := .xfer .rdsr :: .pollTest :: rest } := by
  simp [State.internal, State.pollTest, h, hl]

/-- The test after a status read that saw BUSY = 1, at the limit (41_status_wel.md R167). -/
theorem pollTest_timeout {s : State} {rest : List Micro} (h : busyBit s.params (s.rxByte 0) = true)
    (hl : pollExhausted s.params (s.pollCount + 1) = true) :
    s.internal .pollTest rest = { s with pollCount := s.pollCount + 1, cont := [.ret .timeout .zero false] } := by
  simp [State.internal, State.pollTest, h, hl]

/-- A busy-poll in which the device completes after `k` reads: the turns, the count and the trace. -/
theorem Reach.pollWaits (k : Nat) {s : State} (h : s.Live) (hb : s.busy = true) {rest : List Micro}
    (hc : s.cont = .xfer .rdsr :: .pollTest :: rest)
    (hl : ∀ limit, s.params.pollLimit = some limit → s.pollCount + k < limit) :
    ∃ b : Book, Reach s (List.replicate k [Turn.main, Turn.main]).flatten (s.onward s.cont b) ∧
      b.pollCount = s.pollCount + k ∧
      ∃ reads : List TraceEntry, b.trace = s.trace ++ reads ∧ reads.length = k ∧
        ∀ e ∈ reads, ∃ v, e = .frame (s.opc .rdsr) none [] [v] := by
  induction k generalizing s with
  | zero => exact ⟨s.book, .nil s, rfl, [], by simp [State.book], rfl, by simp⟩
  | succ k ih =>
    have hl0 : pollExhausted s.params (s.pollCount + 1) = false := by
      unfold pollExhausted
      cases hp : s.params.pollLimit with
      | none => rfl
      | some limit => simpa using by have := hl limit hp; omega
    have r1 := Reach.poll h hc
    have h1 : (s.polled (.pollTest :: rest)).Live := ⟨h.1, h.2, h.3, h.4⟩
    have r2 := Reach.line h1.enabled (m := .pollTest) (rest := rest) rfl (by simp)
    rw [pollTest_again (s := s.polled (.pollTest :: rest)) ((busyBit_polled h _).trans hb) hl0] at r2
    obtain ⟨b, r3, hn, reads, ht, hlen, hall⟩ := ih (s := { s.polled (.pollTest :: rest) with
      pollCount := s.pollCount + 1, cont := .xfer .rdsr :: .pollTest :: rest }) ⟨h.1, h.2, h.3, h.4⟩ hb rfl
      fun limit hp => by have := hl limit hp; show s.pollCount + 1 + k < limit; omega
    refine ⟨b, ?_, by rw [hn]; show s.pollCount + 1 + k = _; omega, _ :: reads,
      by rw [ht]; show (s.trace ++ [_]) ++ reads = _; rw [List.append_assoc]; rfl, by simp [hlen], ?_⟩
    · rw [List.replicate_succ, List.flatten_cons, hc]
      exact (r1.trans r2).trans r3
    · intro e he
      rcases List.mem_cons.mp he with rfl | he
      · exact ⟨_, rfl⟩
      · exact hall e he

/-! ### Rules shared by the two kinds of run -/

/-- A property of states that one line, one frame and one busy-poll carry backwards, whatever the
device's delay; and one frame line while the device is BUSY, from the completion before it and from the frame. -/
structure Closed (W : State → Prop) : Prop where
  line : ∀ {s : State} {m : Micro} {rest : List Micro}, s.Live → s.busy = false → s.cont = m :: rest →
    (∀ k, m ≠ .xfer k) → (∀ d, W ({ s with delay := d }.internal m rest)) → W s
  frame : ∀ {s : State} {k : FrameKind} {rest : List Micro} {f : RawFrame} {i : Instr}, s.Live → s.busy = false →
    s.cont = .xfer k :: rest → frameOf s k = .ok f → decodeFrame s.params.opc f = .ok i →
    (∀ d t, exec i { s with cont := rest, delay := d } = .next t → W t) → W s
  busyFrame : ∀ {s : State} {k : FrameKind} {rest : List Micro} {f : RawFrame} {i : Instr}, s.Live → s.busy = true →
    s.cont = .xfer k :: rest → frameOf s k = .ok f → decodeFrame s.params.opc f = .ok i → W s.complete →
    (∀ d t, exec i { s with cont := rest, delay := d } = .next t → W t) → W s
  poll : ∀ {s : State} {rest : List Micro}, s.Live → s.cont = busyPoll ++ rest →
    (∀ b : Book, OnlyPolls s.params.opc s.trace b.trace → W (s.settled.onward rest b)) → W s

/-- An internal line whose effect is known. -/
theorem Closed.lineTo {W : State → Prop} (hW : Closed W) {s : State} {m : Micro} {rest : List Micro} {g : Nat → State}
    (h : s.Live) (hb : s.busy = false) (hc : s.cont = m :: rest) (hm : ∀ k, m ≠ .xfer k)
    (he : ∀ d, ({ s with delay := d } : State).internal m rest = g d) (hw : ∀ d, W (g d)) : W s :=
  hW.line h hb hc hm fun d => by rw [he]; exact hw d

/-- A frame line whose effect is known. -/
theorem Closed.frameTo {W : State → Prop} (hW : Closed W) {s : State} {k : FrameKind} {rest : List Micro} {f : RawFrame}
    {i : Instr} {g : Nat → State} (h : s.Live) (hb : s.busy = false) (hc : s.cont = .xfer k :: rest)
    (hf : frameOf s k = .ok f) (hd : decodeFrame s.params.opc f = .ok i)
    (he : ∀ d, exec i { s with cont := rest, delay := d } = .next (g d)) (hw : ∀ d, W (g d)) : W s :=
  hW.frame h hb hc hf hd fun d t ht => by rw [he] at ht; cases ht; exact hw d

/-- Some schedule leads to an idle state in which `Q` holds. -/
def Completes (Q : State → Prop) (s : State) : Prop :=
  ∃ sch u, Reach s sch u ∧ u.ctlState = .idle ∧ Q u

theorem Completes.before {Q : State → Prop} {s t : State} {sch : List Turn} (h : Reach s sch t) :
    Completes Q t → Completes Q s := fun ⟨sch', u, hr, hu⟩ => ⟨sch ++ sch', u, h.trans hr, hu⟩

theorem pollExhausted_none {p : Params} (h : p.pollLimit = none) (n : Nat) : pollExhausted p n = false := by
  simp [pollExhausted, h]

/-- A poll whose read sees BUSY = 0. -/
theorem Reach.pollIdle {s : State} (h : s.Live) (hb : s.busy = false) {rest : List Micro}
    (hc : s.cont = .xfer .rdsr :: .pollTest :: rest) : Reach s [.main, .main] (s.polled rest) := by
  have r1 := Reach.poll h hc
  have h1 : (s.polled (.pollTest :: rest)).Live := ⟨h.1, h.2, h.3, h.4⟩
  have r2 := Reach.line h1.enabled (m := .pollTest) (rest := rest) rfl (by simp)
  rw [pollTest_done (s := s.polled (.pollTest :: rest)) ((busyBit_polled h _).trans hb)] at r2
  exact r1.trans r2

theorem Completes.closed (Q : State → Prop) : Closed (Completes Q) where
  line {s} _ _ h _ hc hm hw := .before (.line h.enabled hc hm) (hw s.delay)
  frame {s} _ _ _ i h _ hc hf hd hw := by
    obtain ⟨t, ht⟩ := exec_next i { s with cont := _ }
    exact .before (.frame h.enabled hc hf hd ht) (hw s.delay t ht)
  busyFrame {s} _ _ _ i h _ hc hf hd _ hw := by
    obtain ⟨t, ht⟩ := exec_next i { s with cont := _ }
    exact .before (.frame h.enabled hc hf hd ht) (hw s.delay t ht)
  poll {s rest} h hc hw := by
    let s1 : State := { s with pollCount := 0, cont := .xfer .rdsr :: .pollTest :: rest }
    have r1 : Reach s [.main] s1 := .line h.enabled hc (by simp)
    have h1 : s1.Live := ⟨h.1, h.2, h.3, h.4⟩
    refine .before r1 ?_
    cases hb : s.busy with
    | false =>
      have hs : s.settled = s := if_neg (by simp [hb])
      refine .before (.pollIdle h1 hb rfl) ?_
      have := hw (s1.polled rest).book (.read h.opcodes (.refl _ _) _ _)
      rwa [hs] at this
    | true =>
      have hs : s.settled = _ := if_pos hb
      have h2 : s1.complete.Live := ⟨h.1, h.2, h.3, h.4⟩
      refine .before (.complete h1.geometry hb) (.before (.pollIdle h2 rfl rfl) ?_)
      have := hw (s1.complete.polled rest).book (.read h.opcodes (.complete (.refl _ _)) _ _)
      rwa [hs] at this

/-! ### Runs under every schedule -/

/-- No run of at most `n` steps, under any schedule, stops or records a fault, and where the controller is idle `Q`
holds; for a host without a further request and an unbounded poll. -/
def SafeFor (Q : State → Prop) (n : Nat) (s : State) : Prop :=
  s.hostQueue = [] → s.params.pollLimit = none → ∀ (turns : List Turn) (k : Nat), k ≤ n →
    ∃ u, runFor k { s with schedule := turns } = .next u ∧ u.faults = [] ∧ (u.ctlState = .idle → Q u)

theorem SafeFor.mono {Q : State → Prop} {m n : Nat} {s : State} (h : m ≤ n) (hs : SafeFor Q n s) : SafeFor Q m s :=
  fun hq hp turns k hk => hs hq hp turns k (hk.trans h)

/-- `s` after the choice of a turn: other turns to come, another delay left. -/
def State.rescheduled (s : State) (turns : List Turn) (d : Nat) : State := { s with schedule := turns, delay := d }

/-- The choice of a turn changes the schedule and the delay alone. -/
theorem afterTurn_rescheduled (s : State) (turns : List Turn) :
    ∃ later d, ({ s with schedule := turns } : State).afterTurn = s.rescheduled later d := by
  cases turns with
  | nil => exact ⟨[], if s.busy then s.delay - 1 else s.delay, rfl⟩
  | cons turn later => exact ⟨later, s.delay, rfl⟩

/-- With nothing to submit and the device idle, every turn is the controller's. -/
theorem moveOf_main {s : State} (hq : s.hostQueue = []) (hb : s.busy = false) (turn : Turn) :
    s.moveOf turn = s.mainMove := by
  cases turn <;> simp [State.moveOf, hq, hb]

/-- With nothing to submit and the device BUSY, a turn is the completion or the controller's. -/
theorem moveOf_busy {s : State} (hq : s.hostQueue = []) (hb : s.busy = true) (turn : Turn) :
    s.moveOf turn = .complete ∨ s.moveOf turn = s.mainMove := by
  cases turn <;> simp [State.moveOf, hq, hb]

theorem step_rescheduled {s : State} (hg : s.params.geometryOk = true) (turns : List Turn) :
    ∃ turn later d, step { s with schedule := turns } =
      (s.rescheduled later d).perform ((s.rescheduled later d).moveOf turn) := by
  obtain ⟨later, d, he⟩ := afterTurn_rescheduled s turns
  refine ⟨({ s with schedule := turns } : State).turn, later, d, ?_⟩
  unfold step
  rw [if_pos hg, he]

/-- The first step of a run under every schedule. -/
theorem SafeFor.step {Q : State → Prop} {n : Nat} {s : State} (hg : s.params.geometryOk = true) (hf : s.faults = [])
    (hi : s.ctlState = .running)
    (h : s.hostQueue = [] → s.params.pollLimit = none → ∀ turn later d,
      ∃ t, (s.rescheduled later d).perform ((s.rescheduled later d).moveOf turn) = .next t ∧
        t.hostQueue = [] ∧ t.params.pollLimit = none ∧ SafeFor Q n t) : SafeFor Q (n + 1) s := by
  intro hq hp turns k hk
  cases k with
  | zero => exact ⟨_, rfl, hf, fun hid => by rw [show _ = s.ctlState from rfl, hi] at hid; cases hid⟩
  | succ k =>
    obtain ⟨turn, later, d, he⟩ := step_rescheduled hg turns
    obtain ⟨t, ht, hq', hp', hs⟩ := h hq hp turn later d
    obtain ⟨u, hu⟩ := hs hq' hp' t.schedule k (by omega)
    refine ⟨u, ?_, hu.2⟩
    simp only [runFor, Host.Core.run, Sys2Proof.core] at hu ⊢
    rw [he, ht]
    exact hu.1

/-- The schedule a state carries does not matter. -/
theorem SafeFor.anySchedule {Q : State → Prop} {n : Nat} {s : State} (h : SafeFor Q n s) (sch : List Turn) :
    SafeFor Q n { s with schedule := sch } := h

theorem SafeFor.zero {Q : State → Prop} {s : State} (hf : s.faults = []) (hi : s.ctlState = .running) :
    SafeFor Q 0 s := by
  intro _ _ turns k hk
  obtain rfl : k = 0 := by omega
  exact ⟨_, rfl, hf, fun hid => by rw [show _ = s.ctlState from rfl, hi] at hid; cases hid⟩

theorem internal_keeps (m : Micro) (rest : List Micro) (s : State) :
    (s.internal m rest).hostQueue = s.hostQueue ∧ (s.internal m rest).params = s.params := by
  cases m with
  | pollTest => simp only [State.internal, State.pollTest]; split_ifs <;> exact ⟨rfl, rfl⟩
  | scan => simp only [State.internal, State.scan]; split <;> exact ⟨rfl, rfl⟩
  | _ => exact ⟨rfl, rfl⟩

theorem frame_keeps {i : Instr} {op : WireOp} {addr : Option Addr} {out : List Byte} {nin : Nat}
    (h : frameFields i = some (op, addr, out, nin)) {s t : State} (he : exec i s = .next t) :
    t.hostQueue = s.hostQueue ∧ t.params = s.params := by
  obtain ⟨t', ht', heff⟩ := exec_frame_effect h s
  rw [he] at ht'
  cases ht'
  cases heff <;> exact ⟨rfl, rfl⟩

theorem settled_of_idle {s : State} (h : s.busy = false) : s.settled = s := if_neg (by simp [h])

theorem settled_of_busy {s : State} (h : s.busy = true) :
    s.settled = { s with mem := s.pending.apply s.params s.mem, busy := false, wel := false, pending := .none } :=
  if_pos h

theorem settled_busy (s : State) : s.settled.busy = false := by
  unfold State.settled
  split_ifs with h
  · rfl
  · simpa using h

/-- A state inside the busy-poll that began in `s`: at its start, before a status read, or before its test with the
status read. The number bounds the steps it still takes once the device is not BUSY. -/
inductive InPoll (s : State) (rest : List Micro) : Nat → State → Prop
  | start {base : State} (b : Book) (sch : List Turn) (hb : base = s ∨ base = s.settled)
      (ht : OnlyPolls s.params.opc s.trace b.trace) :
      InPoll s rest 3 { base.onward (.pollInit :: .xfer .rdsr :: .pollTest :: rest) b with schedule := sch }
  | read {base : State} (b : Book) (sch : List Turn) (hb : base = s ∨ base = s.settled)
      (ht : OnlyPolls s.params.opc s.trace b.trace) :
      InPoll s rest 2 { base.onward (.xfer .rdsr :: .pollTest :: rest) b with schedule := sch }
  | test {base : State} (b : Book) (sch : List Turn) (v : Byte) (hb : base = s ∨ base = s.settled)
      (ht : OnlyPolls s.params.opc s.trace b.trace) (hrx : b.rx = [v])
      (hv : busyBit s.params v = false → base.busy = false) :
      InPoll s rest (if busyBit s.params v then 3 else 1)
        { base.onward (.pollTest :: rest) b with schedule := sch }

/-- Before or after the completion, the fields a busy-poll does not change. -/
theorem settled_keeps {s base : State} (h : s.Live) (hb : base = s ∨ base = s.settled) :
    base.Live ∧ base.params = s.params ∧ base.settled = s.settled ∧ base.hostQueue = s.hostQueue ∧
      (base.busy = false → base = s.settled) := by
  cases hs : s.busy with
  | false =>
    rw [settled_of_idle hs] at hb ⊢
    obtain rfl : base = s := hb.elim id id
    exact ⟨h, rfl, settled_of_idle hs, rfl, fun _ => rfl⟩
  | true =>
    rcases hb with rfl | rfl
    · exact ⟨h, rfl, rfl, rfl, fun hb => by rw [hs] at hb; cases hb⟩
    · refine ⟨?_, ?_, settled_of_idle (settled_busy s), ?_, fun _ => rfl⟩ <;> rw [settled_of_busy hs]
      exact ⟨h.1, h.2, h.3, h.4⟩

section
variable {s p : State} {rest : List Micro} {n : Nat}

theorem InPoll.keeps (h : s.Live) (hp : InPoll s rest n p) :
    p.Live ∧ p.hostQueue = s.hostQueue ∧ p.params = s.params := by
  cases hp with
  | start b sch hb | read b sch hb | test b sch v hb =>
    obtain ⟨hl, hpar, -, hhq, -⟩ := settled_keeps h hb
    exact ⟨⟨hl.1, hl.2, hl.3, hl.4⟩, hhq, hpar⟩

/-- The choice of a turn stays in the poll. -/
theorem InPoll.rescheduled (hp : InPoll s rest n p) (turns : List Turn) (d : Nat) :
    InPoll s rest n (p.rescheduled turns d) := by
  cases hp with
  | @start base b _ hb ht => exact .start (base := base) ⟨b.rx, b.pollCount, b.draws, d, b.trace⟩ turns hb ht
  | @read base b _ hb ht => exact .read (base := base) ⟨b.rx, b.pollCount, b.draws, d, b.trace⟩ turns hb ht
  | @test base b _ v hb ht hrx hv =>
    exact .test (base := base) ⟨b.rx, b.pollCount, b.draws, d, b.trace⟩ turns v hb ht hrx hv

/-- The completion stays in the poll. -/
theorem InPoll.complete (h : s.Live) (hp : InPoll s rest n p) (hbusy : p.busy = true) :
    InPoll s rest n p.complete := by
  have e : ∀ {base : State}, base = s ∨ base = s.settled → base.busy = true → ∀ c b sch,
      ({ base.onward c b with schedule := sch } : State).complete =
        { s.settled.onward c (({ base.onward c b with schedule := sch } : State).complete).book with
          schedule := sch } := by
    intro base hb hbu c b sch
    rw [← (settled_keeps h hb).2.2.1, settled_of_busy hbu]
    rfl
  cases hp with
  | @start base b sch hb ht => rw [e hb hbusy]; exact .start _ sch (.inr rfl) ht.complete
  | @read base b sch hb ht => rw [e hb hbusy]; exact .read _ sch (.inr rfl) ht.complete
  | @test base b sch v hb ht hrx hv =>
    rw [e hb hbusy]; exact .test _ sch v (.inr rfl) ht.complete hrx fun _ => settled_busy s

/-- One line of a busy-poll without a limit: it stays in the poll, one step nearer to its end if the device is not
BUSY, or it is past the poll. -/
theorem InPoll.main (h : s.Live) (hlim : s.params.pollLimit = none) (hp : InPoll s rest n p) :
    ∃ t, p.perform p.mainMove = .next t ∧ t.schedule = p.schedule ∧ t.delay = p.delay ∧ t.busy = p.busy ∧
      ((∃ m, InPoll s rest m t ∧ (p.busy = false → m < n)) ∨
        ∃ b sch, OnlyPolls s.params.opc s.trace b.trace ∧ t = { s.settled.onward rest b with schedule := sch }) := by
  have hlive := (hp.keeps h).1
  cases hp with
  | @start base b sch hb ht =>
    refine ⟨{ base.onward (.xfer .rdsr :: .pollTest :: rest) ⟨b.rx, 0, b.draws, b.delay, b.trace⟩ with schedule := sch },
      ?_, rfl, rfl, rfl, .inl ⟨2, .read _ sch hb ht, fun _ => by omega⟩⟩
    rw [show State.mainMove _ = _ from mainMove_line hlive.enabled rfl sch]
    rfl
  | @read base b sch hb ht =>
    obtain ⟨hl, hpar, -⟩ := settled_keeps h hb
    let p : State := { base.onward (.xfer .rdsr :: .pollTest :: rest) b with schedule := sch }
    have hv : busyBit s.params (statusByte p.params (Config.draw p.draws) p.busy p.wel) = base.busy := by
      rw [← hpar]; exact busyBit_statusByte hlive.params _ _ _
    refine ⟨p.polled (.pollTest :: rest), ?_, rfl, rfl, rfl,
      .inl ⟨_, .test (base := base) (p.polled (.pollTest :: rest)).book sch _ hb ?_ rfl hv.symm.trans, fun hbu => ?_⟩⟩
    · rw [show State.mainMove _ = _ from mainMove_line hlive.enabled rfl sch]
      exact lineStep_frame (s := p) (k := .rdsr) rfl (decode_rdsr hlive.opcodes 1) (exec_rdsr_polled hlive.awake _) sch
    · have := ht.read h.opcodes [] [statusByte p.params (Config.draw p.draws) p.busy p.wel]
      rw [← hpar] at this ⊢
      exact this
    · rw [hv, show base.busy = false from hbu]
      simp
  | @test base b sch v hb ht hrx hv =>
    obtain ⟨hl, hpar, -, -, hidle⟩ := settled_keeps h hb
    let p : State := { base.onward (.pollTest :: rest) b with schedule := sch }
    have hrxp : p.rxByte 0 = v := by
      show b.rx.getD 0 _ = v
      rw [hrx]; rfl
    have hmain : p.mainMove = .line .pollTest rest := mainMove_line hlive.enabled rfl sch
    cases hv' : busyBit s.params v with
    | false =>
      refine ⟨{ p with cont := rest }, ?_, rfl, rfl, rfl, .inr ⟨b, sch, ht, ?_⟩⟩
      · rw [hmain]
        exact congrArg _ (pollTest_done (by rw [hrxp, show p.params = s.params from hpar, hv']))
      · rw [← hidle (hv hv')]; rfl
    | true =>
      refine ⟨{ p with pollCount := p.pollCount + 1, cont := .xfer .rdsr :: .pollTest :: rest }, ?_, rfl, rfl, rfl,
        .inl ⟨2, .read (base := base) ⟨b.rx, b.pollCount + 1, b.draws, b.delay, b.trace⟩ sch hb ht, fun _ => by simp⟩⟩
      rw [hmain]
      exact congrArg _ (pollTest_again (s := p) (by rw [hrxp, show p.params = s.params from hpar, hv'])
        (pollExhausted_none (by rw [show p.params = s.params from hpar]; exact hlim) _))

end

theorem SafeFor.inPoll {Q : State → Prop} {n N : Nat} {s : State} {rest : List Micro} (h : s.Live)
    (hw : ∀ b : Book, OnlyPolls s.params.opc s.trace b.trace → SafeFor Q N (s.settled.onward rest b)) (hn : n ≤ N)
    {r : Nat} {p : State} (hp : InPoll s rest r p) : SafeFor Q n p := by
  induction n generalizing r p with
  | zero => exact .zero (hp.keeps h).1.no_fault (hp.keeps h).1.running
  | succ n ih =>
    have hl := (hp.keeps h).1
    refine .step hl.geometry hl.no_fault hl.running fun hq hlim turn later d => ?_
    have hp' := hp.rescheduled later d
    obtain ⟨hq1, hpar1⟩ := (hp.keeps h).2
    have main : ∃ t, (p.rescheduled later d).perform (p.rescheduled later d).mainMove = .next t ∧ t.hostQueue = [] ∧
        t.params.pollLimit = none ∧ SafeFor Q n t := by
      obtain ⟨t, ht, -, -, -, ⟨m, hm, -⟩ | ⟨b, sch, hb, rfl⟩⟩ := hp'.main h (by rw [← hpar1]; exact hlim)
      · exact ⟨t, ht, by rw [(hm.keeps h).2.1, ← hq1]; exact hq, by rw [(hm.keeps h).2.2, ← hpar1]; exact hlim,
          ih (by omega) hm⟩
      · obtain ⟨-, hpar, -, hhq, -⟩ := settled_keeps h (.inr rfl)
        exact ⟨_, ht, hhq.trans (hq1.symm.trans hq), (congrArg Params.pollLimit hpar).trans (by rw [← hpar1]; exact hlim),
          ((hw b hb).mono (by omega)).anySchedule sch⟩
    cases hbu : p.busy with
    | false => rw [moveOf_main (s := p.rescheduled later d) hq hbu]; exact main
    | true =>
      rcases moveOf_busy (s := p.rescheduled later d) hq hbu turn with hm | hm <;> rw [hm]
      · exact ⟨_, rfl, hq, hlim, ih (by omega) (hp'.complete h hbu)⟩
      · exact main

/-- An internal line of a controller whose device is not BUSY, on any turn. -/
theorem perform_line {s : State} {m : Micro} {rest : List Micro} (h : s.Live) (hb : s.busy = false)
    (hc : s.cont = m :: rest) (hm : ∀ k, m ≠ .xfer k) (hq : s.hostQueue = []) (turn : Turn) (later : List Turn) (d : Nat) :
    (s.rescheduled later d).perform ((s.rescheduled later d).moveOf turn) =
      .next { ({ s with delay := d } : State).internal m rest with schedule := later } := by
  rw [moveOf_main (s := s.rescheduled later d) hq hb, show State.mainMove (s.rescheduled later d) = _ from
    mainMove_line (s := s.rescheduled later d) ⟨h.geometry, h.2, h.3⟩ hc later, State.perform, lineStep_internal hm,
    show s.rescheduled later d = { ({ s with delay := d } : State) with schedule := later } from rfl, internal_schedule]

/-- A frame line when the move is the controller's. -/
theorem perform_mainFrame {s t : State} {k : FrameKind} {rest : List Micro} {f : RawFrame} {i : Instr} {d : Nat}
    (h : s.Live) (hc : s.cont = .xfer k :: rest) (hf : frameOf s k = .ok f) (hd : decodeFrame s.params.opc f = .ok i)
    (ht : exec i { s with cont := rest, delay := d } = .next t) (later : List Turn) :
    (s.rescheduled later d).perform (s.rescheduled later d).mainMove = .next { t with schedule := later } := by
  rw [show State.mainMove (s.rescheduled later d) = _ from
    mainMove_line (s := s.rescheduled later d) ⟨h.geometry, h.2, h.3⟩ hc later, State.perform]
  exact lineStep_frame (s := { s with delay := d }) ((frameOf_book s k s.schedule s.cont d).trans hf) hd ht later

/-- A frame line of a controller whose device is not BUSY, on any turn. -/
theorem perform_frame {s t : State} {k : FrameKind} {rest : List Micro} {f : RawFrame} {i : Instr} {d : Nat}
    (h : s.Live) (hb : s.busy = false) (hc : s.cont = .xfer k :: rest) (hf : frameOf s k = .ok f)
    (hd : decodeFrame s.params.opc f = .ok i) (hq : s.hostQueue = [])
    (ht : exec i { s with cont := rest, delay := d } = .next t) (turn : Turn) (later : List Turn) :
    (s.rescheduled later d).perform ((s.rescheduled later d).moveOf turn) = .next { t with schedule := later } := by
  rw [moveOf_main (s := s.rescheduled later d) hq hb]
  exact perform_mainFrame h hc hf hd ht later

/-- A frame line of a controller whose device is BUSY, on any turn: the completion comes first, or the frame is sent. -/
theorem perform_busyFrame {W : State → Prop} {s : State} {k : FrameKind} {rest : List Micro} {f : RawFrame} {i : Instr}
    (h : s.Live) (hb : s.busy = true) (hc : s.cont = .xfer k :: rest) (hf : frameOf s k = .ok f)
    (hd : decodeFrame s.params.opc f = .ok i) (hq : s.hostQueue = []) (hlim : s.params.pollLimit = none)
    (hW : ∀ (t : State) (later : List Turn), W t → W { t with schedule := later }) (hcomplete : W s.complete)
    (hframe : ∀ d t, exec i { s with cont := rest, delay := d } = .next t → W t) (turn : Turn) (later : List Turn) (d : Nat) :
    ∃ t, (s.rescheduled later d).perform ((s.rescheduled later d).moveOf turn) = .next t ∧
      t.hostQueue = [] ∧ t.params.pollLimit = none ∧ W t := by
  rcases moveOf_busy (s := s.rescheduled later d) hq hb turn with hm | hm <;> rw [hm]
  · exact ⟨_, rfl, hq, hlim, hW _ later hcomplete⟩
  · obtain ⟨t, ht⟩ := exec_next i { s with cont := rest, delay := d }
    obtain ⟨_, _, _, _, hfi, -⟩ := decodeFrame_fields hd
    obtain ⟨h1, h2⟩ := frame_keeps hfi ht
    exact ⟨_, perform_mainFrame h hc hf hd ht later, h1.trans hq, (congrArg Params.pollLimit h2).trans hlim,
      hW t later (hframe d t ht)⟩

theorem onward_book {s : State} {c : List Micro} (hc : s.cont = c) :
    s = { s.onward c s.book with schedule := s.schedule } :=
  (show s = s.onward s.cont s.book from rfl).trans (congrArg (s.onward · s.book) hc)

theorem SafeFor.closed (Q : State → Prop) (n : Nat) : Closed (SafeFor Q n) where
  line {s m rest} h hb hc hm hw := by
    refine SafeFor.mono (Nat.le_succ n) (.step h.geometry h.no_fault h.running fun hq hlim turn later d => ?_)
    obtain ⟨h1, h2⟩ := internal_keeps m rest { s with delay := d }
    exact ⟨_, perform_line h hb hc hm hq turn later d, h1.trans hq, (congrArg Params.pollLimit h2).trans hlim, hw d⟩
  frame {s k rest f i} h hb hc hf hd hw := by
    refine SafeFor.mono (Nat.le_succ n) (.step h.geometry h.no_fault h.running fun hq hlim turn later d => ?_)
    obtain ⟨t, ht⟩ := exec_next i { s with cont := rest, delay := d }
    obtain ⟨_, _, _, _, hfi, -⟩ := decodeFrame_fields hd
    obtain ⟨h1, h2⟩ := frame_keeps hfi ht
    exact ⟨_, perform_frame h hb hc hf hd hq ht turn later, h1.trans hq, (congrArg Params.pollLimit h2).trans hlim,
      hw d t ht⟩
  busyFrame h hb hc hf hd hcomplete hw :=
    SafeFor.mono (Nat.le_succ n) (.step h.geometry h.no_fault h.running fun hq hlim =>
      perform_busyFrame h hb hc hf hd hq hlim (fun _ later ht => ht.anySchedule later) hcomplete hw)
  poll {s rest} h hc hw := by
    rw [onward_book hc]
    exact .inPoll h hw (Nat.le_refl n) (.start s.book s.schedule (.inl rfl) (.refl _ _))

/-- An idle machine with nothing to submit stays as it is. -/
theorem SafeFor.idle {Q : State → Prop} (hQ : ∀ (s : State) (sch : List Turn) (d : Nat), Q s → Q (s.rescheduled sch d))
    {s : State} (hg : s.params.geometryOk = true) (hi : s.ctlState = .idle) (hf : s.faults = []) (hb : s.busy = false)
    (h : Q s) (n : Nat) : SafeFor Q n s := by
  intro hq hp turns k _
  have run : ∀ (k : Nat) (sch : List Turn) (d : Nat), ∃ sch' d', runFor k (s.rescheduled sch d) = .next (s.rescheduled sch' d') := by
    intro k
    induction k with
    | zero => exact fun sch d => ⟨sch, d, rfl⟩
    | succ k ih =>
      intro sch d
      obtain ⟨turn, later, d', he⟩ := step_rescheduled (s := s.rescheduled sch d) hg sch
      obtain ⟨sch', d'', hr⟩ := ih later d'
      refine ⟨sch', d'', ?_⟩
      have hm : (s.rescheduled later d').mainMove = .wait := by
        simp [State.mainMove, State.rescheduled, hi, hq, hb]
      rw [show (s.rescheduled sch d).rescheduled later d' = s.rescheduled later d' from rfl,
        moveOf_main (s := s.rescheduled later d') hq hb, hm] at he
      simp only [runFor, Host.Core.run, Sys2Proof.core] at hr ⊢
      rw [show s.rescheduled sch d = { (s.rescheduled sch d : State) with schedule := sch } from rfl, he]
      exact hr
  obtain ⟨sch', d', hr⟩ := run k turns s.delay
  exact ⟨_, hr, hf, fun _ => hQ _ _ _ h⟩

/-! ### Every run ends -/

/-- Under every schedule the controller is idle again after some number of steps, with `Q`; for a host without a further
request and an unbounded poll (40_bus_commands.md R149; 41_status_wel.md R171). -/
def Ends (Q : State → Prop) (s : State) : Prop :=
  s.hostQueue = [] → s.params.pollLimit = none → ∀ turns : List Turn,
    ∃ k u, runFor k { s with schedule := turns } = .next u ∧ u.ctlState = .idle ∧ Q u

theorem run_succ {s t u : State} {k : Nat} (hs : step s = .next t) (hr : runFor k t = .next u) :
    runFor (k + 1) s = .next u := by
  simp only [runFor, Host.Core.run, Sys2Proof.core] at hr ⊢
  rw [hs]
  exact hr

theorem Ends.step {Q : State → Prop} {s : State} (hg : s.params.geometryOk = true)
    (h : s.hostQueue = [] → s.params.pollLimit = none → ∀ turn later d,
      ∃ t, (s.rescheduled later d).perform ((s.rescheduled later d).moveOf turn) = .next t ∧
        t.hostQueue = [] ∧ t.params.pollLimit = none ∧ Ends Q t) : Ends Q s := by
  intro hq hp turns
  obtain ⟨turn, later, d, he⟩ := step_rescheduled hg turns
  obtain ⟨t, ht, hq', hp', hs⟩ := h hq hp turn later d
  obtain ⟨k, u, hr, hu⟩ := hs hq' hp' t.schedule
  exact ⟨k + 1, u, run_succ (he.trans ht) hr, hu⟩

/-- A step while BUSY completes the operation, or takes the controller's line with less of the schedule and the delay
left. -/
theorem step_busy {s : State} (hg : s.params.geometryOk = true) (hq : s.hostQueue = []) (hb : s.busy = true)
    (turns : List Turn) :
    ∃ later d, later.length + d ≤ turns.length + s.delay ∧
      (step { s with schedule := turns } = .next (s.rescheduled later d).complete ∨
        step { s with schedule := turns } = (s.rescheduled later d).perform (s.rescheduled later d).mainMove ∧
          later.length + d < turns.length + s.delay) := by
  cases turns with
  | cons turn later =>
    refine ⟨later, s.delay, by simp, ?_⟩
    rw [step_turn hg]
    rcases moveOf_busy (s := { s with schedule := later }) hq hb turn with h | h
    · exact .inl (by rw [h]; rfl)
    · exact .inr ⟨by rw [h]; rfl, by simp⟩
  | nil =>
    refine ⟨[], s.delay - 1, by simp, ?_⟩
    have e : step { s with schedule := [] } =
        (s.rescheduled [] (s.delay - 1)).perform
          ((s.rescheduled [] (s.delay - 1)).moveOf (if s.delay = 0 then .device else .main)) := by
      have ea : ({ s with schedule := [] } : State).afterTurn = s.rescheduled [] (s.delay - 1) := by
        show ({ s with schedule := [], delay := if s.busy then s.delay - 1 else s.delay } : State) = _
        rw [if_pos hb]; rfl
      have et : ({ s with schedule := [] } : State).turn = if s.delay = 0 then .device else .main := by
        show (if s.busy = true ∧ s.delay = 0 then Turn.device else Turn.main) = _
        simp only [hb, true_and]
      unfold Machine.step
      rw [if_pos hg, ea, et]
    rw [e]
    by_cases hd : s.delay = 0
    · exact .inl (by rw [if_pos hd]; simp only [State.moveOf, State.rescheduled, hb, if_true, State.perform])
    · exact .inr ⟨by rw [if_neg hd]; rfl, by simp; omega⟩

/-- A busy-poll of a device that is not BUSY ends. -/
theorem Ends.inPollIdle {Q : State → Prop} {s : State} {rest : List Micro} (h : s.Live)
    (hw : ∀ b : Book, OnlyPolls s.params.opc s.trace b.trace → Ends Q (s.settled.onward rest b)) (r : Nat) :
    ∀ {n : Nat} {p : State}, n ≤ r → InPoll s rest n p → p.busy = false → Ends Q p := by
  induction r with
  | zero => intro n p hn hp; cases hp <;> (try split_ifs at hn) <;> omega
  | succ r ih =>
    intro n p hn hp hb
    obtain ⟨hl, hq1, hpar1⟩ := hp.keeps h
    refine .step hl.geometry fun hq hlim turn later d => ?_
    rw [moveOf_main (s := p.rescheduled later d) hq hb]
    obtain ⟨t, ht, -, -, htb, ⟨m, hm, hlt⟩ | ⟨b, sch, hbt, rfl⟩⟩ :=
      (hp.rescheduled later d).main h (by rw [← hpar1]; exact hlim)
    · have := hlt hb
      exact ⟨t, ht, by rw [(hm.keeps h).2.1, ← hq1]; exact hq, by rw [(hm.keeps h).2.2, ← hpar1]; exact hlim,
        ih (by omega) hm (htb.trans hb)⟩
    · obtain ⟨-, hpar, -, hhq, -⟩ := settled_keeps h (.inr rfl)
      exact ⟨_, ht, hhq.trans (hq1.symm.trans hq), (congrArg Params.pollLimit hpar).trans (by rw [← hpar1]; exact hlim),
        hw b hbt⟩

/-- Every busy-poll ends (R171). -/
theorem Ends.inPoll {Q : State → Prop} {s : State} {rest : List Micro} (h : s.Live)
    (hw : ∀ b : Book, OnlyPolls s.params.opc s.trace b.trace → Ends Q (s.settled.onward rest b)) {n : Nat} {p : State}
    (hp : InPoll s rest n p) : Ends Q p := by
  cases hb : p.busy with
  | false => exact .inPollIdle h hw n (Nat.le_refl n) hp hb
  | true =>
    intro hq hlim turns
    obtain ⟨m, hm⟩ : ∃ m, turns.length + p.delay ≤ m := ⟨_, Nat.le_refl _⟩
    induction m generalizing n p turns with
    | zero =>
      obtain ⟨later, d, -, hs | ⟨-, hlt⟩⟩ := step_busy (hp.keeps h).1.geometry hq hb turns
      · obtain ⟨k, u, hr, hu⟩ := Ends.inPollIdle h hw n (Nat.le_refl n) ((hp.rescheduled later d).complete h hb) rfl
          hq hlim later
        exact ⟨k + 1, u, run_succ hs hr, hu⟩
      · omega
    | succ m ih =>
      obtain ⟨later, d, -, hs | ⟨hs, hlt⟩⟩ := step_busy (hp.keeps h).1.geometry hq hb turns
      · obtain ⟨k, u, hr, hu⟩ := Ends.inPollIdle h hw n (Nat.le_refl n) ((hp.rescheduled later d).complete h hb) rfl
          hq hlim later
        exact ⟨k + 1, u, run_succ hs hr, hu⟩
      · obtain ⟨hl, hq1, hpar1⟩ := hp.keeps h
        obtain ⟨t, ht, hsch, hdel, htb, ⟨n', hm', -⟩ | ⟨b, sch, hbt, rfl⟩⟩ :=
          (hp.rescheduled later d).main h (by rw [← hpar1]; exact hlim)
        · have hq' : t.hostQueue = [] := by rw [(hm'.keeps h).2.1, ← hq1]; exact hq
          have hlim' : t.params.pollLimit = none := by rw [(hm'.keeps h).2.2, ← hpar1]; exact hlim
          obtain ⟨k, u, hr, hu⟩ := ih hm' (htb.trans hb) hq' hlim' t.schedule
            (by rw [hsch, hdel]; show later.length + d ≤ m; omega)
          exact ⟨k + 1, u, run_succ (hs.trans ht) hr, hu⟩
        · obtain ⟨-, hpar, -, hhq, -⟩ := settled_keeps h (.inr rfl)
          obtain ⟨k, u, hr, hu⟩ := hw b hbt (hhq.trans (hq1.symm.trans hq))
            ((congrArg Params.pollLimit hpar).trans (by rw [← hpar1]; exact hlim)) sch
          exact ⟨k + 1, u, run_succ (hs.trans ht) hr, hu⟩

theorem Ends.closed (Q : State → Prop) : Closed (Ends Q) where
  line {s m rest} h hb hc hm hw := .step h.geometry fun hq hlim turn later d => by
    obtain ⟨h1, h2⟩ := internal_keeps m rest { s with delay := d }
    exact ⟨_, perform_line h hb hc hm hq turn later d, h1.trans hq, (congrArg Params.pollLimit h2).trans hlim, hw d⟩
  frame {s k rest f i} h hb hc hf hd hw := .step h.geometry fun hq hlim turn later d => by
    obtain ⟨t, ht⟩ := exec_next i { s with cont := rest, delay := d }
    obtain ⟨_, _, _, _, hfi, -⟩ := decodeFrame_fields hd
    obtain ⟨h1, h2⟩ := frame_keeps hfi ht
    exact ⟨_, perform_frame h hb hc hf hd hq ht turn later, h1.trans hq, (congrArg Params.pollLimit h2).trans hlim,
      hw d t ht⟩
  busyFrame h hb hc hf hd hcomplete hw :=
    .step h.geometry fun hq hlim =>
      perform_busyFrame h hb hc hf hd hq hlim (fun _ _ ht => ht) hcomplete hw
  poll {s rest} h hc hw := by
    rw [onward_book hc]
    exact .inPoll h hw (.start s.book s.schedule (.inl rfl) (.refl _ _))

/-- An idle machine has ended. -/
theorem Ends.idle {Q : State → Prop} {s : State} (hi : s.ctlState = .idle) (h : ∀ sch, Q { s with schedule := sch }) :
    Ends Q s := fun _ _ turns => ⟨0, _, rfl, hi, h turns⟩

/-- What every `Closed` property gives of the state after a first turn holds of the runs that begin with that turn: the
controller becomes idle again, no step stops or records a fault, and where it is idle `Q` holds. -/
theorem runs_after_first {Q : State → Prop} {s t : State} {first : Turn} {turns : List Turn} (h : s.Live)
    (hq : t.hostQueue = []) (hl : t.params.pollLimit = none)
    (hs : step { s with schedule := first :: turns } = .next { t with schedule := turns })
    (hany : ∀ {W : State → Prop}, Closed W → (∀ u, u.params.geometryOk = true → u.ctlState = .idle →
      (∀ sch d, Q (u.rescheduled sch d)) → u.faults = [] → u.busy = false → W u) → W t) :
    (∃ k u, runFor k { s with schedule := first :: turns } = .next u ∧ u.ctlState = .idle) ∧
      ∀ k, ∃ u, runFor k { s with schedule := first :: turns } = .next u ∧ u.faults = [] ∧ (u.ctlState = .idle → Q u) := by
  constructor
  · obtain ⟨k, u, h1, h2, -⟩ := hany (Ends.closed Q) (fun u _ hi hu _ _ => .idle hi fun sch => hu sch u.delay) hq hl turns
    exact ⟨k + 1, u, run_succ hs h1, h2⟩
  · intro k
    cases k with
    | zero => exact ⟨_, rfl, h.no_fault, fun hi => by rw [show _ = s.ctlState from rfl, h.running] at hi; cases hi⟩
    | succ k =>
      obtain ⟨u, h1, h2, h3⟩ := hany (SafeFor.closed (fun u => ∀ sch d, Q (u.rescheduled sch d)) k)
        (fun u hg hi hu hf hb => .idle (fun _ _ _ hs sch d => hs sch d) hg hi hf hb hu k) hq hl turns k (Nat.le_refl k)
      exact ⟨u, run_succ hs h1, h2, fun hi => h3 hi u.schedule u.delay⟩

end Sys2Proof.Machine
end

