-- ==== Sys2Proof/Laws/Walks.lean ====
section
/-! SUPPORT. What the shared pieces of pseudocode compute, for every `Closed` property of states: a gated program or
erase (41_status_wel.md R168), the page walk (43_read_write.md R215, R216), and the buffers of the smart write (R202
to R204). -/

namespace Sys2Proof.Machine

/-! ### Slices and buffers -/

theorem slice_length {α : Type} (l : List α) (i n : Nat) (h : i + n ≤ l.length) : (slice l i n).length = n := by
  simp only [slice, List.length_take, List.length_drop]; omega

theorem slice_getElem? {α : Type} (l : List α) (i n j : Nat) :
    (slice l i n)[j]? = if j < n then l[i + j]? else none := by
  simp [slice, List.getElem?_take]

theorem slice_map {α β : Type} (f : α → β) (l : List α) (i n : Nat) : slice (l.map f) i n = (slice l i n).map f := by
  simp [slice]

theorem slice_append_drop {α : Type} (l : List α) (i n : Nat) : slice l i n ++ l.drop (i + n) = l.drop i := by
  rw [slice, ← List.drop_drop, List.take_append_drop]

theorem overlay_length {α : Type} (buf : List α) (i : Nat) (xs : List α) (h : i + xs.length ≤ buf.length) :
    (overlay buf i xs).length = buf.length := by
  simp only [overlay, List.length_take, List.length_append, List.length_drop]; omega

theorem overlay_getElem? {α : Type} (buf : List α) (i : Nat) (xs : List α) (j : Nat) (h : i + xs.length ≤ buf.length) :
    (overlay buf i xs)[j]? = if i ≤ j ∧ j < i + xs.length then xs[j - i]? else buf[j]? := by
  have hlen : (buf.take i).length = i := by simp; omega
  rw [overlay, List.getElem?_take, List.append_assoc]
  by_cases hj : j < buf.length
  · rw [if_pos hj]
    by_cases h1 : j < i
    · rw [List.getElem?_append_left (by omega), if_neg (by omega), List.getElem?_take, if_pos h1]
    · rw [List.getElem?_append_right (by omega), hlen]
      by_cases h2 : j < i + xs.length
      · rw [List.getElem?_append_left (by omega), if_pos (by omega)]
      · rw [List.getElem?_append_right (by omega), if_neg (by omega), List.getElem?_drop]
        congr 1; omega
  · rw [if_neg hj, if_neg (by omega), List.getElem?_eq_none (by omega)]

theorem overlay_map {α β : Type} (f : α → β) (buf : List α) (i : Nat) (xs : List α) :
    overlay (buf.map f) i (xs.map f) = (overlay buf i xs).map f := by
  simp [overlay, List.map_take, List.map_drop]

/-- Overlaying a whole buffer. -/
theorem overlay_all {α : Type} (buf xs : List α) (h : xs.length = buf.length) : overlay buf 0 xs = xs := by
  simp [overlay, h]

theorem takeWhile_isSome_map {α : Type} (l : List α) : (l.map some).takeWhile Option.isSome = l.map some := by
  induction l with
  | nil => rfl
  | cons a l ih => simp [ih]

/-- Reading scratch bytes that are all written. -/
theorem scratchRead_written {s : State} {l : List Byte} (hs : s.scratch = l.map some) (i n : Nat)
    (h : i + n ≤ l.length) : scratchRead s i n = .ok (slice l i n) := by
  have hw : (slice s.scratch i n).takeWhile Option.isSome = (slice l i n).map some := by
    rw [hs, slice_map, takeWhile_isSome_map]
  simp only [scratchRead, hw, List.length_map, slice_length l i n h, if_true]
  simp [List.filterMap_map]

theorem Memory.program_append (m : Memory) (a : Nat) (d e : List Byte) :
    m.program a (d ++ e) = (m.program a d).program (a + d.length) e := by
  induction d generalizing m a with
  | nil => rfl
  | cons b d ih =>
    rw [List.cons_append, Memory.program, Memory.program, ih, List.length_cons,
      show a + 1 + d.length = a + (d.length + 1) by omega]

/-! ### The page split -/

theorem pieceLen_pos {a n i : Nat} (h : i < n) : 1 ≤ pieceLen a n i := by
  have : (a + i) % 256 < 256 := Nat.mod_lt _ (by omega)
  simp only [pieceLen, Config.page]; omega

theorem pieceLen_rest {a n i : Nat} : pieceLen a n i ≤ n - i := by
  simp only [pieceLen]; omega

theorem pieceLen_page {a n i : Nat} : (a + i) % 256 + pieceLen a n i ≤ 256 := by
  have : (a + i) % 256 < 256 := Nat.mod_lt _ (by omega)
  simp only [pieceLen, Config.page]; omega

/-! ### A gated program or erase -/

/-- `s` once the operation `p` has been started and completed. -/
def State.performed (s : State) (p : Pending) : State :=
  { s with mem := p.apply s.params s.mem, wel := false, pending := .none }

theorem frameOf_onward (s : State) (k : FrameKind) (rest : List Micro) (b : Book) (w : Bool) :
    frameOf ({ s with wel := w }.onward rest b) k = frameOf s k := by
  cases k with
  | erase t => cases t <;> rfl
  | page w => cases w <;> rfl
  | _ => rfl

theorem exec_started {i : Instr} {op : WireOp} {addr : Option Addr} {out : List Byte} {p : Pending} {s : State}
    (hi : frameFields i = some (op, addr, out, 0)) (hop : isGatedOp op = true) (ha : s.asleep = false)
    (hb : s.busy = false) (hw : s.wel = true) (hwf : i.wellFormed s.params.capacity = true)
    (hc : commandOf i s = (s.startOp p, [])) :
    exec i s = .next ({ s with busy := true, pending := p }.logFrame (s.opc op) addr out []) := by
  have he : emitted op = true := by cases op <;> first | rfl | cases hop
  rw [exec_honoured hi (.inl ha) he hwf (.inl hb), hc]
  simp [State.startOp, hw]

theorem exec_wren_enabled {s : State} (ha : s.asleep = false) (hb : s.busy = false) :
    exec .wren s = .next ({ s with wel := true }.logFrame (s.opc .wren) none [] []) :=
  exec_honoured (i := .wren) rfl (.inl ha) rfl rfl (.inl hb)

/-- The trace `after` holds as many sector erases as `before`. -/
def SameErases (t : Opcodes) (before after : List TraceEntry) : Prop :=
  countFrames t .se after = countFrames t .se before

theorem SameErases.refl (t : Opcodes) (l : List TraceEntry) : SameErases t l l := rfl

theorem SameErases.frame {t : Opcodes} (ht : t.distinct = true) {op : WireOp} (hop : op ≠ .se) {a l : List TraceEntry}
    (h : SameErases t a l) (addr : Option Addr) (out inn : List Byte) :
    SameErases t a (l ++ [.frame (op.byte t) addr out inn]) := by
  unfold SameErases
  rw [countFrames_append, countFrames_frame ht, if_neg hop, Nat.add_zero]
  exact h

/-- `Gated(f)` (R168): the whole effect of the operation, whatever the poll does; no sector erase but its own is sent. -/
theorem Closed.gated {W : State → Prop} (hW : Closed W) {s : State} {k : FrameKind} {rest : List Micro} {f : RawFrame}
    {i : Instr} {op : WireOp} {addr : Option Addr} {out : List Byte} {p : Pending} (h : s.Live) (hb : s.busy = false)
    (hc : s.cont = gated k ++ rest) (hf : frameOf s k = .ok f) (hd : decodeFrame s.params.opc f = .ok i)
    (hi : frameFields i = some (op, addr, out, 0)) (hop : isGatedOp op = true)
    (hwf : i.wellFormed s.params.capacity = true) (hcmd : ∀ t, commandOf i t = (t.startOp p, []))
    (hw : ∀ b : Book, (op ≠ .se → SameErases s.params.opc s.trace b.trace) → W ((s.performed p).onward rest b)) :
    W s := by
  refine hW.frame (k := .wren) (rest := .xfer k :: (busyPoll ++ rest)) h hb hc rfl (decode_wren h.opcodes) fun d t ht => ?_
  have e1 := exec_wren_enabled (s := { s with cont := .xfer k :: (busyPoll ++ rest), delay := d }) h.awake hb
  obtain rfl := Host.Outcome.next.inj (ht.symm.trans e1)
  refine hW.frame (k := k) (rest := busyPoll ++ rest) ⟨h.1, h.2, h.3, h.4⟩ hb rfl
    ((frameOf_onward s k (.xfer k :: (busyPoll ++ rest)) ⟨[], s.pollCount, s.draws, d, s.trace ++ [.frame (s.opc .wren) none [] []]⟩ true).trans hf)
    hd fun d' t ht => ?_
  obtain rfl := Host.Outcome.next.inj (ht.symm.trans (exec_started hi hop h.awake hb rfl hwf (hcmd _)))
  refine hW.poll (rest := rest) ⟨h.1, h.2, h.3, h.4⟩ rfl fun b hpoll => ?_
  rw [settled_of_busy rfl]
  have hsent (hne : op ≠ .se) : SameErases s.params.opc s.trace
      ((s.trace ++ [.frame (s.opc .wren) none [] []]) ++ [.frame (s.opc op) addr out []]) :=
    .frame h.opcodes hne (.frame h.opcodes (op := .wren) (by simp) (.refl _ _) none [] []) addr out []
  have := hw b fun hne => (hpoll .se (by simp)).trans (hsent hne)
  simp only [State.performed, State.onward, State.logFrame, hb] at this ⊢
  exact this

theorem frameOf_complete (s : State) (k : FrameKind) : frameOf s.complete k = frameOf s k := by
  cases k with
  | erase t => cases t <;> rfl
  | page w => cases w <;> rfl
  | _ => rfl

/-- A program or erase frame without the write-enable latch has no effect (41_status_wel.md R164). -/
theorem exec_ungated {i : Instr} {op : WireOp} {addr : Option Addr} {out : List Byte} {p : Pending} {s : State}
    (hi : frameFields i = some (op, addr, out, 0)) (hop : isGatedOp op = true) (ha : s.asleep = false)
    (hb : s.busy = false) (hw : s.wel = false) (hwf : i.wellFormed s.params.capacity = true)
    (hc : commandOf i s = (s.startOp p, [])) : exec i s = .next (s.logFrame (s.opc op) addr out []) := by
  have he : emitted op = true := by cases op <;> first | rfl | cases hop
  rw [exec_honoured hi (.inl ha) he hwf (.inl hb), hc]
  simp [State.startOp, hw]

/-- `Gated(f)` after a `WREN` that a BUSY device ignored: whether the earlier operation completes before the frame or
in the poll, the frame has no effect of its own (41_status_wel.md R172). -/
theorem Closed.gatedLost {W : State → Prop} (hW : Closed W) {s : State} {k : FrameKind} {rest : List Micro} {f : RawFrame}
    {i : Instr} {op : WireOp} {addr : Option Addr} {p : Pending} (h : s.Live) (hb : s.busy = true)
    (hc : s.cont = .xfer k :: (busyPoll ++ rest)) (hf : frameOf s k = .ok f) (hd : decodeFrame s.params.opc f = .ok i)
    (hi : frameFields i = some (op, addr, [], 0)) (hop : isGatedOp op = true)
    (hwf : i.wellFormed s.params.capacity = true) (hcmd : ∀ t, commandOf i t = (t.startOp p, []))
    (hw : ∀ b : Book, W (s.settled.onward rest b)) : W s := by
  rw [settled_of_busy hb] at hw
  have hl : s.complete.Live := ⟨h.1, h.2, h.3, h.4⟩
  refine hW.busyFrame h hb hc hf hd ?_ fun d t ht => ?_
  · refine hW.frame hl rfl hc ((frameOf_complete s k).trans hf) hd fun d t ht => ?_
    obtain rfl := Host.Outcome.next.inj (ht.symm.trans (exec_ungated hi hop h.awake rfl rfl hwf (hcmd _)))
    refine hW.poll (rest := rest) ⟨h.1, h.2, h.3, h.4⟩ rfl fun b _ => ?_
    rw [settled_of_idle rfl]
    exact hw b
  · have he : emitted op = true := by cases op <;> first | rfl | cases hop
    have hr : op ≠ .rdsr := by rintro rfl; cases hop
    obtain rfl := Host.Outcome.next.inj (ht.symm.trans (exec_ignored hi (.inl h.awake) he hwf hb hr))
    refine hW.poll (rest := rest) ⟨h.1, h.2, h.3, h.4⟩ rfl fun b _ => ?_
    rw [settled_of_busy]
    · exact hw b
    · exact hb

/-! ### The page walk -/

theorem walkPiece_congr {s t : State} (h1 : t.params = s.params) (h2 : t.req = s.req) (h3 : t.curAddr = s.curAddr)
    (h4 : t.bufOff = s.bufOff) (h5 : t.secBase = s.secBase) (h6 : t.chunk = s.chunk) (h7 : t.scratch = s.scratch)
    (h8 : t.pgOff = s.pgOff) (w : PageWalk) : walkPiece t w = walkPiece s w := by
  cases w with
  | raw => simp [walkPiece, walkPieceLen, walkBase, walkLen, h2, h8]
  | direct src => cases src <;> simp [walkPiece, walkPieceLen, walkBase, walkLen, srcBytes, h1, h2, h3, h4, h6, h8]
  | merged => simp [walkPiece, walkPieceLen, walkBase, walkLen, scratchRead, h5, h7, h8]

/-- `ProgramPages` from its test on (R216): the rest of the source is programmed, whatever the polls do. -/
theorem Closed.pageLoop {W : State → Prop} (hW : Closed W) (w : PageWalk) (src : List Byte) (rest : List Micro) (m : Nat) :
    ∀ {s : State} {i : Nat}, s.Live → s.busy = false → s.cont = .pageTest w :: rest → s.pgOff.toNat = i →
      i ≤ walkLen s w → walkLen s w - i ≤ m → src.length = walkLen s w → walkLen s w < 2 ^ 32 →
      walkBase s w + walkLen s w ≤ s.params.capacity →
      (∀ j, j < walkLen s w → walkPiece { s with pgOff := BitVec.ofNat 32 j } w =
        .ok (slice src j (pieceLen (walkBase s w) (walkLen s w) j))) →
      (∀ (b : Book) (wel : Bool) (p : Pending) (o : BitVec 32), SameErases s.params.opc s.trace b.trace → W ({ s with
          mem := s.mem.program (walkBase s w + i) (src.drop i), wel := wel, pending := p, pgOff := o }.onward rest b)) →
      W s := by
  induction m with
  | zero =>
    intro s i h hb hc hi hle hm hlen h32 hcap hsrc hw
    obtain rfl : i = walkLen s w := by omega
    refine hW.line h hb hc (by simp) fun d => ?_
    have e : ({ s with delay := d } : State).internal (.pageTest w) rest = { s with delay := d, cont := rest } := by
      have : ¬ s.pgOff.toNat < walkLen { s with delay := d } w := by
        rw [show walkLen { s with delay := d } w = walkLen s w by cases w <;> rfl]; omega
      simp only [State.internal, if_neg this]
    rw [e]
    have := hw ⟨s.rx, s.pollCount, s.draws, d, s.trace⟩ s.wel s.pending s.pgOff (.refl _ _)
    rwa [List.drop_of_length_le (by omega)] at this
  | succ m ih =>
    intro s i h hb hc hi hle hm hlen h32 hcap hsrc hw
    by_cases hlt : i < walkLen s w
    · refine hW.line h hb hc (by simp) fun d => ?_
      have ewl : walkLen { s with delay := d } w = walkLen s w := by cases w <;> rfl
      have e : ({ s with delay := d } : State).internal (.pageTest w) rest =
          { s with delay := d, cont := Machine.gated (.page w) ++ (.pageNext w :: .pageTest w :: rest) } := by
        simp only [State.internal, ewl, hi, if_pos hlt, pageIteration, List.append_assoc]
        rfl
      rw [e]
      have hcap24 := (Params.wf_capacity h.params).2
      set base := walkBase s w with hbase
      set len := walkLen s w with hlen'
      set n := pieceLen base len i with hn
      have hpos : 1 ≤ n := pieceLen_pos hlt
      have hrest : n ≤ len - i := pieceLen_rest
      have hpage : (base + i) % 256 + n ≤ 256 := pieceLen_page
      have hpiece : walkPiece s w = .ok (slice src i n) := by
        have e : walkPiece { s with pgOff := BitVec.ofNat 32 i } w = walkPiece s w :=
          walkPiece_congr (s := s) (t := { s with pgOff := BitVec.ofNat 32 i }) rfl rfl rfl rfl rfl rfl rfl
            (by show BitVec.ofNat 32 i = s.pgOff; rw [← hi, BitVec.ofNat_toNat, BitVec.setWidth_eq]) w
        exact e.symm.trans (hsrc i hlt)
      have hslen : (slice src i n).length = n := slice_length src i n (by omega)
      have haddr : (toAddr (base + i)).toNat = base + i := by
        simp only [toAddr, BitVec.toNat_ofNat]; omega
      have hframe : frameOf { s with delay := d, cont := Machine.gated (.page w) ++ (.pageNext w :: .pageTest w :: rest) } (.page w) =
          .ok (rawFrame s.params.opc .pp (some (toAddr (base + i))) (slice src i n) 0) := by
        rw [frameOf_book s (.page w) s.schedule _ d]
        simp only [frameOf, hpiece, hi, ← hbase]
      refine hW.gated (rest := .pageNext w :: .pageTest w :: rest) (p := .program (toAddr (base + i)) (slice src i n))
        ⟨h.1, h.2, h.3, h.4⟩ hb rfl hframe (decode_pp h.opcodes _ _) rfl rfl ?_ (fun _ => rfl) fun b hse => ?_
      · simp only [Instr.wellFormed, Bool.and_eq_true, decide_eq_true_eq, hslen, haddr, Config.page]
        exact ⟨⟨⟨hpos, by omega⟩, hpage⟩, by show base + i + n ≤ s.params.capacity; omega⟩
      · let s2 : State := ({ s with delay := d }.performed (.program (toAddr (base + i)) (slice src i n))).onward
          (.pageNext w :: .pageTest w :: rest) b
        refine hW.line (s := s2) (m := .pageNext w) (rest := .pageTest w :: rest) ⟨h.1, h.2, h.3, h.4⟩ hb rfl (by simp)
          fun d2 => ?_
        have ebase : walkBase { s2 with delay := d2 } w = base := by cases w <;> rfl
        have elen : walkLen { s2 with delay := d2 } w = len := by cases w <;> rfl
        have e3 : ({ s2 with delay := d2 } : State).internal (.pageNext w) (.pageTest w :: rest) =
            { s2 with delay := d2, pgOff := BitVec.ofNat 32 (i + n), cont := .pageTest w :: rest } := by
          have en : walkPieceLen { s2 with delay := d2 } w = n := by
            rw [walkPieceLen, ebase, elen]
            exact congrArg (pieceLen base len) hi
          show ({ s2 with delay := d2, pgOff := BitVec.ofNat 32 (s.pgOff.toNat + walkPieceLen { s2 with delay := d2 } w), cont := .pageTest w :: rest } : State) = _
          rw [en, hi]
        show W (({ s2 with delay := d2 } : State).internal (.pageNext w) (.pageTest w :: rest))
        rw [e3]
        refine ih (i := i + n) ⟨h.1, h.2, h.3, h.4⟩ hb rfl ?_ ?_ ?_ ?_ ?_ ?_ ?_ ?_
        all_goals first
          | (rw [show walkLen _ w = len by cases w <;> rfl]; omega)
          | skip
        · show (BitVec.ofNat 32 (i + n)).toNat = i + n
          rw [BitVec.toNat_ofNat]; omega
        · rw [show walkLen _ w = len by cases w <;> rfl, show walkBase _ w = base by cases w <;> rfl]; exact hcap
        · intro j hj
          rw [show walkLen _ w = len by cases w <;> rfl] at hj ⊢
          rw [show walkBase _ w = base by cases w <;> rfl, ← hsrc j hj]
          exact walkPiece_congr rfl rfl rfl rfl rfl rfl rfl rfl w
        · intro b' wel p o hse'
          rw [show walkBase _ w = base by cases w <;> rfl]
          have := hw b' wel p o (Eq.trans hse' (hse (by simp)))
          rw [← slice_append_drop src i n, Memory.program_append, hslen] at this
          simp only [s2, State.performed, State.onward, Pending.apply, haddr] at this ⊢
          rw [show base + (i + n) = base + i + n by omega]
          exact this
    · exact hW.line h hb hc (by simp) fun d => by
        obtain rfl : i = walkLen s w := by omega
        have e : ({ s with delay := d } : State).internal (.pageTest w) rest = { s with delay := d, cont := rest } := by
          have : ¬ s.pgOff.toNat < walkLen { s with delay := d } w := by
            rw [show walkLen { s with delay := d } w = walkLen s w by cases w <;> rfl]; omega
          simp only [State.internal, if_neg this]
        rw [e]
        have := hw ⟨s.rx, s.pollCount, s.draws, d, s.trace⟩ s.wel s.pending s.pgOff (.refl _ _)
        rwa [List.drop_of_length_le (by omega)] at this

/-- `ProgramPages(src, a, n)` (R216): the whole source is programmed. -/
theorem Closed.pages {W : State → Prop} (hW : Closed W) (w : PageWalk) (src : List Byte) (rest : List Micro) {s : State}
    (h : s.Live) (hb : s.busy = false) (hc : s.cont = programPages w ++ rest) (hlen : src.length = walkLen s w)
    (h32 : walkLen s w < 2 ^ 32) (hcap : walkBase s w + walkLen s w ≤ s.params.capacity)
    (hsrc : ∀ j, j < walkLen s w → walkPiece { s with pgOff := BitVec.ofNat 32 j } w =
      .ok (slice src j (pieceLen (walkBase s w) (walkLen s w) j)))
    (hw : ∀ (b : Book) (wel : Bool) (p : Pending) (o : BitVec 32), SameErases s.params.opc s.trace b.trace → W ({ s with
      mem := s.mem.program (walkBase s w) src, wel := wel, pending := p, pgOff := o }.onward rest b)) : W s := by
  refine hW.line (m := .pageInit) (rest := .pageTest w :: rest) h hb hc (by simp) fun d => ?_
  let s1 : State := { s with delay := d, pgOff := 0, cont := .pageTest w :: rest }
  have ebase : walkBase s1 w = walkBase s w := by cases w <;> rfl
  have elen : walkLen s1 w = walkLen s w := by cases w <;> rfl
  refine hW.pageLoop w src rest (walkLen s w) (s := s1) (i := 0) ⟨h.1, h.2, h.3, h.4⟩ hb rfl rfl (Nat.zero_le _)
    (by omega) (by omega) (by omega) (by rw [ebase, elen]; exact hcap) (fun j hj => ?_) fun b wel p o hse => ?_
  · rw [ebase, elen, ← hsrc j (by omega)]
    exact walkPiece_congr rfl rfl rfl rfl rfl rfl rfl rfl w
  · rw [ebase, Nat.add_zero]
    exact hw b wel p o hse

/-! ### One chunk of the smart write -/

theorem slice_slice {α : Type} (l : List α) (i n j m : Nat) (h : j + m ≤ n) :
    slice (slice l i n) j m = slice l (i + j) m := by
  apply List.ext_getElem?
  intro k
  rw [slice_getElem?, slice_getElem?, slice_getElem?]
  by_cases hk : k < m
  · rw [if_pos hk, if_pos hk, if_pos (by omega), Nat.add_assoc]
  · rw [if_neg hk, if_neg hk]

/-- The fields no line of the smart write changes, and the device idle again. -/
structure Kept (s t : State) : Prop where
  params : t.params = s.params
  hostQueue : t.hostQueue = s.hostQueue
  req : t.req = s.req
  ctlState : t.ctlState = s.ctlState
  faults : t.faults = s.faults
  refused : t.refused = s.refused
  asleep : t.asleep = s.asleep
  busy : t.busy = s.busy
  idWord : t.idWord = s.idWord

theorem Kept.trans {s t u : State} (h : Kept s t) (k : Kept t u) : Kept s u :=
  ⟨k.1.trans h.1, k.2.trans h.2, k.3.trans h.3, k.4.trans h.4, k.5.trans h.5, k.6.trans h.6, k.7.trans h.7,
    k.8.trans h.8, k.9.trans h.9⟩

theorem Kept.live {s t : State} (h : Kept s t) (hs : s.Live) : t.Live :=
  ⟨h.1 ▸ hs.1, h.4.trans hs.2, h.5.trans hs.3, h.7.trans hs.4⟩

/-- The registers of a chunk (R201), as numbers. -/
structure ChunkRegs (s t : State) : Prop where
  curAddr : t.curAddr = s.curAddr
  remLen : t.remLen = s.remLen
  bufOff : t.bufOff = s.bufOff
  secBase : t.secBase.toNat = s.curAddr.toNat - s.curAddr.toNat % 4096
  off : t.off.toNat = s.curAddr.toNat % 4096
  chunk : t.chunk.toNat = min s.remLen.toNat (4096 - s.curAddr.toNat % 4096)

/-- The sector of an address inside the array lies inside the array. -/
theorem sector_inside {c a : Nat} (hc : c % 65536 = 0) (ha : a < c) : a - a % 4096 + 4096 ≤ c := by omega

theorem exec_read_bytes {s : State} {a : Addr} {n : Nat} {bytes : List Byte} (ha : s.asleep = false)
    (hb : s.busy = false) (hn : 1 ≤ n) (hc : a.toNat + n ≤ s.params.capacity)
    (hbytes : bytes = s.mem.readBytes a.toNat n) :
    exec (.wireRead a n) s = .next (s.logFrame (s.opc .read) (some a) [] bytes) := by
  subst hbytes
  exact exec_honoured (i := .wireRead a n) rfl (.inl ha) rfl (by simp [Instr.wellFormed, hn, hc]) (.inl hb)

theorem internal_fillScratch {t : State} {bytes : List Byte} (hrx : t.rx = bytes)
    (hlen : t.scratch.length = bytes.length) (rest : List Micro) :
    t.internal .fillScratch rest = { t with scratch := bytes.map some, cont := rest } := by
  simp only [State.internal, hrx, overlay_all t.scratch (bytes.map some) (by simp [hlen])]

theorem internal_scan {t : State} {bytes : List Byte} (hs : t.scratch = bytes.map some)
    (hlen : t.off.toNat + t.chunk.toNat ≤ bytes.length) (rest : List Micro) :
    t.internal .scan rest =
      { t with needErase := eraseRequired (slice bytes t.off.toNat t.chunk.toNat), cont := rest } := by
  simp only [State.internal, State.scan, scratchRead_written hs _ _ hlen]

/-- Steps 1 to 3 of a chunk: the registers, the sector in the scratch buffer, and the erase decision. -/
theorem Closed.chunkHead {W : State → Prop} (hW : Closed W) (src : DataSrc) (rest : List Micro) {s : State}
    (h : s.Live) (hb : s.busy = false) (hc : s.cont = .writeTest src :: rest) (hrem : 0 < s.remLen.toNat)
    (hin : s.curAddr.toNat < s.params.capacity) (hscr : s.scratch.length = Config.sector)
    (hw : ∀ u : State, Kept s u → ChunkRegs s u → u.mem = s.mem → SameErases s.params.opc s.trace u.trace →
      u.scratch = (s.mem.readBytes u.secBase.toNat Config.sector).map some →
      u.needErase = eraseRequired (slice (s.mem.readBytes u.secBase.toNat Config.sector) u.off.toNat u.chunk.toNat) →
      u.cont = .branch src :: .advance :: .writeTest src :: rest → W u) : W s := by
  obtain ⟨hc1, hc2⟩ := Params.wf_capacity h.params
  have hmod : s.curAddr.toNat % 4096 < 4096 := Nat.mod_lt _ (by omega)
  refine hW.line h hb hc (by simp) fun d => ?_
  let s1 : State := { s with delay := d, cont := chunkIteration src ++ rest }
  have e1 : ({ s with delay := d } : State).internal (.writeTest src) rest = s1 := by
    simp only [State.internal, if_pos hrem]; rfl
  rw [e1]
  refine hW.line (s := s1) (m := .chunkInit) ⟨h.1, h.2, h.3, h.4⟩ hb rfl (by simp) fun d => ?_
  let s2 : State := { s1.chunkInit with delay := d, cont := .xfer .readSector :: .fillScratch :: .scan :: .branch src :: .advance :: .writeTest src :: rest }
  show W s2
  have hregs : ChunkRegs s s2 := by
    refine ⟨rfl, rfl, rfl, ?_, ?_, ?_⟩
    · show (BitVec.ofNat 24 (alignDown s.curAddr.toNat 4096)).toNat = _
      rw [BitVec.toNat_ofNat, alignDown]; omega
    · show (BitVec.ofNat 12 (s.curAddr.toNat % 4096)).toNat = _
      rw [BitVec.toNat_ofNat]; omega
    · show (BitVec.ofNat 13 (min s.remLen.toNat (4096 - s.curAddr.toNat % 4096))).toNat = _
      rw [BitVec.toNat_ofNat]; omega
  have hin2 : s2.secBase.toNat + 4096 ≤ s.params.capacity := by
    rw [hregs.secBase]; exact sector_inside hc1 hin
  obtain ⟨bytes, hbytes⟩ : ∃ l, l = s.mem.readBytes s2.secBase.toNat Config.sector := ⟨_, rfl⟩
  have hlen : bytes.length = Config.sector := by rw [hbytes, Memory.readBytes_length]
  have hfit : s2.off.toNat + s2.chunk.toNat ≤ bytes.length := by
    rw [hlen, hregs.off, hregs.chunk, Config.sector]; omega
  refine hW.frameTo (s := s2) (k := .readSector) ⟨h.1, h.2, h.3, h.4⟩ hb rfl rfl (decode_read h.opcodes _ _)
    (fun d => exec_read_bytes h.awake hb (by decide) hin2 hbytes) fun d => ?_
  refine hW.lineTo (m := .fillScratch) ⟨h.1, h.2, h.3, h.4⟩ hb rfl (by simp)
    (fun d => internal_fillScratch (bytes := bytes) (by rfl) (by exact hscr.trans hlen.symm) _) fun d => ?_
  refine hW.lineTo (m := .scan) ⟨h.1, h.2, h.3, h.4⟩ hb rfl (by simp)
    (fun d => internal_scan (bytes := bytes) (by rfl) (by exact hfit) _) fun d => ?_
  exact hw _ ⟨rfl, rfl, rfl, rfl, rfl, rfl, rfl, rfl, rfl⟩ ⟨rfl, rfl, rfl, hregs.secBase, hregs.off, hregs.chunk⟩ rfl
    (.frame h.opcodes (op := .read) (by simp) (.refl _ _) _ _ _)
    (congrArg (List.map some) hbytes)
    (congrArg (fun l => eraseRequired (slice l s2.off.toNat s2.chunk.toNat)) hbytes) rfl

theorem Memory.readBytes_getElem? (m : Memory) (a n j : Nat) :
    (m.readBytes a n)[j]? = if j < n then some (m.read (a + j)) else none := by
  simp only [Memory.readBytes, List.getElem?_map]
  by_cases h : j < n
  · simp [h]
  · simp [h]

/-- Programming bytes over erased ones stores them. -/
theorem Memory.read_program_erased {m : Memory} (hm : m.wf) (a : Nat) (d : List Byte)
    (he : ∀ j, j < d.length → m.read (a + j) = Config.erased) (x : Nat) :
    (m.program a d).read x = if a ≤ x ∧ x < a + d.length then d.getD (x - a) Config.erased else m.read x := by
  rw [Memory.read_program hm]
  split_ifs with h
  · have := he (x - a) (by omega)
    rw [show a + (x - a) = x by omega] at this
    rw [this]
    show BitVec.allOnes 8 &&& _ = _
    rw [BitVec.allOnes_and]
  · rfl

/-- Step 4 of a chunk, either way (R204, R205): the chunk's bytes are the source's, every other byte is kept. -/
theorem Closed.chunkBranch {W : State → Prop} (hW : Closed W) (src : DataSrc) (rest : List Micro) {s : State}
    (h : s.Live) (hb : s.busy = false) (hc : s.cont = .branch src :: rest) (hm : s.mem.wf)
    (hin : s.curAddr.toNat + s.chunk.toNat ≤ s.params.capacity) (hpos : 1 ≤ s.chunk.toNat)
    (hbase : s.secBase.toNat = s.curAddr.toNat - s.curAddr.toNat % 4096) (hoff : s.off.toNat = s.curAddr.toNat % 4096)
    (hfit : s.off.toNat + s.chunk.toNat ≤ 4096) (hdata : s.bufOff.toNat + s.chunk.toNat ≤ (srcBytes s src).length)
    (hscr : s.scratch = (s.mem.readBytes s.secBase.toNat Config.sector).map some)
    (hne : s.needErase =
      eraseRequired (slice (s.mem.readBytes s.secBase.toNat Config.sector) s.off.toNat s.chunk.toNat))
    (hw : ∀ v : State, Kept s v → v.curAddr = s.curAddr → v.remLen = s.remLen → v.bufOff = s.bufOff → v.chunk = s.chunk →
      v.scratch.length = Config.sector → v.mem.wf → (s.needErase = false → SameErases s.params.opc s.trace v.trace) →
      (∀ x, v.mem.read x =
        if s.curAddr.toNat ≤ x ∧ x < s.curAddr.toNat + s.chunk.toNat then
          (srcBytes s src).getD (s.bufOff.toNat + (x - s.curAddr.toNat)) Config.erased
        else s.mem.read x) → v.cont = rest → W v) : W s := by
  obtain ⟨hcap, -⟩ := Params.wf_capacity h.params
  have hchunk : s.chunk.toNat < 2 ^ 13 := s.chunk.isLt
  have hcdlen : (slice (srcBytes s src) s.bufOff.toNat s.chunk.toNat).length = s.chunk.toNat := slice_length _ _ _ hdata
  have hcd : ∀ j, j < s.chunk.toNat → (slice (srcBytes s src) s.bufOff.toNat s.chunk.toNat).getD j Config.erased =
      (srcBytes s src).getD (s.bufOff.toNat + j) Config.erased := by
    intro j hj
    rw [List.getD_eq_getElem?_getD, List.getD_eq_getElem?_getD, slice_getElem?, if_pos hj]
  obtain ⟨cd, hcdef⟩ : ∃ l, l = slice (srcBytes s src) s.bufOff.toNat s.chunk.toNat := ⟨_, rfl⟩
  rw [← hcdef] at hcdlen hcd
  cases hn : s.needErase with
  | false =>
    refine hW.lineTo h hb hc (by simp) (g := fun d => { s with delay := d, cont := programPages (.direct src) ++ rest })
      (fun d => by simp [State.internal, hn, directProgram]) fun d => ?_
    refine hW.pages (.direct src) cd rest ⟨h.1, h.2, h.3, h.4⟩ hb rfl hcdlen
      (show s.chunk.toNat < 2 ^ 32 by omega) hin (fun j hj => ?_) fun b wel p o hse => ?_
    · have hj' : j < s.chunk.toNat := hj
      have hp := pieceLen_rest (a := s.curAddr.toNat) (n := s.chunk.toNat) (i := j)
      have ej : (BitVec.ofNat 32 j).toNat = j := by rw [BitVec.toNat_ofNat]; omega
      show Except.ok (slice (srcBytes s src) (s.bufOff.toNat + (BitVec.ofNat 32 j).toNat)
        (pieceLen s.curAddr.toNat s.chunk.toNat (BitVec.ofNat 32 j).toNat)) = .ok (slice cd j _)
      rw [ej, hcdef, slice_slice _ _ _ _ _ (by show j + pieceLen s.curAddr.toNat s.chunk.toNat j ≤ _; omega)]
      rfl
    · refine hw _ ⟨rfl, rfl, rfl, rfl, rfl, rfl, rfl, rfl, rfl⟩ rfl rfl rfl rfl
        (by show s.scratch.length = _; rw [hscr]; simp) (Memory.program_wf hm _ _) (fun _ => hse) (fun x => ?_) rfl
      have herased : ∀ j, j < cd.length → s.mem.read (s.curAddr.toNat + j) = Config.erased := by
        intro j hj
        rw [hn] at hne
        refine eraseRequired_eq_false.mp hne.symm _ (List.mem_of_getElem? (i := j) ?_)
        rw [slice_getElem?, if_pos (by omega), Memory.readBytes_getElem?, if_pos (by simp only [Config.sector]; omega)]
        congr 2; omega
      show (s.mem.program s.curAddr.toNat cd).read x = _
      rw [Memory.read_program_erased hm _ _ herased, hcdlen]
      split_ifs with hx
      · exact hcd _ (by omega)
      · rfl
  | true =>
    obtain ⟨bytes, hbytes⟩ : ∃ l, l = s.mem.readBytes s.secBase.toNat Config.sector := ⟨_, rfl⟩
    have hlen : bytes.length = Config.sector := by rw [hbytes, Memory.readBytes_length]
    rw [← hbytes] at hscr
    have hinside : s.secBase.toNat + 4096 ≤ s.params.capacity := by
      rw [hbase]; exact sector_inside hcap (by omega)
    have hunit : (unitBase s.secBase Config.sector).toNat = s.secBase.toNat := by
      rw [unitBase_toNat, alignDown]; simp only [Config.sector]; omega
    have hov : overlay s.scratch s.off.toNat (cd.map some) = (overlay bytes s.off.toNat cd).map some := by
      rw [hscr, overlay_map]
    have hovlen : (overlay bytes s.off.toNat cd).length = Config.sector := by
      rw [overlay_length _ _ _ (by rw [hlen, hcdlen]; exact hfit), hlen]
    refine hW.lineTo h hb hc (by simp) (g := fun d =>
      { s with delay := d, cont := Machine.gated (.erase .chunkSector) ++ (.merge src :: (programPages .merged ++ rest)) })
      (fun d => by simp [State.internal, hn, eraseAndMerge]) fun d => ?_
    refine hW.gated (rest := .merge src :: (programPages .merged ++ rest))
      (p := .eraseSector (unitBase s.secBase Config.sector)) ⟨h.1, h.2, h.3, h.4⟩ hb rfl rfl (decode_se h.opcodes _) rfl rfl
      (by show decide (s.secBase.toNat < s.params.capacity) = true; simp; omega) (fun _ => rfl) fun b _ => ?_
    have hmem : Pending.apply s.params (.eraseSector (unitBase s.secBase Config.sector)) s.mem =
        s.mem.eraseRange s.secBase.toNat Config.sector := by rw [Pending.apply, hunit]
    refine hW.lineTo (m := .merge src) ⟨h.1, h.2, h.3, h.4⟩ hb rfl (by simp)
      (g := fun d => { s with
        delay := d, draws := b.draws, rx := b.rx, pollCount := b.pollCount, trace := b.trace, wel := false, pending := .none
        mem := s.mem.eraseRange s.secBase.toNat Config.sector
        scratch := (overlay bytes s.off.toNat cd).map some
        cont := programPages .merged ++ rest })
      (fun d => by
        rw [← hov, ← hmem, hcdef]
        cases src <;> rfl) fun d => ?_
    refine hW.pages .merged (overlay bytes s.off.toNat cd) rest ⟨h.1, h.2, h.3, h.4⟩ hb rfl hovlen
      (by show Config.sector < 2 ^ 32; decide) hinside (fun j hj => ?_) fun b wel p o hse => ?_
    · have hj' : j < Config.sector := hj
      have hp := pieceLen_rest (a := s.secBase.toNat) (n := Config.sector) (i := j)
      have ej : (BitVec.ofNat 32 j).toNat = j := by rw [BitVec.toNat_ofNat]; simp only [Config.sector] at hj'; omega
      show scratchRead _ (BitVec.ofNat 32 j).toNat (pieceLen s.secBase.toNat Config.sector (BitVec.ofNat 32 j).toNat) = _
      rw [ej]
      exact scratchRead_written rfl _ _ (by rw [hovlen]; omega)
    · have hwf := Memory.eraseRange_wf hm s.secBase.toNat Config.sector
      refine hw _ ⟨rfl, rfl, rfl, rfl, rfl, rfl, rfl, rfl, rfl⟩ rfl rfl rfl rfl
        (by show List.length (List.map _ _) = _; rw [List.length_map, hovlen]) (Memory.program_wf hwf _ _)
        (fun h => by rw [hn] at h; cases h) (fun x => ?_) rfl
      show ((s.mem.eraseRange s.secBase.toNat Config.sector).program s.secBase.toNat (overlay bytes s.off.toNat cd)).read x = _
      rw [Memory.read_program_erased hwf _ _ (fun j hj => ?_), hovlen, Memory.read_eraseRange]
      · by_cases hx : s.secBase.toNat ≤ x ∧ x < s.secBase.toNat + Config.sector
        · rw [if_pos hx, List.getD_eq_getElem?_getD,
            overlay_getElem? _ _ _ _ (by rw [hlen, hcdlen]; exact hfit), hcdlen]
          simp only [Config.sector] at hx
          by_cases hy : s.curAddr.toNat ≤ x ∧ x < s.curAddr.toNat + s.chunk.toNat
          · rw [if_pos (by omega), if_pos hy, ← hcd _ (by omega), List.getD_eq_getElem?_getD]
            congr 2; omega
          · rw [if_neg (by omega), if_neg hy, hbytes, Memory.readBytes_getElem?, if_pos (by simp only [Config.sector]; omega)]
            show s.mem.read _ = _
            congr 1; omega
        · rw [if_neg hx, if_neg hx, if_neg]
          simp only [Config.sector] at hx
          omega
      · rw [hovlen] at hj
        rw [Memory.read_eraseRange, if_pos (by omega)]

/-! ### The loop of the smart write -/

/-- The state `t` of the body of `write` that began in `s`, with `done` bytes stored (R200, R206, R207). -/
structure Written (s : State) (src : DataSrc) (done : Nat) (t : State) : Prop where
  kept : Kept s t
  curAddr : t.curAddr.toNat = writeAddr s src + done
  remLen : t.remLen.toNat = writeLen s src - done
  bufOff : t.bufOff.toNat = done
  scratch : t.scratch.length = Config.sector
  canonical : t.mem.wf
  /-- Over erased bytes no sector erase is sent (R203, R208). -/
  avoids : (∀ x, writeAddr s src ≤ x → x < writeAddr s src + writeLen s src → s.mem.read x = Config.erased) →
    SameErases s.params.opc s.trace t.trace
  bytes : ∀ x, t.mem.read x =
    if writeAddr s src ≤ x ∧ x < writeAddr s src + done then
      (srcBytes s src).getD (x - writeAddr s src) Config.erased
    else s.mem.read x

theorem srcBytes_kept {s t : State} (h : Kept s t) (src : DataSrc) : srcBytes t src = srcBytes s src := by
  cases src <;> simp [srcBytes, h.params, h.req]

/-- The loop of `write` (R209): every byte is stored. -/
theorem Closed.writeLoop {W : State → Prop} (hW : Closed W) (src : DataSrc) (rest : List Micro) {s : State}
    (h : s.Live) (hb : s.busy = false) (hdata : (srcBytes s src).length = writeLen s src)
    (hcap : writeAddr s src + writeLen s src ≤ s.params.capacity)
    (hw : ∀ u, Written s src (writeLen s src) u → u.cont = rest → W u) (m : Nat) :
    ∀ {t : State} {done : Nat}, Written s src done t → done ≤ writeLen s src → writeLen s src - done ≤ m →
      t.cont = .writeTest src :: rest → W t := by
  have hcap24 := (Params.wf_capacity h.params).2
  have finish : ∀ {t : State}, Written s src (writeLen s src) t → t.cont = .writeTest src :: rest → W t := by
    intro t ht hc
    refine hW.lineTo (ht.kept.live h) (ht.kept.busy.trans hb) hc (by simp) (g := fun d => { t with delay := d, cont := rest })
      (fun d => ?_) fun d => hw _ ⟨⟨ht.1.1, ht.1.2, ht.1.3, ht.1.4, ht.1.5, ht.1.6, ht.1.7, ht.1.8, ht.1.9⟩,
        ht.2, ht.3, ht.4, ht.5, ht.6, ht.7, ht.8⟩ rfl
    have : ¬ 0 < t.remLen.toNat := by rw [ht.remLen]; omega
    simp [State.internal, this]
  induction m with
  | zero =>
    intro t done ht hle hm hc
    obtain rfl : done = writeLen s src := by omega
    exact finish ht hc
  | succ m ih =>
    intro t done ht hle hm hc
    by_cases hlt : done < writeLen s src
    · have hcur : t.curAddr.toNat < t.params.capacity := by rw [ht.curAddr, ht.kept.params]; omega
      refine hW.chunkHead src rest (ht.kept.live h) (ht.kept.busy.trans hb) hc (by rw [ht.remLen]; omega) hcur ht.scratch
        fun u hk hr hmem hse hscr hne hcu => ?_
      have hku := ht.kept.trans hk
      have hmod : t.curAddr.toNat % 4096 < 4096 := Nat.mod_lt _ (by omega)
      have hch := hr.chunk
      rw [ht.remLen] at hch
      have hcu' : u.curAddr.toNat = writeAddr s src + done := by rw [hr.curAddr, ht.curAddr]
      have hbo : u.bufOff.toNat = done := by rw [hr.bufOff, ht.bufOff]
      have hsrc := srcBytes_kept hku src
      refine hW.chunkBranch src (.advance :: .writeTest src :: rest) (hku.live h) (hku.busy.trans hb) hcu
        (by rw [hmem]; exact ht.canonical) (by rw [hcu', hku.params]; omega) (by omega)
        (by rw [hr.secBase, hr.curAddr]) (by rw [hr.off, hr.curAddr]) (by rw [hr.off]; omega)
        (by rw [hbo, hsrc, hdata]; omega) (by rw [hmem]; exact hscr) (by rw [hmem]; exact hne)
        fun v hkv h1 h2 h3 h4 h5 h6 hse' h7 h8 => ?_
      have hkv' := hku.trans hkv
      have hvc : v.chunk.toNat = u.chunk.toNat := by rw [h4]
      refine hW.lineTo (hkv'.live h) (hkv'.busy.trans hb) h8 (by simp)
        (g := fun d => { v.advance with delay := d, cont := .writeTest src :: rest }) (fun d => rfl) fun d => ?_
      refine ih (done := done + u.chunk.toNat) ⟨⟨hkv'.1, hkv'.2, hkv'.3, hkv'.4, hkv'.5, hkv'.6, hkv'.7, hkv'.8, hkv'.9⟩,
        ?_, ?_, ?_, h5, h6, fun herased => ?_, fun x => ?_⟩ (by omega) (by omega) rfl
      · show (BitVec.ofNat 25 (v.curAddr.toNat + v.chunk.toNat)).toNat = _
        rw [h1, hcu', hvc, BitVec.toNat_ofNat]; omega
      · show (BitVec.ofNat 32 (v.remLen.toNat - v.chunk.toNat)).toNat = _
        have := v.remLen.isLt
        rw [hvc, BitVec.toNat_ofNat, h2, hr.remLen, ht.remLen]; rw [h2, hr.remLen, ht.remLen] at this; omega
      · show (BitVec.ofNat 32 (v.bufOff.toNat + v.chunk.toNat)).toNat = _
        rw [hvc, BitVec.toNat_ofNat, h3, hbo]; omega
      · have hno : u.needErase = false := by
          rw [hne, eraseRequired_eq_false]
          intro b hb
          obtain ⟨j, hj, rfl⟩ := List.mem_iff_getElem.mp hb
          have hj' := List.getElem?_eq_getElem hj
          have hoff := hr.off
          have hsec := hr.secBase
          have hcut := ht.curAddr
          rw [slice_getElem?] at hj'
          split_ifs at hj' with hlt'
          rw [Memory.readBytes_getElem?, if_pos (by simp only [Config.sector]; omega)] at hj'
          rw [← Option.some.inj hj', ht.bytes, if_neg (by omega), herased _ (by omega) (by omega)]
        have e1 : t.params = s.params := ht.kept.params
        have e2 : u.params = s.params := hku.params
        rw [e1] at hse
        have hse2 := hse' hno
        rw [e2] at hse2
        exact hse2.trans (hse.trans (ht.avoids herased))
      · show v.mem.read x = _
        rw [h7, hmem, ht.bytes, hcu', hsrc, hbo]
        by_cases h1 : writeAddr s src + done ≤ x ∧ x < writeAddr s src + done + u.chunk.toNat
        · rw [if_pos h1, if_pos (by omega)]
          congr 1; omega
        · rw [if_neg h1]
          by_cases h2 : writeAddr s src ≤ x ∧ x < writeAddr s src + done
          · rw [if_pos h2, if_pos (by omega)]
          · rw [if_neg h2, if_neg (by omega)]
    · obtain rfl : done = writeLen s src := by omega
      exact finish ht hc

/-- The body of `write` (R209) from its first line on. -/
theorem Closed.writeBody {W : State → Prop} (hW : Closed W) (src : DataSrc) (rest : List Micro) {s : State}
    (h : s.Live) (hb : s.busy = false) (hm : s.mem.wf) (hscr : s.scratch.length = Config.sector)
    (hc : s.cont = Machine.writeBody src ++ rest) (hdata : (srcBytes s src).length = writeLen s src)
    (hcap : writeAddr s src + writeLen s src ≤ s.params.capacity)
    (hw : ∀ u, Written s src (writeLen s src) u → u.cont = rest → W u) : W s := by
  have hcap24 := (Params.wf_capacity h.params).2
  refine hW.lineTo h hb hc (by simp)
    (g := fun d => { s with
      delay := d, curAddr := BitVec.ofNat 25 (writeAddr s src), remLen := BitVec.ofNat 32 (writeLen s src), bufOff := 0
      cont := .writeTest src :: rest }) (fun d => by cases src <;> rfl) fun d => ?_
  refine hW.writeLoop src rest h hb hdata hcap hw (writeLen s src) (done := 0)
    ⟨⟨rfl, rfl, rfl, rfl, rfl, rfl, rfl, rfl, rfl⟩, ?_, ?_, rfl, hscr, hm, fun _ => .refl _ _, fun x => ?_⟩ (Nat.zero_le _) (by omega) rfl
  · show (BitVec.ofNat 25 (writeAddr s src)).toNat = _
    rw [BitVec.toNat_ofNat]; omega
  · show (BitVec.ofNat 32 (writeLen s src)).toNat = _
    rw [BitVec.toNat_ofNat]; omega
  · rw [if_neg (by omega)]

end Sys2Proof.Machine
end

