-- ==== Sys2Proof/Laws/Counts.lean ====
section
/-! SUPPORT. Counting frames in the trace (60_exceptions.md R274), the gated erase under a fixed pattern of turns, the
written bytes of the scratch buffer, and runs of bounded length. -/

namespace Sys2Proof.Machine

/-! ### Counts of the trace -/

theorem countCompletions_append (a b : List TraceEntry) : countCompletions (a ++ b)
    = countCompletions a + countCompletions b := by
  simp [countCompletions]

/-- The entries of a busy-poll count as status reads and nothing else. -/
theorem count_reads {t : Opcodes} (ht : t.distinct = true) (l : List TraceEntry)
    (h : ∀ e ∈ l, ∃ v, e = .frame (WireOp.rdsr.byte t) none [] [v]) :
    countFrames t .rdsr l = l.length ∧ (∀ op, op ≠ .rdsr → countFrames t op l = 0) ∧ countCompletions l = 0 := by
  induction l with
  | nil => exact ⟨rfl, fun _ _ => rfl, rfl⟩
  | cons e l ih =>
    obtain ⟨i1, i2, i3⟩ := ih fun e he => h e (List.mem_cons_of_mem _ he)
    obtain ⟨v, rfl⟩ := h e (by simp)
    have split (op : WireOp) : countFrames t op (.frame (WireOp.rdsr.byte t) none [] [v] :: l) =
        (if WireOp.rdsr = op then 1 else 0) + countFrames t op l := by
      rw [← countFrames_frame ht op .rdsr none [] [v], ← countFrames_append]; rfl
    refine ⟨by rw [split, i1, if_pos rfl, List.length_cons]; omega, fun op hop => ?_, ?_⟩
    · rw [split, if_neg (Ne.symm hop), i2 op hop]
    · rw [show TraceEntry.frame (WireOp.rdsr.byte t) none [] [v] :: l = [.frame (WireOp.rdsr.byte t) none [] [v]] ++ l from
        rfl, countCompletions_append, i3]
      rfl

/-! ### A gated erase under a fixed pattern of turns -/

theorem latch_live {s : State} (hp : s.params.wf = true) (hc : s.CleanStart) (r code) : (s.latch r code).Live :=
  ⟨hp, rfl, hc.no_fault, hc.awake⟩

/-- `Gated(f)` and the return, the poll reading BUSY `k` times before the completion (42_erase.md R189). -/
theorem gated_run (k : Nat) (s0 : State) (kd : FrameKind) (h : s0.Live) (hb : s0.busy = false)
    (hc : s0.cont = gated kd ++ [.ret .ok .zero false])
  {f : RawFrame} {i : Instr} {op : WireOp} {addr : Option Addr} {p : Pending}
   (hf : frameOf s0 kd = .ok f) (hd : decodeFrame s0.params.opc f = .ok i)
    (hi : frameFields i = some (op, addr, [], 0)) (hop : isGatedOp op = true)
    (hwf : i.wellFormed s0.params.capacity = true) (hcmd : ∀ t, commandOf i t = (t.startOp p, []))
   (hl : ∀ limit, s0.params.pollLimit = some limit → k < limit) :
   ∃ u, Reach s0 (eraseTurns k) u ∧ u.schedule = [] ∧ u.ctlState = .idle ∧ u.response = some ⟨.ok, 0, []⟩ ∧
       u.faults = [] ∧
        u.busy = false ∧ u.wel = false ∧ u.pending = .none ∧ u.asleep = false ∧ s0.SameWalk u ∧ u.pollCount = k ∧
        u.idWord = s0.idWord ∧ u.params = s0.params ∧ u.hostQueue = s0.hostQueue ∧ u.refused = s0.refused ∧
        u.mem = p.apply s0.params s0.mem ∧
        ∃ reads v, u.trace = s0.trace ++ ([.frame (s0.opc .wren) none [] [], .frame (s0.opc op) addr [] []]
            ++ (reads ++ [.complete, .frame (s0.opc .rdsr) none [] [v]])) ∧ reads.length = k ∧ ∀ e ∈ reads, ∃ v,
            e = TraceEntry.frame (s0.opc .rdsr) none [] [v] := by
  let ret : Micro := .ret .ok .zero false
  let s1 : State := { s0 with
    wel := true
    rx := []
    trace := s0.trace ++ [.frame (s0.opc .wren) none [] []]
    cont := .xfer kd :: (busyPoll ++ [ret]) }
  have r1 : Reach s0 [.main] s1 := Reach.honoured (s := s0) (k := .wren)
      h.enabled hc rfl (decode_wren h.opcodes) rfl (.inl h.awake) rfl rfl (.inl hb)
  let s2 : State := { s1 with
    busy := true
    pending := p
    trace := s1.trace ++ [.frame (s0.opc op) addr [] []]
    cont := busyPoll ++ [ret] }
  have r2 : Reach s1 [.main] s2 := by
    refine Reach.frame (s := s1) ⟨h.geometry, h.2, h.3⟩ rfl ((frameOf_onward s0 kd (.xfer kd :: (busyPoll ++ [ret]))
        ⟨[], s0.pollCount, s0.draws, s0.delay, s1.trace⟩ true).trans hf) hd ?_
    exact exec_started (s := {s1 with cont := busyPoll ++ [ret]}) hi hop h.awake hb rfl hwf (hcmd _)
  let s3 : State := { s2 with pollCount := 0, cont := .xfer .rdsr :: .pollTest :: [ret] }
  have r3 : Reach s2 [.main] s3 := Reach.line (s := s2) (m := .pollInit) ⟨h.geometry, h.2, h.3⟩ rfl (by simp)
  have l3 : s3.Live := ⟨h.1, h.2, h.3, h.4⟩
  obtain ⟨b, r4, hn, reads, ht, hlen, hall⟩ := Reach.pollWaits k l3 rfl rfl (fun limit hp => by
    have := hl limit hp; show 0 + k < limit; omega)
  let s4 := s3.onward s3.cont b
  have r5 : Reach s4 [.device] s4.complete := Reach.complete h.geometry rfl
  have l5 : s4.complete.Live := ⟨h.1, h.2, h.3, h.4⟩
  have r6 := Reach.pollIdle (rest := [ret]) l5 rfl rfl
  have r7 := Reach.line (s := s4.complete.polled [ret]) (m := ret) ⟨h.geometry, h.2, h.3⟩ rfl (by simp [ret])
  refine ⟨{ (s4.complete.polled [ret]).internal ret [] with schedule := [] }, ?_, rfl, rfl, rfl, h.3, rfl, rfl, rfl,
      h.4, ⟨rfl, rfl, rfl, rfl, rfl, rfl, rfl, rfl⟩, ?_, rfl, rfl, rfl, rfl, rfl, reads,
      statusByte s4.complete.params (Config.draw s4.complete.draws) s4.complete.busy s4.complete.wel, ?_, hlen, hall⟩
  · have := (((((r1.trans r2).trans r3).trans r4).trans r5).trans r6).trans r7
    unfold eraseTurns
    simp only [List.append_assoc, List.cons_append, List.nil_append] at this ⊢
    exact this
  · show b.pollCount = k
    rw [hn]; show 0 + k = k; omega
  · show (b.trace ++ [.complete]) ++ [.frame (s0.opc .rdsr) none [] [_]] = _
    rw [ht]
    show (((s0.trace ++ [_]) ++ [_]) ++ reads ++ [.complete]) ++ [.frame (s0.opc .rdsr) none [] [_]] = _
    simp only [List.append_assoc, List.cons_append, List.nil_append]

/-- `Gated(f)` and the return on a BUSY device: both frames are ignored, the earlier operation completes, and the
operation reports `OK` (41_status_wel.md R172). -/
theorem gated_lost (k : Nat) (s0 : State) (kd : FrameKind) (h : s0.Live) (hb : s0.busy = true)
    (hc : s0.cont = gated kd ++ [.ret .ok .zero false])
    {f : RawFrame} {i : Instr} {op : WireOp} {addr : Option Addr}
    (hf : frameOf s0 kd = .ok f) (hd : decodeFrame s0.params.opc f = .ok i)
    (hi : frameFields i = some (op, addr, [], 0)) (hop : isGatedOp op = true)
    (hwf : i.wellFormed s0.params.capacity = true)
    (hl : ∀ limit, s0.params.pollLimit = some limit → k < limit) :
    ∃ u, Reach s0 (eraseTurns k) u ∧ u.schedule = [] ∧ u.ctlState = .idle ∧ u.response = some ⟨.ok, 0, []⟩ ∧
      u.faults = [] ∧ u.busy = false ∧ u.wel = false ∧ u.mem = s0.pending.apply s0.params s0.mem := by
  let ret : Micro := .ret .ok .zero false
  let s1 : State := { s0 with
    draws := s0.draws + 0
    rx := []
    trace := s0.trace ++ [.frame (s0.opc .wren) none [] []]
    cont := .xfer kd :: (busyPoll ++ [ret]) }
  have r1 : Reach s0 [.main] s1 := Reach.ignored (s := s0) (k := .wren)
      h.enabled hc rfl (decode_wren h.opcodes) rfl (.inl h.awake) rfl rfl hb (by simp)
  let s2 : State := { s1 with
    trace := s1.trace ++ [.frame (s0.opc op) addr [] []]
    cont := busyPoll ++ [ret] }
  have r2 : Reach s1 [.main] s2 := Reach.ignored (s := s1) (k := kd) ⟨h.geometry, h.2, h.3⟩ rfl
    ((frameOf_onward s0 kd (.xfer kd :: (busyPoll ++ [ret])) ⟨[], s0.pollCount, s0.draws, s0.delay, s1.trace⟩
      s0.wel).trans hf) hd hi (.inl h.awake) (by cases op <;> first | rfl | cases hop) hwf hb (by rintro rfl; cases hop)
  let s3 : State := { s2 with pollCount := 0, cont := .xfer .rdsr :: .pollTest :: [ret] }
  have r3 : Reach s2 [.main] s3 := Reach.line (s := s2) (m := .pollInit) ⟨h.geometry, h.2, h.3⟩ rfl (by simp)
  have l3 : s3.Live := ⟨h.1, h.2, h.3, h.4⟩
  obtain ⟨b, r4, hn, reads, ht, hlen, hall⟩ := Reach.pollWaits k l3 hb rfl (fun limit hp => by
    have := hl limit hp; show 0 + k < limit; omega)
  let s4 := s3.onward s3.cont b
  have r5 : Reach s4 [.device] s4.complete := Reach.complete h.geometry hb
  have l5 : s4.complete.Live := ⟨h.1, h.2, h.3, h.4⟩
  have r6 := Reach.pollIdle (rest := [ret]) l5 rfl rfl
  have r7 := Reach.line (s := s4.complete.polled [ret]) (m := ret) ⟨h.geometry, h.2, h.3⟩ rfl (by simp [ret])
  refine ⟨{ (s4.complete.polled [ret]).internal ret [] with schedule := [] }, ?_, rfl, rfl, rfl, h.3, rfl, rfl, rfl⟩
  have := (((((r1.trans r2).trans r3).trans r4).trans r5).trans r6).trans r7
  unfold eraseTurns
  simp only [List.append_assoc, List.cons_append, List.nil_append] at this ⊢
  exact this

/-- The end of the self-test: the comparison and the return (44_id_selftest_power.md R238, R240). -/
theorem compare_run (s : State) (h : s.Enabled) (hc : s.cont = [.compare, .ret .ok .capacity false]) :
    ∃ u, Reach s [.main, .main] u ∧ u.ctlState = .idle ∧
      u.response = some ⟨if s.rx = s.params.pattern then .ok else .dataMismatch, idCapacity s.idWord, []⟩ ∧
      u.faults = [] ∧ s.SameDevice u ∧ u.trace = s.trace := by
  have ret := fun r => Reach.line (s := { s with cont := [.ret r .capacity false] }) (m := .ret r .capacity false)
    ⟨h.1, h.2, h.3⟩ rfl (by simp)
  have r1 := Reach.line (m := .compare) h hc (by simp)
  by_cases he : s.rx = s.params.pattern
  · rw [show s.internal .compare [.ret .ok .capacity false] = { s with cont := [.ret .ok .capacity false] } by
      simp [State.internal, he]] at r1
    exact ⟨_, r1.trans (ret .ok), rfl, by rw [if_pos he]; rfl, h.3, ⟨rfl, rfl, rfl, rfl, rfl⟩, rfl⟩
  · rw [show s.internal .compare [.ret .ok .capacity false] = { s with cont := [.ret .dataMismatch .capacity false] } by
      simp [State.internal, he]] at r1
    exact ⟨_, r1.trans (ret .dataMismatch), rfl, by rw [if_neg he]; rfl, h.3, ⟨rfl, rfl, rfl, rfl, rfl⟩, rfl⟩

theorem flatten_main_pairs (n : Nat) : (List.replicate n [Turn.main, Turn.main]).flatten = List.replicate (2 * n)
    Turn.main := by
  induction n with
  | zero => rfl
  | succ n ih =>
    rw [List.replicate_succ, List.flatten_cons, ih, show 2 * (n+1) = 2*n + 1 + 1 by omega, List.replicate_succ,
        List.replicate_succ]; rfl

/-! ### The scratch buffer -/

/-- A range of written bytes. -/
theorem slice_written (l : List (Option Byte)) (i n : Nat) (h : ∀ k, i ≤ k → k < i + n → ∃ b, l[k]? = some (some b))
    : (slice l i n).length = n ∧ ∀ o ∈ slice l i n, o.isSome = true := by
  have hlen : (slice l i n).length = n := by
    by_cases hn : n = 0
    · subst hn; simp [slice]
    · obtain ⟨b, hb⟩ := h (i + n - 1) (by omega) (by omega)
      have := (List.getElem?_eq_some_iff.mp hb).1
      exact slice_length _ _ _ (by omega)
  refine ⟨hlen, fun o ho => ?_⟩
  obtain ⟨j, hj, rfl⟩ := List.mem_iff_getElem.mp ho
  have : (slice l i n)[j]? = some (slice l i n)[j] := List.getElem?_eq_getElem hj
  rw [slice_getElem?, if_pos (by omega)] at this
  obtain ⟨b, hb⟩ := h (i + j) (by omega) (by omega)
  rw [hb] at this
  rw [← Option.some.inj this]; rfl

theorem takeWhile_isSome_all (l : List (Option Byte)) (h : ∀ o ∈ l, o.isSome = true)
    : l.takeWhile Option.isSome = l := by
  induction l with
  | nil => rfl
  | cons a l ih => rw [List.takeWhile_cons_of_pos (h a (by simp)), ih fun o ho => h o (List.mem_cons_of_mem _ ho)]

/-- The first unwritten byte ends the written run. -/
theorem takeWhile_isSome_first : ∀ (l : List (Option Byte)) (m : Nat), (∀ j, j < m → ∃ b, l[j]? = some (some b)) →
    l[m]? = some none → (l.takeWhile Option.isSome).length = m
  | [], m, _, h => by simp at h
  | a :: l, 0, _, h => by simp at h; subst h; rfl
  | a :: l, m+1, h1, h2 => by
    obtain ⟨b, hb⟩ := h1 0 (by omega)
    simp at hb; subst hb
    rw [List.takeWhile_cons_of_pos rfl, List.length_cons, takeWhile_isSome_first l m
      (fun j hj => by simpa using h1 (j+1) (by omega)) (by simpa using h2)]

/-! ### Runs of bounded length under every schedule -/

/-- Under every schedule the controller is idle with `Q` within `n` steps. -/
def Within (Q : State → Prop) (n : Nat) (s : State) : Prop :=
  ∀ turns, ∃ j u, j ≤ n ∧ runFor j { s with schedule := turns } = .next u ∧ u.ctlState = .idle ∧ Q u

theorem Within.step {Q n} {s : State} (hg : s.params.geometryOk = true)
   (h : ∀ turn later d, ∃ t, (s.rescheduled later d).perform ((s.rescheduled later d).moveOf turn) = .next t ∧
       Within Q n t) : Within Q (n + 1) s := by
  intro turns
  obtain ⟨turn, later, d, he⟩ := step_rescheduled hg turns
  obtain ⟨t, ht, hw⟩ := h turn later d
  obtain ⟨j, u, hj, hr, hu⟩ := hw t.schedule
  refine ⟨j+1, u, by omega, ?_, hu⟩
  simp only [runFor, Host.Core.run, Sys2Proof.core] at hr ⊢
  rw [he, ht]; exact hr

theorem Within.mono {Q m n} {s : State} (h : m ≤ n) (hw : Within Q m s) : Within Q n s := fun t => by
  obtain ⟨j, u, hj, h⟩ := hw t
  exact ⟨j, u, by omega, h⟩

/-- One step of a running controller with nothing to submit: its own line,
    or a completion that leaves the line to run.
-/
theorem Within.choice {Q : State → Prop} {n : Nat} {s : State} (h : s.Live) (hq : s.hostQueue = [])
    {m rest} (hc : s.cont = m :: rest)
  (hm : ∀ later d, ∃ t, (s.rescheduled later d).lineStep m rest = .next t ∧ Within Q n t)
  (hcompl : s.busy = true → ∀ later d, Within Q n (s.rescheduled later d).complete) : Within Q (n+1) s := by
  refine Within.step h.geometry fun turn later d => ?_
  have hmain : (s.rescheduled later d).mainMove = .line m rest := mainMove_line (s := s.rescheduled later d)
      ⟨h.geometry, h.2, h.3⟩ hc later
  have main : ∃ t, (s.rescheduled later d).perform (s.rescheduled later d).mainMove = .next t ∧ Within Q n t := by
    rw [hmain]; exact hm later d
  cases hb : s.busy with
  | false => rw [moveOf_main (s := s.rescheduled later d) hq hb]; exact main
  | true =>
    rcases moveOf_busy (s := s.rescheduled later d) hq hb turn with e | e <;> rw [e]
    · exact ⟨_, rfl, hcompl hb later d⟩
    · exact main

theorem Within.frame {Q : State → Prop} {n : Nat} {s : State} {k : FrameKind} {rest f i} {g : Nat →
    State} (h : s.Live) (hq : s.hostQueue = []) (hb : s.busy = false)
   (hc : s.cont = .xfer k :: rest) (hf : frameOf s k = .ok f) (hd : decodeFrame s.params.opc f = .ok i)
   (he : ∀ d, exec i { s with cont := rest, delay := d } = .next (g d)) (hn : ∀ d, Within Q n (g d))
       : Within Q (n+1) s := by
  refine Within.choice h hq hc (fun later d => ⟨_, lineStep_frame (s := { s with delay := d })
      ((frameOf_book s k s.schedule s.cont d).trans hf) hd (he d) later, hn d⟩) (fun hh => by rw [hb] at hh; cases hh)

end Sys2Proof.Machine
end

