-- ==== Sys2Proof/Laws/Invariants.lean ====
section
/-! SUPPORT. What raising, refusing and the internal lines keep: the pieces of the machine's invariant and of the
    gating
discipline. -/

namespace Sys2Proof.Machine

/-! ### Records -/

theorem mem_raise {s : State} {f g : FaultRecord} : g ∈ (s.raise f).faults ↔ g ∈ s.faults ∨ g = f := by
  simp only [State.raise_faults]; split_ifs with h
  · constructor
    · exact .inl
    · rintro (h' | rfl) <;> assumption
  · simp

theorem mem_refuse {s : State} {o : Byte} {g : FaultRecord} : g ∈ (s.refuse o).faults ↔
    g ∈ s.faults ∨ g = .unmodelled o := mem_raise

theorem raise_faults_ne_nil (s : State) (f : FaultRecord) : (s.raise f).faults ≠ [] := by
  intro h; have := (mem_raise (s := s) (f := f) (g := f)).mpr (.inr rfl); rw [h] at this; cases this

/-! ### What an internal line can do -/

/-- An internal line changes no parameter, no device state, no trace and no request of the host,
    and records at most one
fault. -/
theorem internal_effect (m : Micro) (rest : List Micro) (s t : State) (h : t = s.internal m rest) :
    t.params = s.params ∧ t.hostQueue = s.hostQueue ∧ t.mem = s.mem ∧ t.busy = s.busy ∧ t.wel = s.wel ∧
      t.asleep = s.asleep ∧ t.pending = s.pending ∧ t.trace = s.trace ∧ t.refused = s.refused ∧
      t.scratch.length = s.scratch.length ∧
      (t.faults = s.faults ∨ ∃ k, t = { s.raise (.scratchUninit k) with cont := rest }) := by
  subst h
  cases m with
  | pollTest =>
    simp only [State.internal, State.pollTest]
    split_ifs <;> simp
  | scan =>
    simp only [State.internal, State.scan]
    split
    · simp
    · simp; exact .inr ⟨_, rfl⟩
  | fillScratch => simp [State.internal, overlay]; omega
  | merge src => simp [State.internal, State.merge, overlay]; omega
  | _ => simp [State.internal, State.chunkInit, State.advance]

/-! ### The invariant -/

/-- Raising a fault while RUNNING keeps the invariant. -/
theorem inv_raise {s : State} (h : s.Inv) (f : FaultRecord) (hc : s.ctlState = .running) : (s.raise f).Inv := by
  constructor
  · exact h.mem_canonical
  · exact h.mem_inside
  · exact h.busy_iff_pending
  · exact h.busy_wel
  · exact h.busy_awake
  · exact h.pending_ok
  · exact h.scratch_size
  · intro _; exact hc
  · intro hr; obtain ⟨o, ho⟩ := h.refused_recorded hr; exact ⟨o, mem_raise.mpr (.inl ho)⟩

/-- Refusing while RUNNING keeps it too, with its record. -/
theorem inv_refuse {s : State} (h : s.Inv) (o : Byte) (hc : s.ctlState = .running) : (s.refuse o).Inv := by
  constructor
  · exact h.mem_canonical
  · exact h.mem_inside
  · exact h.busy_iff_pending
  · exact h.busy_wel
  · exact h.busy_awake
  · exact h.pending_ok
  · exact h.scratch_size
  · intro _; exact hc
  · intro hr; exact ⟨o, mem_refuse.mpr (.inr rfl)⟩

/-- An accepted operation lists no byte outside the array. -/
theorem Pending.apply_inside {p : Params} {op : Pending} {m : Memory} (ho : op.Ok p) (hm : ∀ c ∈ m,
    c.1 < p.capacity) :
    ∀ c ∈ op.apply p m, c.1 < p.capacity := by
  intro c hc
  cases op with
  | none => exact hm c hc
  | program a d =>
    rcases Memory.mem_program hc with ⟨h1, h2⟩ | h
    · have := ho.2.2; omega
    · exact hm c h
  | _ => exact hm c (Memory.mem_eraseRange hc)

/-! ### The gating discipline -/

theorem traceGated_append (t : Opcodes) : ∀ (p : Bool) (l : List TraceEntry) (m : List TraceEntry),
    traceGated t p (l ++ m) = (traceGated t p l && traceGated t (lastFrameWren t p l) m)
  | p, [], m => by simp [traceGated, lastFrameWren]
  | p, .complete :: l, m => by simp [traceGated, lastFrameWren, traceGated_append t p l m]
  | p, .frame o a u i :: l, m => by simp [traceGated, lastFrameWren, traceGated_append t _ l m, Bool.and_assoc]

theorem lastFrameWren_append (t : Opcodes) : ∀ (p : Bool) (l : List TraceEntry) (m : List TraceEntry),
    lastFrameWren t p (l ++ m) = lastFrameWren t (lastFrameWren t p l) m
  | p, [], m => rfl
  | p, .complete :: l, m => by simp [lastFrameWren, lastFrameWren_append t p l m]
  | p, .frame o a u i :: l, m => by simp [lastFrameWren, lastFrameWren_append t _ l m]

/-- What may run after any frame may run after a `WREN`. -/
theorem contGated_mono (l : List Micro) (b : Bool) (h : contGated false l = true) : contGated b l = true := by
  cases b
  · exact h
  · match l with
    | [] => rfl
    | .xfer (.raw f) :: r => exact h
    | .xfer k :: r => cases k <;> simp_all [contGated]
    | .pollInit :: r | .pollTest :: r | .pageInit :: r | .pageTest _ :: r | .pageNext _ :: r | .lenTest :: r |
        .writeInit _ :: r | .writeTest _ :: r | .chunkInit :: r | .fillScratch :: r | .scan :: r | .branch _ :: r |
        .merge _ :: r | .advance :: r | .setId16 :: r | .setId24 :: r | .idCheck :: r | .sizeCheck :: r | .compare ::
        r | .ret _ _ _ :: r => simpa [contGated] using h

/-- Every operation's pseudocode is gated (R168). -/
theorem contGated_codeOf (op : HostOp) : contGated false (codeOf op) = true := by cases op <;> rfl

/-- An internal line leaves gated pseudocode. -/
theorem contGated_internal (m : Micro) (rest : List Micro) (s : State) (h : contGated false rest = true) :
    contGated false (s.internal m rest).cont = true := by
  cases m with
  | pollTest => simp only [State.internal, State.pollTest]; split_ifs <;> simp [contGated, h, FrameKind.isGated]
  | pageTest w => simp only [State.internal]; split_ifs <;> simp [contGated, h, FrameKind.isGated, pageIteration,
      gated, busyPoll]
  | writeTest w => simp only [State.internal]; split_ifs <;> simp [contGated, h, FrameKind.isGated, chunkIteration]
  | branch w => simp only [State.internal]; split_ifs <;> simp [contGated, h, FrameKind.isGated, eraseAndMerge,
      gated, busyPoll, programPages, directProgram]
  | _ => simp only [State.internal]; (try split_ifs) <;> simp [contGated, h]

end Sys2Proof.Machine
end

