-- ==== Sys2Proof/Laws/PerInstr.lean ====
section
/-! SUPPORT. The family `OpcodeWord`: what each instruction's encoded form carries, one lemma per constructor. A frame
carries the opcode byte that the table in force gives its command (30_encoding.md R100) and, in the formats that have
one, the address most significant byte first (R97); a request carries the command word of R115 and its operand fields
as they are (R106). -/

namespace Sys2Proof.Laws.OpcodeWord

/-- The encoded form an instruction must have. -/
def Statement (i : Instr) : Prop :=
  match i with
  | .wren => ∀ t : Opcodes, encode t i = .frame ⟨t.wren, [], 0⟩
  | .rdsr nin => ∀ t : Opcodes, encode t i = .frame ⟨t.rdsr, [], nin⟩
  | .wrsr out => ∀ t : Opcodes, encode t i = .frame ⟨t.wrsr, out, 0⟩
  | .wireRead addr nin => ∀ t : Opcodes, encode t i = .frame ⟨t.read, addrBytes addr, nin⟩
  | .fastRead addr dummy nin => ∀ t : Opcodes, encode t i = .frame ⟨t.fastRead, addrBytes addr ++ [dummy], nin⟩
  | .pp addr out => ∀ t : Opcodes, encode t i = .frame ⟨t.pp, addrBytes addr ++ out, 0⟩
  | .se addr => ∀ t : Opcodes, encode t i = .frame ⟨t.se, addrBytes addr, 0⟩
  | .be addr => ∀ t : Opcodes, encode t i = .frame ⟨t.be, addrBytes addr, 0⟩
  | .ce => ∀ t : Opcodes, encode t i = .frame ⟨t.ce, [], 0⟩
  | .pd => ∀ t : Opcodes, encode t i = .frame ⟨t.pd, [], 0⟩
  | .rpd => ∀ t : Opcodes, encode t i = .frame ⟨t.rpd, [], 0⟩
  | .rdid addr nin => ∀ t : Opcodes, encode t i = .frame ⟨t.rdid, addrBytes addr, nin⟩
  | .jedec nin => ∀ t : Opcodes, encode t i = .frame ⟨t.jedec, [], nin⟩
  | .rsten => ∀ t : Opcodes, encode t i = .frame ⟨t.rsten, [], 0⟩
  | .rst => ∀ t : Opcodes, encode t i = .frame ⟨t.rst, [], 0⟩
  | .hostInit x => ∀ t : Opcodes, encode t i = .request ⟨0x00000001, x.addr, x.len, x.data⟩
  | .readId x => ∀ t : Opcodes, encode t i = .request ⟨0x00000002, x.addr, x.len, x.data⟩
  | .readJedecId x => ∀ t : Opcodes, encode t i = .request ⟨0x00000003, x.addr, x.len, x.data⟩
  | .hostRead x => ∀ t : Opcodes, encode t i = .request ⟨0x00000004, x.addr, x.len, x.data⟩
  | .hostWrite x => ∀ t : Opcodes, encode t i = .request ⟨0x00000005, x.addr, x.len, x.data⟩
  | .writeNoCheck x => ∀ t : Opcodes, encode t i = .request ⟨0x00000006, x.addr, x.len, x.data⟩
  | .eraseSector x => ∀ t : Opcodes, encode t i = .request ⟨0x00000007, x.addr, x.len, x.data⟩
  | .eraseBlock x => ∀ t : Opcodes, encode t i = .request ⟨0x00000008, x.addr, x.len, x.data⟩
  | .eraseChip x => ∀ t : Opcodes, encode t i = .request ⟨0x00000009, x.addr, x.len, x.data⟩
  | .powerDown x => ∀ t : Opcodes, encode t i = .request ⟨0x0000000A, x.addr, x.len, x.data⟩
  | .wakeUp x => ∀ t : Opcodes, encode t i = .request ⟨0x0000000B, x.addr, x.len, x.data⟩
  | .selfTest x => ∀ t : Opcodes, encode t i = .request ⟨0x0000000C, x.addr, x.len, x.data⟩

theorem wren : Statement .wren := fun _ => rfl

theorem rdsr (nin : Nat) : Statement (.rdsr nin) := fun _ => rfl

theorem wrsr (out : List Byte) : Statement (.wrsr out) := fun _ => rfl

theorem wireRead (addr : Addr) (nin : Nat) : Statement (.wireRead addr nin) := by
  intro t; simp [encode, rawFrame, WireOp.byte]

theorem fastRead (addr : Addr) (dummy : Byte) (nin : Nat) : Statement (.fastRead addr dummy nin) := by
  intro t; simp [encode, rawFrame, WireOp.byte]

theorem pp (addr : Addr) (out : List Byte) : Statement (.pp addr out) := by
  intro t; simp [encode, rawFrame, WireOp.byte]

theorem se (addr : Addr) : Statement (.se addr) := by
  intro t; simp [encode, rawFrame, WireOp.byte]

theorem be (addr : Addr) : Statement (.be addr) := by
  intro t; simp [encode, rawFrame, WireOp.byte]

theorem ce : Statement .ce := fun _ => rfl

theorem pd : Statement .pd := fun _ => rfl

theorem rpd : Statement .rpd := fun _ => rfl

theorem rdid (addr : Addr) (nin : Nat) : Statement (.rdid addr nin) := by
  intro t; simp [encode, rawFrame, WireOp.byte]

theorem jedec (nin : Nat) : Statement (.jedec nin) := fun _ => rfl

theorem rsten : Statement .rsten := fun _ => rfl

theorem rst : Statement .rst := fun _ => rfl

theorem hostInit (x : HostArgs) : Statement (.hostInit x) := fun _ => rfl

theorem readId (x : HostArgs) : Statement (.readId x) := fun _ => rfl

theorem readJedecId (x : HostArgs) : Statement (.readJedecId x) := fun _ => rfl

theorem hostRead (x : HostArgs) : Statement (.hostRead x) := fun _ => rfl

theorem hostWrite (x : HostArgs) : Statement (.hostWrite x) := fun _ => rfl

theorem writeNoCheck (x : HostArgs) : Statement (.writeNoCheck x) := fun _ => rfl

theorem eraseSector (x : HostArgs) : Statement (.eraseSector x) := fun _ => rfl

theorem eraseBlock (x : HostArgs) : Statement (.eraseBlock x) := fun _ => rfl

theorem eraseChip (x : HostArgs) : Statement (.eraseChip x) := fun _ => rfl

theorem powerDown (x : HostArgs) : Statement (.powerDown x) := fun _ => rfl

theorem wakeUp (x : HostArgs) : Statement (.wakeUp x) := fun _ => rfl

theorem selfTest (x : HostArgs) : Statement (.selfTest x) := fun _ => rfl

end Sys2Proof.Laws.OpcodeWord
end

