-- ==== Sys2Proof/Tests/Slice0.lean ====
section
/-! SUPPORT. Tests: ill-formed terms that WellFormed refuses, words written out from the spec's encodings, one-step tests
whose results are hand-calculated in 95_test_vectors.md (its identifiers are in the names), and a witness for the
hypotheses of every obligation. -/

namespace Sys2Proof.Tests

open Sys2Proof Sys2Proof.Machine

/-! ### WellFormed refuses (30_encoding.md R102; 40_bus_commands.md R141; 10_state.md R50) -/

theorem test_wf_rdsr_two_bytes : (Instr.rdsr 2).wellFormed (2 ^ 24) = false := by decide
theorem test_wf_read_no_byte : (Instr.wireRead 0x100 0).wellFormed (2 ^ 24) = false := by decide
theorem test_wf_read_past_end : (Instr.wireRead 0xFFFFFF 2).wellFormed (2 ^ 24) = false := by decide
theorem test_wf_read_to_end : (Instr.wireRead 0xFFFFFE 2).wellFormed (2 ^ 24) = true := by decide
theorem test_wf_pp_empty : (Instr.pp 0 []).wellFormed (2 ^ 24) = false := by decide
theorem test_wf_pp_257 : (Instr.pp 0 (List.replicate 257 0)).wellFormed (2 ^ 24) = false := by
  decide +kernel
theorem test_wf_pp_crosses : (Instr.pp 0x0000FF [0xAA, 0xBB]).wellFormed (2 ^ 24) = false := by decide
theorem test_wf_pp_past_end : (Instr.pp 0x100000 [0xAA]).wellFormed 0x100000 = false := by decide
theorem test_wf_pp_page : (Instr.pp 0x000100 (List.replicate 256 0)).wellFormed (2 ^ 24) = true := by
  decide +kernel
theorem test_wf_se_past_end : (Instr.se 0x100000).wellFormed 0x100000 = false := by decide
theorem test_wf_be_past_end : (Instr.be 0x100000).wellFormed 0x100000 = false := by decide
theorem test_wf_rdid_address : (Instr.rdid 1 2).wellFormed (2 ^ 24) = false := by decide
theorem test_wf_rdid_one_byte : (Instr.rdid 0 1).wellFormed (2 ^ 24) = false := by decide
theorem test_wf_jedec_two_bytes : (Instr.jedec 2).wellFormed (2 ^ 24) = false := by decide
theorem test_wf_write_length : (Instr.hostWrite ⟨0, 4, [1, 2, 3]⟩).wellFormed (2 ^ 24) = false := by decide
theorem test_wf_no_check_length : (Instr.writeNoCheck ⟨0, 1, []⟩).wellFormed (2 ^ 24) = false := by decide

/-! ### Decoding: frames from 30_encoding.md R97 and R100, command words from R106 and R115 -/

theorem test_decode_wren : decodeFrame Opcodes.default ⟨0x06, [], 0⟩ = .ok .wren := by decide
theorem test_decode_rdsr : decodeFrame Opcodes.default ⟨0x05, [], 1⟩ = .ok (.rdsr 1) := by decide
theorem test_decode_wrsr : decodeFrame Opcodes.default ⟨0x01, [0x00], 0⟩ = .ok (.wrsr [0x00]) := by decide
theorem test_decode_read : decodeFrame Opcodes.default ⟨0x03, [0x00, 0x0F, 0xFE], 4⟩ = .ok (.wireRead 0x000FFE 4) := by decide
theorem test_decode_fast_read : decodeFrame Opcodes.default ⟨0x0B, [0x12, 0x34, 0x56, 0xFF], 2⟩ = .ok (.fastRead 0x123456 0xFF 2) := by
  decide
theorem test_decode_pp : decodeFrame Opcodes.default ⟨0x02, [0x00, 0x01, 0x00, 0xDE, 0xAD], 0⟩ = .ok (.pp 0x000100 [0xDE, 0xAD]) := by
  decide
theorem test_decode_se : decodeFrame Opcodes.default ⟨0x20, [0xFF, 0xF0, 0x00], 0⟩ = .ok (.se 0xFFF000) := by decide
theorem test_decode_be : decodeFrame Opcodes.default ⟨0xD8, [0x01, 0x23, 0x45], 0⟩ = .ok (.be 0x012345) := by decide
theorem test_decode_ce : decodeFrame Opcodes.default ⟨0xC7, [], 0⟩ = .ok .ce := by decide
theorem test_decode_pd : decodeFrame Opcodes.default ⟨0xB9, [], 0⟩ = .ok .pd := by decide
theorem test_decode_rpd : decodeFrame Opcodes.default ⟨0xAB, [], 0⟩ = .ok .rpd := by decide
theorem test_decode_rdid : decodeFrame Opcodes.default ⟨0x90, [0x00, 0x00, 0x00], 2⟩ = .ok (.rdid 0 2) := by decide
theorem test_decode_jedec : decodeFrame Opcodes.default ⟨0x9F, [], 3⟩ = .ok (.jedec 3) := by decide
theorem test_decode_rsten : decodeFrame Opcodes.default ⟨0x66, [], 0⟩ = .ok .rsten := by decide
theorem test_decode_rst : decodeFrame Opcodes.default ⟨0x99, [], 0⟩ = .ok .rst := by decide
theorem test_decode_init : decodeRequest ⟨0x00000001, 0, 0, []⟩ = .ok (.hostInit ⟨0, 0, []⟩) := by decide
theorem test_decode_read_id : decodeRequest ⟨0x00000002, 0, 0, []⟩ = .ok (.readId ⟨0, 0, []⟩) := by decide
theorem test_decode_read_jedec_id : decodeRequest ⟨0x00000003, 0, 0, []⟩ = .ok (.readJedecId ⟨0, 0, []⟩) := by decide
theorem test_decode_host_read : decodeRequest ⟨0x00000004, 0x10, 1, []⟩ = .ok (.hostRead ⟨0x10, 1, []⟩) := by decide
theorem test_decode_host_write :
    decodeRequest ⟨0x00000005, 0x100, 4, [0xDE, 0xAD, 0xBE, 0xEF]⟩
      = .ok (.hostWrite ⟨0x100, 4, [0xDE, 0xAD, 0xBE, 0xEF]⟩) := by decide
theorem test_decode_write_no_check : decodeRequest ⟨0x00000006, 2, 1, [7]⟩ = .ok (.writeNoCheck ⟨2, 1, [7]⟩) := by decide
theorem test_decode_erase_sector : decodeRequest ⟨0x00000007, 0x2000, 0, []⟩ = .ok (.eraseSector ⟨0x2000, 0, []⟩) := by
  decide
theorem test_decode_erase_block : decodeRequest ⟨0x00000008, 0x1ABCD, 0, []⟩ = .ok (.eraseBlock ⟨0x1ABCD, 0, []⟩) := by
  decide
theorem test_decode_erase_chip : decodeRequest ⟨0x00000009, 0, 7, []⟩ = .ok (.eraseChip ⟨0, 7, []⟩) := by decide
theorem test_decode_power_down : decodeRequest ⟨0x0000000A, 0, 0, []⟩ = .ok (.powerDown ⟨0, 0, []⟩) := by decide
theorem test_decode_wake_up : decodeRequest ⟨0x0000000B, 0, 0, []⟩ = .ok (.wakeUp ⟨0, 0, []⟩) := by decide
theorem test_decode_self_test : decodeRequest ⟨0x0000000C, 0, 0, []⟩ = .ok (.selfTest ⟨0, 0, []⟩) := by decide

/-- Reserved opcodes, 0x60 among them (R104). -/
theorem test_decode_reserved_opcode :
    decodeFrame Opcodes.default ⟨0x60, [], 0⟩ = .error (.unknownOpcode 0x60 [] 0) ∧
      decodeFrame Opcodes.default ⟨0xFF, [1], 2⟩ = .error (.unknownOpcode 0xFF [1] 2) := by decide

/-- Reserved codes and a reserved bit (R106, R108). -/
theorem test_decode_reserved_code :
    decodeRequest ⟨0x00000000, 0, 0, []⟩ = .error (.illegalOp ⟨0x00000000, 0, 0, []⟩) ∧
      decodeRequest ⟨0x0000000D, 0, 0, []⟩ = .error (.illegalOp ⟨0x0000000D, 0, 0, []⟩) ∧
      decodeRequest ⟨0x00000011, 0, 0, []⟩ = .error (.illegalOp ⟨0x00000011, 0, 0, []⟩) := by decide

/-- The default opcode bytes, and a table with the chip-erase byte that other parts use (R100, R104; 00_scope.md R9). -/
def otherTable : Opcodes := { Opcodes.default with ce := 0x60 }

theorem test_other_table :
    decodeFrame otherTable ⟨0x60, [], 0⟩ = .ok .ce ∧
      decodeFrame otherTable ⟨0xC7, [], 0⟩ = .error (.unknownOpcode 0xC7 [] 0) ∧
      encode otherTable .ce = .frame ⟨0x60, [], 0⟩ := by decide

/-- `SECTOR_COUNT` at the default (00_scope.md R9). -/
theorem test_sector_count : Params.default.sectorCount = 4096 := by decide

/-- A frame without its address bytes is of no format of R96. -/
theorem test_decode_short_frame : decodeFrame Opcodes.default ⟨0x20, [0x00, 0x10], 0⟩ = .error (.badFormat .se none [0x00, 0x10] 0) := by
  decide

/-! ### One step -/

/-- What a field is in the state answered. -/
def see {α : Type} (o : Host.Outcome State Fault Refusal) (f : State → α) : Option α :=
  match o with
  | .next t => some (f t)
  | .fault _ => none
  | .refused _ => none

/-- A clean start (70_reset_and_hazards.md R288) over a few programmed bytes. -/
def clean : State := State.powerUp Params.default [(0x10, 0x0F), (0x100, 0x12), (0x101, 0x34), (0x1005, 0x00)] false

/-- A controller inside a request. -/
def running : State := { clean with ctlState := .running }

/-- A WRITE-ENABLED device. -/
def enabled : State := { running with wel := true }

/-- A BUSY device. -/
def busyDevice : State := { running with wel := true, busy := true, pending := .eraseSector 0x001000 }

/-- A sleeping device. -/
def sleeping : State := { running with asleep := true }

theorem test_step_wren_dc05 : see (exec .wren running) (fun t => (t.wel, t.busy, t.faults)) = some (true, false, []) := by
  decide
theorem test_step_wren_busy_dc06 : see (exec .wren busyDevice) (fun t => (t.wel, t.busy, t.faults)) = some (true, true, []) :=
  by decide
theorem test_status_byte_dc01_to_dc04 :
    statusByte Params.default 0 false false = 0x00 ∧ statusByte Params.default 0 false true = 0x02 ∧
      statusByte Params.default 0 true true = 0x03 ∧ statusByte Params.default 0xAB false false = 0xA8 := by decide
theorem test_step_rdsr_asleep_dc26 : see (exec (.rdsr 1) sleeping) (fun t => t.faults) = some [.deviceAsleep 0x05] := by
  decide
theorem test_step_read_dc07 : see (exec (.wireRead 0x000100 2) running) (fun t => t.rx) = some [0x12, 0x34] := by decide
theorem test_step_read_dc10 :
    see (exec (.wireRead 0xFFFFFF 2) running) (fun t => t.faults) = some [.badFrame 0x03 (some 0xFFFFFF) 0 2] := by decide
theorem test_step_read_busy_dc31 :
    see (exec (.wireRead 0 0) busyDevice) (fun t => t.faults) = some [.badFrame 0x03 (some 0) 0 0] := by decide
theorem test_step_pp_dc11 :
    see (exec (.pp 0x000100 [0xDE, 0xAD]) enabled) (fun t => (t.busy, t.pending))
      = some (true, .program 0x000100 [0xDE, 0xAD]) := by decide
theorem test_step_pp_dc12 :
    see (exec (.pp 0x000100 [0xDE, 0xAD]) running) (fun t => (t.busy, t.wel, t.pending, t.faults))
      = some (false, false, .none, []) := by decide
theorem test_complete_program_dc13 :
    ({ enabled with busy := true, pending := .program 0x000010 [0xF3] } : State).complete.mem.read 0x10 = 0x03 := by decide
theorem test_step_se_dc17 :
    see (exec (.se 0x001234) enabled) (fun t => t.pending) = some (.eraseSector 0x001000) := by decide
theorem test_step_se_busy_dc32 :
    see (exec (.se 0x003000) busyDevice) (fun t => (t.pending, t.trace))
      = some (.eraseSector 0x001000, [.frame 0x20 (some 0x003000) [] []]) := by decide
theorem test_complete_sector_dc16 :
    busyDevice.complete.mem.read 0x1005 = 0xFF ∧ busyDevice.complete.mem.read 0x100 = 0x12 ∧
      busyDevice.complete.wel = false := by decide
theorem test_step_be_dc19 :
    see (exec (.be 0x012345) enabled) (fun t => t.pending) = some (.eraseBlock 0x010000) := by decide
theorem test_step_ce_dc20 : see (exec .ce enabled) (fun t => (t.busy, t.pending)) = some (true, .eraseChip) := by decide
theorem test_step_jedec_dc21 : see (exec (.jedec 3) running) (fun t => t.rx) = some [0xEF, 0x40, 0x18] := by decide
theorem test_step_jedec_dc22 :
    see (exec (.jedec 2) running) (fun t => t.faults) = some [.badFrame 0x9F none 0 2] := by decide
theorem test_step_rdid_dc23 : see (exec (.rdid 0 2) running) (fun t => t.rx) = some [0xEF, 0x17] := by decide
theorem test_step_rdid_dc24 :
    see (exec (.rdid 1 2) running) (fun t => t.faults) = some [.badFrame 0x90 (some 1) 0 2] := by decide
theorem test_step_pd_dc25 : see (exec .pd running) (fun t => t.asleep) = some true := by decide
theorem test_step_pd_busy_dc33 : see (exec .pd busyDevice) (fun t => t.asleep) = some false := by decide
theorem test_step_rpd_dc27 : see (exec .rpd sleeping) (fun t => (t.asleep, t.faults)) = some (false, []) := by decide
theorem test_step_fast_read_dc29 :
    see (exec (.fastRead 0 0xFF 0) running) (fun t => (t.refused, t.faults)) = some (true, [.unmodelled 0x0B]) := by decide
theorem test_step_fast_read_dc30 :
    see (exec (.fastRead 0 0xFF 0) sleeping) (fun t => (t.refused, t.faults)) = some (false, [.deviceAsleep 0x0B]) := by
  decide
theorem test_step_wrsr_dc29 :
    see (exec (.wrsr [0x00]) running) (fun t => (t.refused, t.faults)) = some (true, [.unmodelled 0x01]) := by decide
theorem test_step_rsten_dc29 :
    see (exec .rsten running) (fun t => (t.refused, t.faults)) = some (true, [.unmodelled 0x66]) := by decide
theorem test_step_rst_dc29 :
    see (exec .rst running) (fun t => (t.refused, t.faults)) = some (true, [.unmodelled 0x99]) := by decide
theorem test_step_reserved_dc29 :
    see (State.frameStep ⟨0xFF, [], 0⟩ running) (fun t => (t.refused, t.faults)) = some (true, [.unmodelled 0xFF]) := by
  decide

/-- A frame of the wrong format raises `BadFrame` (40_bus_commands.md R141; what it reports is log 17). -/
theorem test_step_short_frame :
    see (State.frameStep ⟨0x20, [0x00, 0x10], 0⟩ running) (fun t => t.faults) = some [.badFrame 0x20 none 2 0] := by
  decide

/-- The byte logged and the byte decoded are those of the machine's own table (30_encoding.md R100). -/
theorem test_step_other_table :
    see (State.frameStep ⟨0x60, [], 0⟩ { enabled with params := { Params.default with opc := otherTable } })
      (fun t => (t.pending, t.trace)) = some (.eraseChip, [.frame 0x60 none [] []]) := by decide

/-- Beyond the schedule the device lets its delay pass and completes (40_bus_commands.md R149, log 21). -/
theorem test_turn_delay :
    see (step { busyDevice with delay := 2 }) (fun t => (t.busy, t.delay)) = some (true, 1) ∧
      see (step { busyDevice with delay := 0 }) (fun t => t.busy) = some false := by decide

theorem test_accept_init : see (exec (.hostInit ⟨9, 9, [9]⟩) clean) (fun t => (t.ctlState, t.req, t.cont))
    = some (.running, ⟨1, 9, 9, [9]⟩, [.xfer .rpd, .ret .ok .zero false]) := by decide
theorem test_accept_read_id : see (exec (.readId ⟨0, 0, []⟩) clean) (fun t => t.cont)
    = some [.xfer .rdid, .setId16, .ret .ok .identifier false] := by decide
theorem test_accept_read_jedec_id : see (exec (.readJedecId ⟨0, 0, []⟩) clean) (fun t => t.cont)
    = some [.xfer .jedec, .setId24, .ret .ok .identifier false] := by decide
theorem test_accept_read_w02 :
    see (exec (.hostRead ⟨0xFFFFFFFF, 0, []⟩) clean) (fun t => t.faults) = some [.outOfRange 0xFFFFFFFF 0] := by decide
theorem test_accept_read_w04 :
    see (exec (.hostRead ⟨0x00FFFFFF, 2, []⟩) clean) (fun t => t.faults) = some [.outOfRange 0x00FFFFFF 2] := by decide
theorem test_accept_write_w06 :
    see (exec (.hostWrite ⟨0x01000000, 0, []⟩) clean) (fun t => (t.faults, t.ctlState)) = some ([], .running) := by decide
theorem test_accept_write_w09 :
    see (exec (.hostWrite ⟨0, 4, [1, 2, 3]⟩) clean) (fun t => (t.faults, t.ctlState))
      = some ([.badRequest 5 4 3], .running) := by decide
theorem test_accept_write_no_check :
    see (exec (.writeNoCheck ⟨0x00FFFFFF, 2, [1, 2]⟩) clean) (fun t => t.faults) = some [.outOfRange 0x00FFFFFF 2] := by
  decide
theorem test_accept_erase_sector_e03 :
    see (exec (.eraseSector ⟨0x01000000, 0, []⟩) clean) (fun t => t.faults) = some [.outOfRange 0x01000000 0] := by decide
theorem test_accept_erase_block_e07 :
    see (exec (.eraseBlock ⟨0xFFFFFFFF, 0, []⟩) clean) (fun t => t.faults) = some [.outOfRange 0xFFFFFFFF 0] := by decide
theorem test_accept_erase_chip_e08 :
    see (exec (.eraseChip ⟨0xDEADBEEF, 7, []⟩) clean) (fun t => (t.faults, t.ctlState)) = some ([], .running) := by decide
theorem test_accept_power_down : see (exec (.powerDown ⟨0, 0, []⟩) clean) (fun t => t.cont)
    = some [.xfer .pd, .ret .ok .zero false] := by decide
theorem test_accept_wake_up : see (exec (.wakeUp ⟨0, 0, []⟩) clean) (fun t => t.cont)
    = some [.xfer .rpd, .ret .ok .zero false] := by decide
theorem test_accept_self_test : see (exec (.selfTest ⟨0, 0, []⟩) clean) (fun t => t.cont.take 4)
    = some [.xfer .jedec, .setId24, .idCheck, .sizeCheck] := by decide
theorem test_accept_reentrant :
    see (exec (.powerDown ⟨0, 0, []⟩) running) (fun t => (t.faults, t.cont)) = some ([.reentrant 0xA], []) := by decide

/-! ### Lines of the pseudocode (95_test_vectors.md L1-7, W-10, L1-2) -/

/-- Chunk 1 of L1-7. -/
theorem test_chunk_l1_7_first :
    (fun t : State => (t.secBase, t.off, t.chunk))
      (({ running with curAddr := 0x000F9C, remLen := 5000 } : State).internal .chunkInit [])
      = (0x000000, 0xF9C, 100) := by decide

/-- Chunk 2 of L1-7. -/
theorem test_chunk_l1_7_second :
    (fun t : State => (t.secBase, t.off, t.chunk))
      (({ running with curAddr := 0x001000, remLen := 4900 } : State).internal .chunkInit [])
      = (0x001000, 0, 4096) := by decide

/-- The registers at the end of L1-7. -/
theorem test_advance_l1_7_last :
    (fun t : State => (t.curAddr, t.bufOff, t.remLen))
      (({ running with curAddr := 0x002000, bufOff := 4196, remLen := 804, chunk := 804 } : State).internal .advance [])
      = (0x002324, 5000, 0) := by decide

/-- The three pages of W-10. -/
theorem test_pages_w10 : pieceLen 0xF0 300 0 = 16 ∧ pieceLen 0xF0 300 16 = 256 ∧ pieceLen 0xF0 300 272 = 28 := by decide

/-- The capacity of L1-6 and P3. -/
theorem test_capacity_p3 : idMfr 0xEF4018 = 0xEF ∧ idCapacity 0xEF4018 = 0x01000000 := by decide

/-- The overlay of L1-2. -/
theorem test_overlay : overlay [1, 2, 3, 4, 5] 1 [8, 9] = [1, 8, 9, 4, 5] := by decide

/-! ### The machine fetches what is placed  -/

theorem test_fetch_wren : see (step (clean.withFetchWord 8 0x06)) (fun t => (t.wel, t.cont)) = some (true, []) := by decide
theorem test_fetch_init : see (step (State.reset.withFetchWord 32 1)) (fun t => t.req.op) = some 1 := by decide
theorem test_table_words :
    decodeTableWord 8 0x02 = some (.pp 0 [0]) ∧ decodeTableWord 32 0xC = some (.selfTest ⟨0, 0, []⟩) ∧
      decodeTableWord 8 0x60 = none ∧ decodeTableWord 32 0x10 = none := by decide

/-! ### Witnesses: the hypotheses of each obligation are met, by `clean` and its kin, at the ends of their ranges -/

/-- A request of four bytes. -/
def four : HostArgs := ⟨0x100, 4, [0xDE, 0xAD, 0xBE, 0xEF]⟩

/-- A request of two bytes that ends where the array ends. -/
def atEnd : HostArgs := ⟨0x00FFFFFE, 2, [0x11, 0x22]⟩

/-- The last address of the array. -/
def lastByte : HostArgs := ⟨0x00FFFFFF, 0, []⟩

/-- A device with another manufacturer byte, one with an exponent out of range, and one behind a bounded poll. -/
def wrongMaker : State := { clean with params := { Params.default with devMfr := 0 } }

def tooLarge : State := { clean with params := { Params.default with devCapExp := 0x19 } }

def bounded : State := { clean with params := { Params.default with pollLimit := some 2 } }

/-- A controller about to send the `WREN` of an erase. -/
def aboutToErase : State :=
  { running with cont := gated (.erase .sectorZero) ++ [.ret .ok .zero false], schedule := [.main] }

theorem clean_start : clean.CleanStart := ⟨rfl, rfl, rfl, rfl, rfl⟩
theorem clean_params : clean.params.wf = true := by decide +kernel
theorem clean_mem : clean.mem.wf := by decide
theorem bounded_params : bounded.params.wf = true := by decide +kernel

theorem witness_DecodeEncodeRoundTrip : Opcodes.default.distinct = true ∧ otherTable.distinct = true := by decide

theorem witness_EncodeInvertsDecode : decode Opcodes.default (.frame ⟨0x20, [0xFF, 0xF0, 0x00], 0⟩) = .ok (.se 0xFFF000) := by decide

theorem witness_IllegalCommandWordFaults :
    clean.ctlState = .idle ∧ clean.faults = [] ∧ cmdOp 0x00000000 = 0x0 ∧ cmdOp 0x0000000D = 0xD ∧
      cmdOp 0x0000000E = 0xE ∧ cmdOp 0x0000000F = 0xF ∧ cmdReserved 0x80000001 ≠ 0 ∧
      (cmdOp 0x00000001 = 0x1 ∧ cmdReserved 0x00000001 = 0) := by decide

theorem witness_StepRunsSentFrame :
    aboutToErase.params.geometryOk = true ∧ aboutToErase.schedule = .main :: [] ∧ aboutToErase.ctlState = .running ∧
      aboutToErase.faults = [] ∧
      aboutToErase.cont = .xfer .wren :: (.xfer (.erase .sectorZero) :: (busyPoll ++ [.ret .ok .zero false])) ∧
      decodeFrame Opcodes.default ⟨0x06, [], 0⟩ = .ok .wren := by decide

theorem witness_StepRunsSentFrame_frame : frameOf aboutToErase .wren = .ok ⟨0x06, [], 0⟩ := rfl

theorem witness_StepRunsSubmittedRequest :
    (∃ s : State, s.params.geometryOk = true ∧ s.hostQueue = ⟨1, 0, 0, []⟩ :: [] ∧ s.schedule = .hostNow :: []) ∧
      (∃ s : State, s.params.geometryOk = true ∧ s.hostQueue = ⟨1, 0, 0, []⟩ :: [] ∧ s.schedule = .main :: [] ∧
        s.ctlState = .idle) ∧ decodeRequest ⟨1, 0, 0, []⟩ = .ok (.hostInit ⟨0, 0, []⟩) :=
  ⟨⟨{ running with hostQueue := [⟨1, 0, 0, []⟩], schedule := [.hostNow] }, by decide⟩,
    ⟨{ clean with hostQueue := [⟨1, 0, 0, []⟩], schedule := [.main] }, by decide⟩, by decide⟩

theorem witness_DeviceTurnCompletes :
    ∃ s : State, s.params.geometryOk = true ∧ s.schedule = .device :: [] ∧ s.busy = true :=
  ⟨{ busyDevice with schedule := [.device] }, by decide⟩

theorem witness_StuckExactlyWhenNothingEnabled :
    step { running with faults := [.scratchUninit 0], schedule := [.main] } = .fault .stuck := rfl

theorem witness_BadGeometryRefused :
    step { clean with params := { Params.default with capacity := 65537 } } = .refused .badGeometry := rfl

theorem witness_WrenSetsWel : running.asleep = false ∧ running.busy = false := by decide

theorem witness_RdsrReturnsStatus : busyDevice.params.wf = true ∧ busyDevice.asleep = false := by decide +kernel

theorem witness_ReadFrameReturnsArray :
    running.asleep = false ∧ running.busy = false ∧ 1 ≤ 2 ∧ (0xFFFFFE : Addr).toNat + 2 ≤ running.params.capacity := by
  decide

theorem witness_IdFramesReturnIdentity : running.asleep = false ∧ running.busy = false := by decide

theorem witness_PageProgramNeedsWel :
    enabled.asleep = false ∧ enabled.busy = false ∧ enabled.wel = true ∧ running.wel = false ∧
      (Instr.pp 0xFFFFFE [0x11, 0x22]).wellFormed enabled.params.capacity = true := by decide

theorem witness_EraseFramesNeedWel :
    enabled.asleep = false ∧ enabled.busy = false ∧ (0xFFFFFF : Addr).toNat < enabled.params.capacity := by decide

theorem witness_PowerFramesSwitchAsleep :
    running.busy = false ∧ running.asleep = false ∧ sleeping.busy = false ∧ sleeping.asleep = true := by decide

theorem witness_UnemittedCommandsRefused :
    running.asleep = false ∧ frameFields (.wrsr [0]) = some (.wrsr, none, [0], 0) ∧
      frameFields (.fastRead 0 0xFF 1) = some (.fastRead, some 0, [0xFF], 1) ∧
      frameFields .rsten = some (.rsten, none, [], 0) ∧ frameFields .rst = some (.rst, none, [], 0) ∧
      WireOp.ofByte? running.params.opc 0x60 = none := ⟨rfl, rfl, rfl, rfl, rfl, rfl⟩

/-- `RSTEN` with a payload, `WRSR` with none, and a `FAST_READ` without its dummy byte. -/
theorem witness_UnemittedCommandsRefused_format :
    running.asleep = false ∧
      (WireOp.ofByte? running.params.opc 0x66 = some .rsten ∧ decodeOperands .rsten [0x00] 0 = none) ∧
      (WireOp.ofByte? running.params.opc 0x01 = some .wrsr ∧ decodeOperands .wrsr [] 1 = none) ∧
      (WireOp.ofByte? running.params.opc 0x0B = some .fastRead ∧ decodeOperands .fastRead [0x00, 0x10, 0x00] 1 = none) ∧
      WireOp.ofByte? running.params.opc 0x99 = some .rst ∧ decodeOperands .rst [] 1 = none := by decide

theorem witness_SleepingDeviceFaults :
    sleeping.asleep = true ∧ frameFields (.rdsr 1) = some (.rdsr, none, [], 1) ∧ WireOp.rdsr ≠ .rpd := by decide

theorem witness_IllFormedFrameFaults :
    running.asleep = false ∧ frameFields (.jedec 2) = some (.jedec, none, [], 2) ∧
      (Instr.jedec 2).wellFormed running.params.capacity = false := by decide

/-- Frames of the wrong format: an address of two bytes, and an `RPD` with a payload to a sleeping device. -/
theorem witness_IllFormedFrameFaults_format :
    (running.asleep = false ∧ WireOp.ofByte? running.params.opc 0x20 = some .se ∧ emitted .se = true ∧
      decodeOperands .se [0x00, 0x10] 0 = none) ∧
    (sleeping.asleep = true ∧ WireOp.ofByte? sleeping.params.opc 0xAB = some .rpd ∧ emitted .rpd = true ∧
      decodeOperands .rpd [0x00] 0 = none) := by decide

theorem witness_BusyDeviceIgnoresFrames :
    busyDevice.asleep = false ∧ busyDevice.busy = true ∧ frameFields (.wireRead 0x100 2) = some (.read, some 0x100, [], 2) ∧
      (Instr.wireRead 0x100 2).wellFormed busyDevice.params.capacity = true := by decide

/-- `RPD` to a device both BUSY and asleep. -/
theorem witness_BusyDeviceIgnoresFrames_asleep :
    ∃ s : State, s.asleep = true ∧ s.busy = true ∧ frameFields .rpd = some (.rpd, none, [], 0) ∧ emitted .rpd = true ∧
      Instr.rpd.wellFormed s.params.capacity = true :=
  ⟨{ busyDevice with asleep := true }, by decide⟩

theorem witness_FramesLeaveArrayAndController : ∃ t, exec (.se 0x001234) enabled = .next t := ⟨_, rfl⟩

theorem witness_DeviceTransitionTable :
    deviceState running = .ready ∧ deviceState enabled = .writeEnabled ∧ deviceState busyDevice = .busy ∧
      emitted .pp = true ∧ (Instr.pp 0 [0]).wellFormed running.params.capacity = true := by decide

theorem witness_ProgramStoresAnd :
    ∃ s : State, s.mem.wf ∧ s.pending = .program 0x000010 [0xF3] :=
  ⟨{ busyDevice with pending := .program 0x000010 [0xF3] }, by decide, rfl⟩

theorem witness_EraseSetsAllOnes :
    busyDevice.pending = .eraseSector 0x001000 ∧
      ({ busyDevice with pending := .eraseBlock 0x010000 } : State).pending = .eraseBlock 0x010000 ∧
      ({ busyDevice with pending := .eraseChip } : State).pending = .eraseChip := by decide

theorem witness_PendingOperationsIdempotent : clean.mem.wf := clean_mem

theorem witness_StepKeepsMachineInvariant : aboutToErase.Inv ∧ ∃ t, step aboutToErase = .next t :=
  ⟨⟨by decide, by decide, by decide, by decide, by decide, trivial, List.length_replicate, by decide,
    fun h => by cases h⟩, _, rfl⟩

theorem witness_StepKeepsGatingDiscipline : aboutToErase.GatingInv ∧ ∃ t, step aboutToErase = .next t :=
  ⟨⟨by decide, rfl, rfl⟩, _, rfl⟩

theorem witness_PowerUpMeetsInvariants :
    clean.mem.wf ∧ (∀ c ∈ clean.mem, c.1 < clean.params.capacity) ∧ clean.params.opc.distinct = true := by decide

theorem witness_ArrayChangesOnlyAtCompletion :
    ∃ t, step { busyDevice with schedule := [.device] } = .next t ∧ t.mem ≠ busyDevice.mem := ⟨_, rfl, by decide⟩

theorem witness_OnlyCompletionClearsWel :
    ∃ t, step { busyDevice with schedule := [.device] } = .next t ∧ busyDevice.wel = true ∧ t.wel = false :=
  ⟨_, rfl, rfl, rfl⟩

theorem witness_FaultRecordsAreSticky : ∃ t, step { busyDevice with faults := [.reentrant 4], schedule := [.device] } = .next t :=
  ⟨_, rfl⟩

theorem witness_FaultStopsController :
    (∃ t, step { busyDevice with faults := [.reentrant 4], schedule := [.main] } = .next t) ∧
      ∃ t, step { running with faults := [.reentrant 4], hostQueue := [⟨1, 0, 0, []⟩], schedule := [.hostNow] } = .next t :=
  ⟨⟨_, rfl⟩, ⟨_, rfl⟩⟩

theorem witness_TraceOnlyGrows : ∃ t, step aboutToErase = .next t ∧ t.trace = [.frame 0x06 none [] []] := ⟨_, rfl, rfl⟩

/-- One request for each clause, where its check first fails (95_test_vectors.md W-02, W-04, W-06, W-09, E-03), and a
word that selects no operation. -/
theorem witness_AcceptanceChecksInOrder :
    (requestFields (.hostWrite four) = some (.write, four) ∧ running.ctlState = .running) ∧
      (requestFields (.hostWrite ⟨0, 4, [1, 2, 3]⟩) = some (.write, ⟨0, 4, [1, 2, 3]⟩) ∧ clean.ctlState = .idle ∧
        [1, 2, 3].length ≠ (4 : Word).toNat) ∧
      (clean.params.capacity < (0x00FFFFFF : Word).toNat + (2 : Word).toNat ∧
        ¬ clean.params.capacity < (0x01000000 : Word).toNat + (0 : Word).toNat) ∧
      (clean.params.capacity ≤ (0x01000000 : Word).toNat ∧ ¬ clean.params.capacity ≤ lastByte.addr.toNat) ∧
      (requestFields (.eraseChip ⟨0xDEADBEEF, 7, []⟩) = some (.eraseChip, ⟨0xDEADBEEF, 7, []⟩)) ∧
      decodeRequest ⟨0x0000000D, 0, 0, []⟩ = .error (.illegalOp ⟨0x0000000D, 0, 0, []⟩) := by decide

theorem witness_AcceptanceLatchesRequest :
    requestFields (.hostWrite four) = some (.write, four) ∧ ∃ t, exec (.hostWrite four) clean = .next t :=
  ⟨rfl, _, rfl⟩

theorem witness_PowerOperationsComplete :
    clean.params.wf = true ∧ clean.ctlState = .idle ∧ clean.faults = [] ∧ clean.busy = false ∧
      clean.asleep = false := ⟨clean_params, rfl, rfl, rfl, rfl⟩

theorem witness_IdentificationReturnsCodes : clean.params.wf = true ∧ clean.CleanStart := ⟨clean_params, clean_start⟩

theorem witness_ReadReturnsBytes :
    clean.params.wf = true ∧ clean.CleanStart ∧ 1 ≤ atEnd.len.toNat ∧
      atEnd.addr.toNat + atEnd.len.toNat ≤ clean.params.capacity := ⟨clean_params, clean_start, by decide, by decide⟩

theorem witness_ReadWhileBusyReturnsDraws :
    ∃ s : State, s.params.wf = true ∧ s.ctlState = .idle ∧ s.faults = [] ∧ s.asleep = false ∧ s.busy = true ∧
      1 ≤ atEnd.len.toNat ∧ atEnd.addr.toNat + atEnd.len.toNat ≤ s.params.capacity :=
  ⟨{ busyDevice with ctlState := .idle }, clean_params, by decide⟩

theorem witness_ZeroLengthSendsNothing :
    sleeping.params.geometryOk = true ∧ ({ sleeping with ctlState := .idle } : State).ctlState = .idle ∧
      sleeping.faults = [] ∧ (0x01000000 : Word).toNat ≤ sleeping.params.capacity := by decide

theorem witness_EraseOperationsComplete :
    clean.params.wf = true ∧ clean.CleanStart ∧ (∀ limit, clean.params.pollLimit = some limit → 3 < limit) ∧
      lastByte.addr.toNat < clean.params.capacity :=
  ⟨clean_params, clean_start, (fun _ h => by cases h), by decide⟩

theorem witness_PollLimitTimesOut :
    bounded.params.wf = true ∧ bounded.CleanStart ∧ bounded.params.pollLimit = some 2 ∧
      lastByte.addr.toNat < bounded.params.capacity :=
  ⟨bounded_params, ⟨rfl, rfl, rfl, rfl, rfl⟩, rfl, by decide⟩

/-- A controller at the start of a busy-poll of a BUSY device. -/
theorem witness_PollLimitTimesOut_poll :
    ∃ (s : State) (rest : List Micro), s.params.wf = true ∧ s.ctlState = .running ∧ s.faults = [] ∧ s.asleep = false ∧
      s.busy = true ∧ s.params.pollLimit = some 2 ∧ s.cont = busyPoll ++ rest :=
  ⟨{ busyDevice with params := bounded.params, cont := busyPoll ++ [.advance] }, [.advance], bounded_params, rfl, rfl, rfl,
    rfl, rfl, rfl⟩

theorem witness_EraseRequestedWhileBusy :
    ∃ s : State, s.params.wf = true ∧ s.ctlState = .idle ∧ s.faults = [] ∧ s.asleep = false ∧ s.busy = true ∧
      (∀ limit, s.params.pollLimit = some limit → 1 < limit) ∧ lastByte.addr.toNat < s.params.capacity :=
  ⟨{ busyDevice with ctlState := .idle, params := bounded.params }, bounded_params, rfl, rfl, rfl, rfl,
    (fun _ h => by cases h; decide), by decide⟩

/-- A BUSY device behind an unbounded poll, for the clause about every schedule. -/
theorem witness_EraseRequestedWhileBusy_unbounded :
    ∃ s : State, s.params.wf = true ∧ s.ctlState = .idle ∧ s.faults = [] ∧ s.asleep = false ∧ s.busy = true ∧
      s.hostQueue = [] ∧ s.params.pollLimit = none ∧ lastByte.addr.toNat < s.params.capacity :=
  ⟨{ busyDevice with ctlState := .idle }, clean_params, rfl, rfl, rfl, rfl, rfl, rfl, by decide⟩

theorem witness_WriteNoCheckProgramsAnd :
    clean.params.wf = true ∧ clean.CleanStart ∧ clean.mem.wf ∧ atEnd.data.length = atEnd.len.toNat ∧
      atEnd.addr.toNat + atEnd.len.toNat ≤ clean.params.capacity :=
  ⟨clean_params, clean_start, clean_mem, by decide, by decide⟩

theorem witness_SmartWriteCompletes :
    clean.params.wf = true ∧ clean.CleanStart ∧ clean.mem.wf ∧ four.data.length = four.len.toNat ∧
      four.addr.toNat + four.len.toNat ≤ clean.params.capacity :=
  ⟨clean_params, clean_start, clean_mem, by decide, by decide⟩

theorem witness_SmartWriteUnderEverySchedule :
    clean.params.wf = true ∧ clean.CleanStart ∧ clean.mem.wf ∧ clean.hostQueue = [] ∧ clean.params.pollLimit = none ∧
      atEnd.data.length = atEnd.len.toNat ∧ atEnd.addr.toNat + atEnd.len.toNat ≤ clean.params.capacity :=
  ⟨clean_params, clean_start, clean_mem, rfl, rfl, by decide, by decide⟩

/-- A destination that reads 0xFF throughout. -/
theorem witness_SmartWriteUnderEverySchedule_erased :
    ∀ a, atEnd.addr.toNat ≤ a → a < atEnd.addr.toNat + atEnd.len.toNat → clean.mem.read a = 0xFF := by
  intro a h1 h2
  have h1' : 0xFFFFFE ≤ a := h1
  have h2' : a < 0xFFFFFE + 2 := h2
  obtain rfl | rfl : a = 0xFFFFFE ∨ a = 0xFFFFFF := by omega
  · decide
  · decide

theorem witness_ErasesUnderEverySchedule :
    clean.params.wf = true ∧ clean.CleanStart ∧ clean.hostQueue = [] ∧ clean.params.pollLimit = none ∧
      lastByte.addr.toNat < clean.params.capacity := ⟨clean_params, clean_start, rfl, rfl, by decide⟩

theorem witness_WriteNoCheckUnderEverySchedule :
    clean.params.wf = true ∧ clean.CleanStart ∧ clean.mem.wf ∧ clean.hostQueue = [] ∧ clean.params.pollLimit = none ∧
      four.data.length = four.len.toNat ∧ four.addr.toNat + four.len.toNat ≤ clean.params.capacity :=
  ⟨clean_params, clean_start, clean_mem, rfl, rfl, by decide, by decide⟩

theorem witness_PollLimitBoundsErase :
    bounded.params.wf = true ∧ bounded.CleanStart ∧ bounded.hostQueue = [] ∧ bounded.params.pollLimit = some 2 ∧
      lastByte.addr.toNat < bounded.params.capacity :=
  ⟨bounded_params, ⟨rfl, rfl, rfl, rfl, rfl⟩, rfl, rfl, by decide⟩

theorem witness_SelfTestPasses :
    clean.params.wf = true ∧ clean.CleanStart ∧ clean.mem.wf ∧ clean.params.devMfr = clean.params.expectedMfr ∧
      clean.params.expMin.toNat ≤ clean.params.devCapExp.toNat ∧
      clean.params.devCapExp.toNat ≤ clean.params.expMax.toNat :=
  ⟨clean_params, clean_start, clean_mem, rfl, by decide, by decide⟩

theorem witness_SelfTestUnderEverySchedule :
    clean.params.wf = true ∧ clean.CleanStart ∧ clean.mem.wf ∧ clean.hostQueue = [] ∧ clean.params.pollLimit = none ∧
      clean.params.devMfr = clean.params.expectedMfr ∧ clean.params.expMin.toNat ≤ clean.params.devCapExp.toNat ∧
      clean.params.devCapExp.toNat ≤ clean.params.expMax.toNat :=
  ⟨clean_params, clean_start, clean_mem, rfl, rfl, rfl, by decide, by decide⟩

theorem witness_SelfTestFailureOutcomes :
    (wrongMaker.params.wf = true ∧ wrongMaker.CleanStart ∧
      wrongMaker.params.devMfr ≠ wrongMaker.params.expectedMfr) ∧
    (tooLarge.params.wf = true ∧ tooLarge.CleanStart ∧ tooLarge.params.devMfr = tooLarge.params.expectedMfr ∧
      tooLarge.params.expMax.toNat < tooLarge.params.devCapExp.toNat) :=
  ⟨⟨by decide +kernel, ⟨rfl, rfl, rfl, rfl, rfl⟩, by decide⟩, by decide +kernel, ⟨rfl, rfl, rfl, rfl, rfl⟩, rfl, by decide⟩

/-- The end of a self-test, read back from a clean sector 0 (a mismatch) and compared with the pattern (a pass). -/
theorem witness_SelfTestFailureOutcomes_compare :
    (∃ s : State, s.params.wf = true ∧ s.ctlState = .running ∧ s.faults = [] ∧
      s.cont = [.compare, .ret .ok .capacity false] ∧ s.rx = s.params.pattern ∧ s.idWord.toNat % 256 < 32) ∧
    ∃ s : State, s.params.wf = true ∧ s.ctlState = .running ∧ s.faults = [] ∧
      s.cont = [.xfer .readBack, .compare, .ret .ok .capacity false] ∧ s.asleep = false ∧ s.busy = false ∧
      ∃ j, j < 256 ∧ s.params.pattern[j]? ≠ some (s.mem.read j) :=
  ⟨⟨{ running with cont := [.compare, .ret .ok .capacity false], rx := running.params.pattern, idWord := 0xEF4018 },
      clean_params, rfl, rfl, rfl, rfl, by decide⟩,
    { running with cont := [.xfer .readBack, .compare, .ret .ok .capacity false] }, clean_params, rfl, rfl, rfl, rfl,
    rfl, 0, by decide, by decide⟩

theorem witness_ChunkRegistersComputed :
    ∃ s : State, s.curAddr.toNat < 2 ^ 24 ∧ 0 < s.remLen.toNat :=
  ⟨{ running with curAddr := 0xFFFFFF, remLen := 1 }, by decide⟩

/-- A scratch buffer whose first byte alone is written. -/
def oneByteRead : State := { running with off := 0, chunk := 1, scratch := some 0x55 :: List.replicate 4095 none }

theorem witness_ScanDecidesErase :
    ∀ k, oneByteRead.off.toNat ≤ k → k < oneByteRead.off.toNat + oneByteRead.chunk.toNat →
      ∃ b, oneByteRead.scratch[k]? = some (some b) := by
  intro k _ h
  have h' : k < 0 + 1 := h
  obtain rfl : k = 0 := by omega
  exact ⟨0x55, rfl⟩

/-- A scan of two bytes of which the second is unwritten, and the page of a merged sector from the last byte of the
sector, unwritten. -/
theorem witness_UnwrittenScratchFaults :
    (∃ s : State, s.off.toNat ≤ 1 ∧ 1 < s.off.toNat + s.chunk.toNat ∧
      (∀ j, s.off.toNat ≤ j → j < 1 → ∃ b, s.scratch[j]? = some (some b)) ∧ s.scratch[1]? = some none) ∧
    ∃ s : State, s.pgOff.toNat ≤ 4095 ∧
      4095 < s.pgOff.toNat + min (4096 - s.pgOff.toNat) (256 - (s.secBase.toNat + s.pgOff.toNat) % 256) ∧
      (∀ j, s.pgOff.toNat ≤ j → j < 4095 → ∃ b, s.scratch[j]? = some (some b)) ∧ s.scratch[4095]? = some none := by
  refine ⟨⟨{ oneByteRead with chunk := 2 }, by decide, by decide, fun j _ hj => ?_, rfl⟩,
    { oneByteRead with pgOff := 4095 }, by decide, by decide, fun j hj hj' => ?_,
    (List.getElem?_cons_succ ..).trans (List.getElem?_replicate_of_lt (by decide))⟩
  · obtain rfl : j = 0 := by omega
    exact ⟨0x55, rfl⟩
  · have : 4095 ≤ j := hj
    omega

theorem witness_PieceStaysInOnePage : (299 : Nat) < 300 := by decide

theorem witness_PollTestFollowsBusyBit :
    ∃ s : State, s.rx = [0x03] ∧ (0x03 : Byte).getLsbD s.params.srBusyBit = true ∧
      (0x00 : Byte).getLsbD s.params.srBusyBit = false :=
  ⟨{ running with rx := [0x03] }, by decide⟩

theorem witness_DeviceEventuallyCompletes : busyDevice.params.geometryOk = true ∧ busyDevice.busy = true := by decide

end Sys2Proof.Tests
end

/-! ### The parameters and the reset state (00_scope.md R9, R10; 10_state.md R57) -/

namespace Sys2Proof

/-- The geometry invariant of R10 as divisibility. -/
theorem Params.geometryOk_iff (p : Params) :
    p.geometryOk = true ↔
      256 ∣ 4096 ∧ 4096 ∣ 65536 ∧ 65536 ∣ p.capacity ∧ 0 < p.capacity ∧ p.capacity ≤ 2 ^ 24 := by
  simp only [Params.geometryOk, Bool.and_eq_true, decide_eq_true_eq, and_assoc]
  simp only [Config.page, Config.sector, Config.block, Nat.dvd_iff_mod_eq_zero]

namespace Machine

theorem submitStep_next (w : HostWord) (s : State) : ∃ t, State.submitStep w s = .next t := by
  unfold State.submitStep
  split
  · exact exec_next _ s
  · exact ⟨_, rfl⟩

theorem frameStep_next (f : RawFrame) (s : State) : ∃ t, State.frameStep f s = .next t := by
  unfold State.frameStep
  split
  · exact exec_next _ s
  · exact ⟨_, rfl⟩

theorem lineStep_next (m : Micro) (rest : List Micro) (s : State) : ∃ t, s.lineStep m rest = .next t := by
  unfold State.lineStep
  split
  · split
    · exact frameStep_next _ _
    · exact ⟨_, rfl⟩
  · exact ⟨_, rfl⟩

/-- A move answers a next state, or is the stop of 70_reset_and_hazards.md R302. -/
theorem perform_next {m : Move} (hm : m ≠ .stuck) (s : State) : ∃ t, s.perform m = .next t := by
  cases m with
  | submit w rest => exact submitStep_next w _
  | line m rest => exact lineStep_next m rest s
  | complete => exact ⟨_, rfl⟩
  | finish => exact ⟨_, rfl⟩
  | wait => exact ⟨_, rfl⟩
  | stuck => exact absurd rfl hm

theorem perform_ne_refused (s : State) (m : Move) (r : Refusal) : s.perform m ≠ .refused r := by
  intro h
  by_cases hm : m = .stuck
  · subst hm; cases h
  · obtain ⟨t, ht⟩ := perform_next hm s
    cases ht.symm.trans h

/-- The only refusal of a step is that of a parameter set (R10). -/
theorem step_refused_iff (s : State) (r : Refusal) :
    step s = .refused r ↔ s.params.geometryOk ≠ true ∧ r = .badGeometry := by
  unfold step
  split_ifs with hg
  · exact ⟨fun h => absurd h (perform_ne_refused _ _ r), fun h => absurd hg h.1⟩
  · exact ⟨fun h => by cases h; exact ⟨hg, rfl⟩, fun h => by rw [h.2]⟩

@[simp] theorem State.blankScratch_length : State.blankScratch.length = 4096 := List.length_replicate

/-- Settles O9: no move is refused, so a refusal comes from the geometry test, which is the divisibility of R10. -/
theorem badGeometryRefused : Obligations.BadGeometryRefused := by
  intro s
  rw [step_refused_iff, ← Params.geometryOk_iff]
  exact and_iff_left rfl

/-- Settles O59: each field of `State.reset` is the constant R57, R284 or R9 names; only the length of the scratch
buffer and a read of the empty array need a law. -/
theorem resetValues : Obligations.ResetValues := by
  have hscratch : State.reset.scratch.length = 4096 := State.blankScratch_length
  have herased : ∀ a, State.reset.mem.read a = 0xFF := Memory.read_nil
  exact ⟨rfl, rfl, rfl, rfl, rfl, rfl, rfl, rfl, hscratch, rfl, rfl, rfl, rfl, herased⟩

end Machine

end Sys2Proof

/-! ### The machine's invariant (10_state.md R48; 40_bus_commands.md R143) -/

namespace Sys2Proof.Machine

/-- Power-up lists what it is given, nothing is pending, and no fault is recorded (70_reset_and_hazards.md R284). -/
theorem inv_powerUp {p : Params} {m : Memory} (hm : m.wf) (hin : ∀ c ∈ m, c.1 < p.capacity) (asleep : Bool) :
    (State.powerUp p m asleep).Inv where
  mem_canonical := hm
  mem_inside := hin
  busy_iff_pending := by simp [State.powerUp]
  busy_wel := nofun
  busy_awake := nofun
  pending_ok := trivial
  scratch_size := State.blankScratch_length
  fault_running := fun h => absurd rfl h
  refused_recorded := nofun

theorem gatingInv_powerUp {p : Params} (hp : p.opc.distinct = true) (m : Memory) (asleep : Bool) :
    (State.powerUp p m asleep).GatingInv :=
  ⟨hp, rfl, rfl⟩

section
variable {s t : State}

theorem inv_afterTurn (h : s.Inv) : s.afterTurn.Inv := by
  constructor <;> simp only [State.afterTurn_mem, State.afterTurn_params, State.afterTurn_busy, State.afterTurn_wel,
    State.afterTurn_asleep, State.afterTurn_pending, State.afterTurn_scratch, State.afterTurn_faults,
    State.afterTurn_ctlState, State.afterTurn_refused]
  exacts [h.mem_canonical, h.mem_inside, h.busy_iff_pending, h.busy_wel, h.busy_awake, h.pending_ok, h.scratch_size,
    h.fault_running, h.refused_recorded]

/-- The invariant does not read the position, the host's queue, the draws, the trace or the last answer. -/
theorem inv_bookkeeping (h : s.Inv) (c : List Micro) (q : List HostWord) (n : Nat) (l : List TraceEntry)
    (inn : List Byte) : { s with cont := c, hostQueue := q, draws := n, trace := l, rx := inn }.Inv :=
  ⟨h.1, h.2, h.3, h.4, h.5, h.6, h.7, h.8, h.9⟩

theorem inv_logFrame (h : s.Inv) (opc : Byte) (addr : Option Addr) (out inn : List Byte) :
    (s.logFrame opc addr out inn).Inv :=
  inv_bookkeeping h s.cont s.hostQueue s.draws _ inn

/-- The completion applies an operation that the device accepted. -/
theorem inv_complete (h : s.Inv) : s.complete.Inv where
  mem_canonical := Pending.apply_wf s.params s.pending h.mem_canonical
  mem_inside := Pending.apply_inside h.pending_ok h.mem_inside
  busy_iff_pending := by simp
  busy_wel := nofun
  busy_awake := nofun
  pending_ok := trivial
  scratch_size := h.scratch_size
  fault_running := h.fault_running
  refused_recorded := h.refused_recorded

theorem inv_latch (h : s.Inv) (r : Request) (code : List Micro) : (s.latch r code).Inv :=
  { h with scratch_size := State.blankScratch_length, fault_running := fun _ => rfl }

/-- What a frame does to the device keeps the invariant: only a frame to a device that is not BUSY writes WEL, ASLEEP or
the pending operation. -/
theorem inv_frameEffect {op : WireOp} {addr : Option Addr} {out : List Byte} (h : s.Inv) (hc : s.ctlState = .running)
    (he : FrameEffect op addr out s t) : t.Inv := by
  cases he with
  | fault f => exact inv_raise (inv_logFrame h _ _ _ _) f hc
  | refused => exact inv_refuse (inv_logFrame h _ _ _ _) _ hc
  | answered n inn => exact inv_bookkeeping h s.cont s.hostQueue (s.draws + n) _ inn
  | enabled hop ha hb =>
    refine inv_logFrame (s := { s with wel := true }) ?_ _ _ _ _
    exact { h with busy_wel := fun _ => rfl }
  | started p hop ha hb hw hp hok =>
    refine inv_logFrame (s := { s with busy := true, pending := p }) ?_ _ _ _ _
    exact { h with
      busy_iff_pending := iff_of_true rfl hp, busy_wel := fun _ => hw, busy_awake := fun _ => ha, pending_ok := hok }
  | slept hop ha hb =>
    refine inv_logFrame (s := { s with asleep := true }) ?_ _ _ _ _
    exact { h with busy_awake := fun hb' => absurd (hb.symm.trans hb') Bool.false_ne_true }
  | woke hop hb =>
    refine inv_logFrame (s := { s with asleep := false }) ?_ _ _ _ _
    exact { h with busy_awake := fun _ => rfl }

theorem inv_xferUndecoded (h : s.Inv) (hc : s.ctlState = .running) (e : DecodeError) : (s.xferUndecoded e).Inv := by
  rcases xferUndecoded_cases e s with ⟨w, -, he⟩ | ⟨opc, a, out, ⟨f, he⟩ | he⟩ <;> rw [he]
  · exact inv_raise h _ hc
  · exact inv_raise (inv_logFrame h _ _ _ _) f hc
  · exact inv_refuse (inv_logFrame h _ _ _ _) opc hc

/-- An internal line of a controller without a fault records at most one fault, and then stays RUNNING (R258). -/
theorem inv_internal (h : s.Inv) (hc : s.ctlState = .running) (hf : s.faults = []) (m : Micro) (rest : List Micro) :
    (s.internal m rest).Inv := by
  obtain ⟨hp, -, hmem, hb, hw, ha, hpend, -, hr, hscr, hfaults⟩ := internal_effect m rest s _ rfl
  rcases hfaults with hfaults | ⟨k, he⟩
  · have hnone : (s.internal m rest).faults = [] := hfaults.trans hf
    constructor <;> simp only [hp, hmem, hb, hw, ha, hpend, hr, hscr, hfaults]
    exacts [h.mem_canonical, h.mem_inside, h.busy_iff_pending, h.busy_wel, h.busy_awake, h.pending_ok, h.scratch_size,
      fun hne => absurd hf hne, h.refused_recorded]
  · rw [he]
    exact inv_bookkeeping (inv_raise h _ hc) rest s.hostQueue s.draws s.trace s.rx

/-- Each case of a step keeps the invariant. -/
theorem StepCase.inv (h : s.Inv) (hs : StepCase s t) : t.Inv := by
  have hqueue (q : List HostWord) : { s with hostQueue := q }.Inv := inv_bookkeeping h s.cont q s.draws s.trace s.rx
  have hcont (c : List Micro) : { s with cont := c }.Inv := inv_bookkeeping h c s.hostQueue s.draws s.trace s.rx
  cases hs with
  | complete => exact inv_complete h
  | reentrant w rest op hq hc => exact inv_raise (hqueue rest) _ hc
  | accepted w rest r op => exact inv_latch (hqueue rest) r _
  | rejected w rest r code f => exact inv_raise (inv_latch (hqueue rest) r code) f rfl
  | frame k rest op addr out _ hc hf hcode hop heff => exact inv_frameEffect (hcont rest) hc heff
  | garbled k rest e hc => exact inv_xferUndecoded (hcont rest) hc e
  | unwritten k rest r hc => exact inv_raise h r hc
  | line m rest hm hc hf => exact inv_internal h hc hf m rest
  | finish hc hf => exact { h with fault_running := fun hne => absurd hf hne }
  | wait => exact h

end

/-- Settles O26: the turn taken changes nothing the invariant reads, and each case of the step keeps it. -/
theorem stepKeepsMachineInvariant : Obligations.StepKeepsMachineInvariant := by
  intro s t h hstep
  obtain ⟨-, hcase⟩ := step_cases hstep
  exact hcase.inv (inv_afterTurn h)

/-- Settles O28: both invariants hold at every power-up, of which reset is the one with the default parameters and
nothing listed. -/
theorem powerUpMeetsInvariants : Obligations.PowerUpMeetsInvariants :=
  ⟨fun _ m asleep hm hin => ⟨inv_powerUp hm hin asleep, fun hp => gatingInv_powerUp hp m asleep⟩,
    inv_powerUp Memory.wf_nil nofun _, gatingInv_powerUp Opcodes.default_distinct [] _⟩

/-! ### What a step leaves of the array and the trace (10_state.md R40, R54; 20_memory.md R90) -/

section
variable {s t : State}

/-- Every frame leaves the parameters and the array alone and is one entry of the trace. -/
theorem FrameEffect.keeps {op : WireOp} {addr : Option Addr} {out : List Byte} (h : FrameEffect op addr out s t) :
    t.params = s.params ∧ t.mem = s.mem ∧ ∃ inn, t.trace = s.trace ++ [.frame (s.opc op) addr out inn] := by
  cases h <;> exact ⟨rfl, rfl, _, rfl⟩

/-- A frame that is not decoded leaves the parameters and the array alone; the trace grows by at most its entry. -/
theorem xferUndecoded_keeps (e : DecodeError) (s : State) :
    (s.xferUndecoded e).params = s.params ∧ (s.xferUndecoded e).mem = s.mem ∧
      ((s.xferUndecoded e).trace = s.trace ∨ ∃ x, (s.xferUndecoded e).trace = s.trace ++ [x]) := by
  rcases xferUndecoded_cases e s with ⟨w, -, he⟩ | ⟨opc, a, out, ⟨f, he⟩ | he⟩ <;> rw [he]
  · exact ⟨rfl, rfl, .inl rfl⟩
  · exact ⟨rfl, rfl, .inr ⟨_, rfl⟩⟩
  · exact ⟨rfl, rfl, .inr ⟨_, rfl⟩⟩

/-- A step is the completion of a BUSY device, or it leaves the parameters and the array alone and adds at most one
entry to the trace. -/
theorem StepCase.complete_or_keeps (h : StepCase s t) :
    (s.busy = true ∧ t = s.complete) ∨
      t.params = s.params ∧ t.mem = s.mem ∧ (t.trace = s.trace ∨ ∃ e, t.trace = s.trace ++ [e]) := by
  cases h with
  | complete hb => exact .inl ⟨hb, rfl⟩
  | frame k rest op addr out _ hc hf hcont hop heff =>
    obtain ⟨hp, hm, inn, ht⟩ := heff.keeps
    exact .inr ⟨hp, hm, .inr ⟨_, ht⟩⟩
  | garbled k rest e => exact .inr (xferUndecoded_keeps e { s with cont := rest })
  | line m rest =>
    obtain ⟨hp, -, hm, -, -, -, -, ht, -⟩ := internal_effect m rest s _ rfl
    exact .inr ⟨hp, hm, .inl ht⟩
  | reentrant | accepted | rejected | unwritten | finish | wait => exact .inr ⟨rfl, rfl, .inl rfl⟩

end

/-- Settles O29: the one case of a step that writes the array is the completion. -/
theorem arrayChangesOnlyAtCompletion : Obligations.ArrayChangesOnlyAtCompletion := by
  intro s t hstep
  obtain ⟨-, hcase⟩ := step_cases hstep
  rcases hcase.complete_or_keeps with ⟨hb, rfl⟩ | ⟨hp, hm, -⟩
  · exact ⟨by simp, .inr ⟨by simpa using hb, rfl, by simp⟩⟩
  · exact ⟨by simpa using hp, .inl (by simpa using hm)⟩

/-- Settles O33: the completion adds its own entry, and every other case of a step at most one. -/
theorem traceOnlyGrows : Obligations.TraceOnlyGrows := by
  intro s t hstep
  obtain ⟨-, hcase⟩ := step_cases hstep
  rcases hcase.complete_or_keeps with ⟨-, rfl⟩ | ⟨-, -, ht⟩
  · exact .inr ⟨.complete, by simp⟩
  · simpa using ht

end Sys2Proof.Machine

/-! ### One step, one frame, one acceptance (10_state.md R31, R46, R52; 40_bus_commands.md R127, R146) -/

namespace Sys2Proof.Machine

/-- The step of a turn that the schedule fixes (10_state.md R31). -/
theorem step_scheduled {s : State} {turn : Turn} {later : List Turn} (hg : s.params.geometryOk = true)
    (hs : s.schedule = turn :: later) :
    step s = { s with schedule := later }.perform (({ s with schedule := later } : State).moveOf turn) := by
  have e : s = { s with schedule := turn :: later } := by rw [← hs]
  rw [e]
  exact step_turn hg turn later

/-- Settles O5: the line is the controller's move, and the frame of its line does not depend on the schedule. -/
theorem stepRunsSentFrame : Obligations.StepRunsSentFrame := by
  intro s k rest later f i hg hs hc hf hcont hframe hdec
  rw [step_scheduled hg hs]
  show State.perform _ (State.mainMove _) = _
  have hframe' : frameOf { s with schedule := later } k = .ok f := (frameOf_book s k later s.cont s.delay).trans hframe
  simp only [mainMove_line ⟨hg, hc, hf⟩ hcont later, State.perform, State.lineStep, hframe', State.frameStep, hdec]

/-- The submission of a request that decodes is `exec` of its instruction. -/
theorem perform_submit {s : State} {w : HostWord} {i : Instr} (h : decodeRequest w = .ok i) (rest : List HostWord) :
    s.perform (.submit w rest) = exec i { s with hostQueue := rest } := by
  simp only [State.perform, State.submitStep, h]

/-- Settles O6: in both ways of submitting, the move is the submission of the head of the queue. -/
theorem stepRunsSubmittedRequest : Obligations.StepRunsSubmittedRequest := by
  intro s w rest later i hg hq hs hdec
  rcases hs with hs | ⟨hs, hidle⟩
  · have hmove : ({ s with schedule := later } : State).moveOf .hostNow = .submit w rest := by simp [State.moveOf, hq]
    rw [step_scheduled hg hs, hmove, perform_submit hdec]
  · have hmove : ({ s with schedule := later } : State).moveOf .main = .submit w rest := by
      simp [State.moveOf, State.mainMove, hidle, hq]
    rw [step_scheduled hg hs, hmove, perform_submit hdec]

/-- With BUSY = 1 a turn of the device is its completion. -/
theorem step_device {s : State} {later : List Turn} (hg : s.params.geometryOk = true)
    (hs : s.schedule = .device :: later) (hb : s.busy = true) :
    step s = .next { s.complete with schedule := later } := by
  have hmove : ({ s with schedule := later } : State).moveOf .device = .complete := if_pos hb
  rw [step_scheduled hg hs, hmove]
  rfl

/-- Settles O7: the statement is the effect of `State.complete`, field by field. -/
theorem deviceTurnCompletes : Obligations.DeviceTurnCompletes := fun _ _ => step_device

/-- Settles O11: the status byte is a draw with BUSY and WEL put in their two places. -/
theorem rdsrReturnsStatus : Obligations.RdsrReturnsStatus := by
  intro s hp ha
  obtain ⟨-, -, -, hbusy, hwel, hne, -⟩ := Params.wf_parts hp
  refine ⟨statusByte s.params (Config.draw s.draws) s.busy s.wel, exec_honoured rfl (.inl ha) rfl rfl (.inr rfl),
    ?_, ?_, fun j h1 h2 => ?_⟩
  · exact busyBit_statusByte hp _ _ _
  · rw [statusByte, setBit_same _ _ hwel]
  · rw [statusByte, setBit_other _ _ h2, setBit_other _ _ h1]

/-- Settles O35: acceptance records a fault, latches the request, or does both; neither touches the device, a walk
register or the host. -/
theorem acceptanceLatchesRequest : Obligations.AcceptanceLatchesRequest := by
  intro s t i op x hi ht
  obtain rfl := Host.Outcome.next.inj ((exec_request hi s).symm.trans ht)
  rcases accept_cases op x (codeOf op) s with ⟨hc, he⟩ | ⟨hc, ⟨f, he⟩ | he⟩ <;> rw [he]
  · exact ⟨⟨rfl, rfl, rfl, rfl, rfl⟩, ⟨rfl, rfl, rfl, rfl, rfl, rfl, rfl, rfl⟩, rfl, rfl, rfl, rfl, rfl, rfl, rfl, rfl,
      rfl, hc, fun _ => rfl, fun hidle => (nomatch hc.symm.trans hidle), fun _ => ⟨rfl, rfl, rfl, rfl⟩⟩
  all_goals
    exact ⟨⟨rfl, rfl, rfl, rfl, rfl⟩, ⟨rfl, rfl, rfl, rfl, rfl, rfl, rfl, rfl⟩, rfl, rfl, rfl, rfl, rfl, rfl, rfl, rfl,
      rfl, rfl, fun _ => rfl, fun _ => ⟨rfl, rfl⟩, fun hrun => nomatch hc.symm.trans hrun⟩

/-- Reading scratch bytes stops at the first one that the request has not written (10_state.md R36). -/
theorem scratchRead_unwritten {s : State} {lo n k : Nat} (hlo : lo ≤ k) (hk : k < lo + n)
    (hw : ∀ j, lo ≤ j → j < k → ∃ b, s.scratch[j]? = some (some b)) (hu : s.scratch[k]? = some none) :
    scratchRead s lo n = .error k := by
  have hrun : ((slice s.scratch lo n).takeWhile Option.isSome).length = k - lo := by
    refine takeWhile_isSome_first _ _ (fun j hj => ?_) ?_
    · rw [slice_getElem?, if_pos (by omega)]
      exact hw (lo + j) (by omega) (by omega)
    · rw [slice_getElem?, if_pos (by omega), show lo + (k - lo) = k by omega, hu]
  simp only [scratchRead, hrun]
  rw [if_neg (by omega), show lo + (k - lo) = k by omega]

/-- Settles O55: both lines read the buffer with `scratchRead`; the scan records its fault, and the page has no
frame. -/
theorem unwrittenScratchFaults : Obligations.UnwrittenScratchFaults := by
  intro s m rest lo n k hm hlo hk hw hu
  have hread := scratchRead_unwritten hlo hk hw hu
  have hrecord : FaultRecord.scratchUninit k ∈ (s.raise (.scratchUninit k)).faults := mem_raise.mpr (.inr rfl)
  rcases hm with ⟨rfl, rfl, rfl⟩ | ⟨rfl, rfl, rfl⟩
  · have hline : s.internal .scan rest = { s.raise (.scratchUninit k) with cont := rest } := by
      simp only [State.internal, State.scan, hread]
    exact ⟨_, (lineStep_internal (by simp)).trans (congrArg _ hline), hrecord, rfl, rfl, rfl, rfl, rfl, rfl, rfl⟩
  · have hframe : frameOf s (.page .merged) = .error (.scratchUninit k) := by
      have hpiece : walkPiece s .merged = .error k := hread
      simp only [frameOf, hpiece]
    refine ⟨s.raise (.scratchUninit k), ?_, hrecord, rfl, rfl, rfl, rfl, rfl, rfl, rfl⟩
    simp only [State.lineStep, hframe]

end Sys2Proof.Machine

/-! ### What every schedule leads to (10_state.md R31; 41_status_wel.md R171) -/

namespace Sys2Proof.Machine

/-- `W` holds wherever the controller is idle with `Q`, whatever turns and delay are left. -/
def Idles (Q W : State → Prop) : Prop :=
  ∀ u, u.params.geometryOk = true → u.ctlState = .idle → (∀ sch d, Q (u.rescheduled sch d)) → u.faults = [] →
    u.busy = false → W u

/-- Every kind of run from `t` leads to an idle controller with `Q`: what holds there and is carried backwards by lines,
frames and busy-polls holds of `t`. -/
def Concludes (Q : State → Prop) (t : State) : Prop :=
  ∀ W : State → Prop, Closed W → Idles Q W → W t

/-- A `return` whose response satisfies `Q`. -/
theorem Closed.returns {Q W : State → Prop} (hW : Closed W) (hidle : Idles Q W) {s : State} (h : s.Live)
    (hb : s.busy = false) {r : Result} {v : RetValue} {withData : Bool} {rest : List Micro}
    (hc : s.cont = .ret r v withData :: rest)
    (hQ : ∀ sch d, Q ((s.respond ⟨r, retValue s v, if withData then s.rx else []⟩).rescheduled sch d)) : W s :=
  hW.line h hb hc (by simp) fun _ => hidle _ h.geometry rfl hQ h.no_fault hb

/-- With no poll limit and no further request, the operation ends under every schedule, no step stops or records a
fault, and `Q` holds where the controller is idle. -/
theorem Concludes.runs {Q : State → Prop} {t : State} (h : Concludes Q t) (hq : t.hostQueue = [])
    (hl : t.params.pollLimit = none) :
    (∀ turns : List Turn, ∃ k u, runFor k { t with schedule := turns } = .next u ∧ u.ctlState = .idle) ∧
      ∀ (turns : List Turn) (k : Nat), ∃ u, runFor k { t with schedule := turns } = .next u ∧ u.faults = [] ∧
        (u.ctlState = .idle → Q u) := by
  constructor
  · intro turns
    have hends : Ends Q t := h _ (Ends.closed Q) fun u _ hi hu _ _ => .idle hi fun sch => hu sch u.delay
    obtain ⟨k, u, hr, hi, -⟩ := hends hq hl turns
    exact ⟨k, u, hr, hi⟩
  · intro turns k
    have hsafe : SafeFor (fun u => ∀ sch d, Q (u.rescheduled sch d)) k t :=
      h _ (SafeFor.closed _ k) fun u hg hi hu hf hb => .idle (fun _ _ _ hs sch d => hs sch d) hg hi hf hb hu k
    obtain ⟨u, hr, hf, hu⟩ := hsafe hq hl turns k (Nat.le_refl k)
    exact ⟨u, hr, hf, fun hi => hu hi u.schedule u.delay⟩

/-! ### The three erases (42_erase.md R183, R185, R187) -/

/-- The request `i` passes its range check and erases the `size` bytes from `base`. -/
def ErasesUnit (s : State) (x : HostArgs) (i : Instr) (base size : Nat) : Prop :=
  i = .eraseSector x ∧ x.addr.toNat < s.params.capacity ∧ base = x.addr.toNat - x.addr.toNat % 4096 ∧ size = 4096 ∨
    i = .eraseBlock x ∧ x.addr.toNat < s.params.capacity ∧ base = x.addr.toNat - x.addr.toNat % 65536 ∧ size = 65536 ∨
    i = .eraseChip x ∧ base = 0 ∧ size = s.params.capacity

/-- The controller of `t` is at the start of a gated erase and its return: the line `k` sends the frame `f`, which the
device takes as the operation `p` on the `size` bytes from `base`. -/
structure SendsErase (t : State) (base size : Nat) (k : FrameKind) (f : RawFrame) (i : Instr) (op : WireOp)
    (addr : Option Addr) (p : Pending) : Prop where
  cont : t.cont = gated k ++ [.ret .ok .zero false]
  frame : frameOf t k = .ok f
  decodes : decodeFrame t.params.opc f = .ok i
  fields : frameFields i = some (op, addr, [], 0)
  gatedOp : isGatedOp op = true
  wellFormed : i.wellFormed t.params.capacity = true
  command : ∀ u, commandOf i u = (u.startOp p, [])
  effect : ∀ m a, (p.apply t.params m).read a = if base ≤ a ∧ a < base + size then Config.erased else Memory.read m a

theorem toAddr_toNat {a : Nat} (h : a < 2 ^ 24) : (toAddr a).toNat = a := by
  rw [toAddr, BitVec.toNat_ofNat, Nat.mod_eq_of_lt h]

/-- The wire address of a unit lies in the array if the operand does. -/
theorem toAddr_alignDown_lt {a c : Nat} (h : a < c) (hc : c ≤ 2 ^ 24) (g : Nat) :
    (toAddr (alignDown a g)).toNat < c := by
  have := alignDown_le a g
  rw [toAddr_toNat (by omega)]
  omega

/-- The erase of the unit of an aligned address, byte by byte (R181; 40_bus_commands.md R148). -/
theorem read_eraseUnit {a : Nat} (h : a < 2 ^ 24) (g : Nat) (m : Memory) (x : Nat) :
    (m.eraseRange (unitBase (toAddr (alignDown a g)) g).toNat g).read x =
      if a - a % g ≤ x ∧ x < a - a % g + g then Config.erased else m.read x := by
  have hbase : (unitBase (toAddr (alignDown a g)) g).toNat = a - a % g := by
    rw [unitBase_toNat, toAddr_toNat ((alignDown_le a g).trans_lt h)]
    show alignDown a g - alignDown a g % g = _
    rw [alignDown_mod, Nat.sub_zero, alignDown]
  rw [hbase, Memory.read_eraseRange]

/-- An erase in range is accepted by an idle controller, and its pseudocode sends the erase of its unit. -/
theorem ErasesUnit.accepted {s : State} {x : HostArgs} {i : Instr} {base size : Nat} (h : ErasesUnit s x i base size)
    (hp : s.params.wf = true) (hi : s.ctlState = .idle) :
    ∃ r code, exec i s = .next (s.latch r code) ∧
      ∃ k f j op addr p, SendsErase (s.latch r code) base size k f j op addr p := by
  have hcap := (Params.wf_capacity hp).2
  have ht := Params.wf_opcodes hp
  have accepts {op : HostOp} (hf : requestFields i = some (op, x)) (hl : lengthFault op x = none)
      (hr : rangeFault s.params op x = none) :
      exec i s = .next (s.latch ⟨op.code, x.addr, x.len, x.data⟩ (codeOf op)) :=
    (exec_request hf s).trans (congrArg _ (accept_passes hi hl hr _))
  rcases h with ⟨rfl, hin, rfl, rfl⟩ | ⟨rfl, hin, rfl, rfl⟩ | ⟨rfl, rfl, rfl⟩
  · exact ⟨_, _, accepts (op := .eraseSector) rfl rfl (if_pos (decide_eq_true hin)), _, _, _, _, _, _, rfl, rfl,
      decode_se ht _, rfl, rfl, decide_eq_true (toAddr_alignDown_lt hin hcap Config.sector), fun _ => rfl,
      read_eraseUnit (hin.trans_le hcap) Config.sector⟩
  · exact ⟨_, _, accepts (op := .eraseBlock) rfl rfl (if_pos (decide_eq_true hin)), _, _, _, _, _, _, rfl, rfl,
      decode_be ht _, rfl, rfl, decide_eq_true (toAddr_alignDown_lt hin hcap Config.block), fun _ => rfl,
      read_eraseUnit (hin.trans_le hcap) Config.block⟩
  · exact ⟨_, _, accepts (op := .eraseChip) rfl rfl rfl, _, _, _, _, _, _, rfl, rfl, decode_ce ht, rfl, rfl, rfl,
      fun _ => rfl, fun m => Memory.read_eraseRange m 0 s.params.capacity⟩

/-- What an erase leaves: its response, and `0xFF` in the `size` bytes from `base` of the array `m`. -/
def ErasedWithin (m : Memory) (base size : Nat) (u : State) : Prop :=
  u.response = some ⟨.ok, 0, []⟩ ∧ u.busy = false ∧ u.wel = false ∧
    ∀ a, u.mem.read a = if base ≤ a ∧ a < base + size then 0xFF else m.read a

section
variable {t : State} {base size : Nat} {k : FrameKind} {f : RawFrame} {i : Instr} {op : WireOp} {addr : Option Addr}
  {p : Pending}

/-- An erase that is sent to an idle device is performed. -/
theorem SendsErase.concludes (h : SendsErase t base size k f i op addr p) (hl : t.Live) (hb : t.busy = false) :
    Concludes (ErasedWithin t.mem base size) t := fun _ hW hidle =>
  hW.gated hl hb h.cont h.frame h.decodes h.fields h.gatedOp h.wellFormed h.command fun _ _ =>
    hW.returns hidle ⟨hl.1, hl.2, hl.3, hl.4⟩ hb rfl fun _ _ => ⟨rfl, hb, rfl, h.effect t.mem⟩

end

/-- Settles O47: each erase is accepted with the device idle, and its gated frame is performed under every schedule. -/
theorem erasesUnderEverySchedule : Obligations.ErasesUnderEverySchedule := by
  intro s x hp hclean hq hlim i base size hi
  obtain ⟨r, code, hexec, k, f, j, op, addr, p, hsends⟩ := ErasesUnit.accepted (s := s) hi hp hclean.idle
  exact ⟨_, hexec, (hsends.concludes (latch_live hp hclean r code) hclean.not_busy).runs hq hlim⟩

/-! ### An erase requested while BUSY (41_status_wel.md R172) -/

section
variable {t : State} {base size : Nat} {k : FrameKind} {f : RawFrame} {i : Instr} {op : WireOp} {addr : Option Addr}
  {p : Pending}

/-- The completion of an earlier operation leaves the erase to be sent. -/
theorem SendsErase.complete (h : SendsErase t base size k f i op addr p) :
    SendsErase t.complete base size k f i op addr p :=
  { h with frame := (frameOf_complete t k).trans h.frame }

/-- A gated erase and its return after the `WREN`. -/
def afterWren (k : FrameKind) : List Micro := .xfer k :: (busyPoll ++ [.ret .ok .zero false])

/-- `t` past a `WREN` that a BUSY device ignored. -/
def State.wrenIgnored (t : State) (rest : List Micro) : State :=
  { t with cont := rest, rx := [], trace := t.trace ++ [.frame (t.opc .wren) none [] []] }

theorem exec_wren_ignored {t : State} (ha : t.asleep = false) (hb : t.busy = true) (rest : List Micro) :
    exec .wren { t with cont := rest } = .next (t.wrenIgnored rest) :=
  exec_ignored (i := .wren) (addr := none) (out := []) (nin := 0) (s := { t with cont := rest }) rfl
    (.inl ha) rfl rfl hb (by simp)

/-- On any turn but the device's, the `WREN` of an erase is sent first. -/
theorem SendsErase.step_wren (h : SendsErase t base size k f i op addr p) (hl : t.Live) (hb : t.busy = true)
    (hq : t.hostQueue = []) {first : Turn} (hfirst : first ≠ .device) (turns : List Turn) :
    step { t with schedule := first :: turns } =
      .next { t.wrenIgnored (afterWren k) with schedule := turns } := by
  have hmove : ({ t with schedule := turns } : State).moveOf first = State.mainMove { t with schedule := turns } := by
    cases first with
    | main => rfl
    | device => exact absurd rfl hfirst
    | hostNow => simp [State.moveOf, hq]
  rw [step_turn hl.geometry, hmove, mainMove_line hl.enabled h.cont]
  exact lineStep_frame (s := t) (k := .wren) rfl (decode_wren hl.opcodes) (exec_wren_ignored hl.awake hb _) turns

/-- What a lost erase leaves: its response, and the effect of the operation that was pending in `t`. -/
def OnlyEarlierDone (t u : State) : Prop :=
  u.response = some ⟨.ok, 0, []⟩ ∧ u.busy = false ∧ u.wel = false ∧
    ∀ a, u.mem.read a = (t.pending.apply t.params t.mem).read a

/-- After the ignored `WREN` the erase is lost: only the earlier operation takes effect. -/
theorem SendsErase.lost (h : SendsErase t base size k f i op addr p) (hl : t.Live) (hb : t.busy = true) :
    Concludes (OnlyEarlierDone t) (t.wrenIgnored (afterWren k)) := by
  intro W hW hidle
  have hframe : frameOf (t.wrenIgnored (afterWren k)) k = .ok f :=
    (frameOf_onward t k (afterWren k) ⟨[], t.pollCount, t.draws, t.delay,
      t.trace ++ [.frame (t.opc .wren) none [] []]⟩ t.wel).trans h.frame
  refine hW.gatedLost ⟨hl.1, hl.2, hl.3, hl.4⟩ hb rfl hframe h.decodes h.fields h.gatedOp h.wellFormed h.command
    fun b => ?_
  rw [settled_of_busy (s := t.wrenIgnored (afterWren k)) hb]
  exact hW.returns hidle ⟨hl.1, hl.2, hl.3, hl.4⟩ rfl rfl fun _ _ => ⟨rfl, rfl, rfl, fun _ => rfl⟩

end

/-- Settles O43: with the earlier operation still running at the `WREN`, both frames are ignored; with the completion as
the first turn, the erase finds an idle device. -/
theorem eraseRequestedWhileBusy : Obligations.EraseRequestedWhileBusy := by
  intro s x hp hidle hfaults hawake hbusy i base size hi
  obtain ⟨r, code, hexec, k, f, j, op, addr, p, hsends⟩ := ErasesUnit.accepted (s := s) hi hp hidle
  have hlive : (s.latch r code).Live := ⟨hp, rfl, hfaults, hawake⟩
  refine ⟨fun n hn => ?_, fun hq hlim => ⟨_, hexec, fun first turns => ?_⟩⟩
  · obtain ⟨u, hreach, -, h1, h2, h3, h4, h5, h6⟩ := gated_lost n (s.latch r code) k hlive hbusy hsends.cont
      hsends.frame hsends.decodes hsends.fields hsends.gatedOp hsends.wellFormed hn
    exact ⟨_, _, hexec, hreach.run, h1, h2, h3, h4, h5, h6⟩
  · by_cases hfirst : first = .device
    · subst hfirst
      have hconcl := hsends.complete.concludes ⟨hlive.1, hlive.2, hlive.3, hlive.4⟩ rfl
      simp only [true_and]
      exact runs_after_first (t := (s.latch r code).complete) hlive hq hlim
        (step_device hlive.geometry rfl hbusy) fun hW hend => hconcl _ hW hend
    · have hconcl := hsends.lost hlive hbusy
      simp only [hfirst, false_and, if_false]
      exact runs_after_first (t := (s.latch r code).wrenIgnored (afterWren k)) hlive hq hlim
        (hsends.step_wren hlive hbusy hq hfirst turns) fun hW hend => hconcl _ hW hend

end Sys2Proof.Machine

/-! ### The two writes (43_read_write.md R209, R214) -/

namespace Sys2Proof.Machine

/-- A write in range with as many bytes as it says passes the checks of acceptance. -/
theorem write_accepted {s : State} {x : HostArgs} {i : Instr} {op : HostOp} (hi : requestFields i = some (op, x))
    (hop : op = .write ∨ op = .writeNoCheck) (hidle : s.ctlState = .idle) (hlen : x.data.length = x.len.toNat)
    (hin : x.addr.toNat + x.len.toNat ≤ s.params.capacity) :
    exec i s = .next (s.latch ⟨op.code, x.addr, x.len, x.data⟩ (codeOf op)) := by
  have hl : lengthFault op x = none := by rcases hop with rfl | rfl <;> exact if_pos hlen
  have hr : rangeFault s.params op x = none := by rcases hop with rfl | rfl <;> exact if_pos (decide_eq_true hin)
  rw [exec_request hi, accept_passes hidle hl hr]

/-- What `write_no_check` leaves: its response, `old & data` at the destination, every other byte of `s` (R214). -/
def Programmed (s : State) (x : HostArgs) (u : State) : Prop :=
  u.response = some ⟨.ok, 0, []⟩ ∧ u.busy = false ∧
    ∀ a, u.mem.read a =
      if x.addr.toNat ≤ a ∧ a < x.addr.toNat + x.len.toNat then
        s.mem.read a &&& x.data.getD (a - x.addr.toNat) Config.erased
      else s.mem.read a

/-- What `write` leaves: its response, the data at the destination, every other byte of `s`, and no sector erase if the
destination was erased (R200, R208). -/
def Stored (s : State) (x : HostArgs) (u : State) : Prop :=
  u.response = some ⟨.ok, 0, []⟩ ∧ u.busy = false ∧
    ((∀ a, x.addr.toNat ≤ a → a < x.addr.toNat + x.len.toNat → s.mem.read a = Config.erased) →
      SameErases s.params.opc s.trace u.trace) ∧
    ∀ a, u.mem.read a =
      if x.addr.toNat ≤ a ∧ a < x.addr.toNat + x.len.toNat then x.data.getD (a - x.addr.toNat) Config.erased
      else s.mem.read a

section
variable {s : State} {x : HostArgs} (hp : s.params.wf = true) (hc : s.CleanStart) (hm : s.mem.wf)
  (hlen : x.data.length = x.len.toNat) (hin : x.addr.toNat + x.len.toNat ≤ s.params.capacity)
include hp hc hm hlen hin

/-- Every run of an accepted `write_no_check` programs the caller's bytes over the old ones. -/
theorem writeNoCheck_concludes (code : BitVec 4) :
    Concludes (Programmed s x) (s.latch ⟨code, x.addr, x.len, x.data⟩ (codeOf .writeNoCheck)) := by
  intro W hW hidle
  have hl := latch_live hp hc ⟨code, x.addr, x.len, x.data⟩ (codeOf .writeNoCheck)
  have hb := hc.not_busy
  refine hW.pages .raw x.data [.ret .ok .zero false] hl hb rfl hlen x.len.isLt hin (fun j hj => ?_) fun b wel p o _ =>
    hW.returns hidle ⟨hl.1, hl.2, hl.3, hl.4⟩ hb rfl fun sch d => ⟨rfl, hb, fun a => ?_⟩
  · have hj' : (BitVec.ofNat 32 j).toNat = j := Nat.mod_eq_of_lt (hj.trans x.len.isLt)
    simp only [walkPiece, walkPieceLen, hj']
    rfl
  · exact (Memory.read_program hm x.addr.toNat x.data a).trans (by rw [hlen])

/-- Every run of an accepted `write` stores the caller's bytes, with no sector erase over erased ones. -/
theorem smartWrite_concludes (code : BitVec 4) :
    Concludes (Stored s x) (s.latch ⟨code, x.addr, x.len, x.data⟩ (codeOf .write)) := by
  intro W hW hidle
  have hl := latch_live hp hc ⟨code, x.addr, x.len, x.data⟩ (codeOf .write)
  exact hW.writeBody .request [.ret .ok .zero false] hl hc.not_busy hm State.blankScratch_length rfl hlen hin
    fun u hu hcont => hW.returns hidle (hu.kept.live hl) (hu.kept.busy.trans hc.not_busy) hcont fun _ _ =>
      ⟨rfl, hu.kept.busy.trans hc.not_busy, hu.avoids, hu.bytes⟩

end

/-- Settles O48: the page walk over the whole request. -/
theorem writeNoCheckUnderEverySchedule : Obligations.WriteNoCheckUnderEverySchedule := by
  intro s x hp hc hm hq hlim hlen hin
  exact ⟨_, write_accepted rfl (.inr rfl) hc.idle hlen hin, (writeNoCheck_concludes hp hc hm hlen hin _).runs hq hlim⟩

/-- Settles O46: the chunk loop over the whole request. -/
theorem smartWriteUnderEverySchedule : Obligations.SmartWriteUnderEverySchedule := by
  intro s x hp hc hm hq hlim hlen hin
  exact ⟨_, write_accepted rfl (.inl rfl) hc.idle hlen hin, (smartWrite_concludes hp hc hm hlen hin _).runs hq hlim⟩

/-! ### The self-test (44_id_selftest_power.md R240) -/

theorem internal_idCheck {t : State} (h : idMfr t.idWord = t.params.expectedMfr) (rest : List Micro) :
    t.internal .idCheck rest = { t with cont := rest } := by
  simp only [State.internal, if_pos h]

theorem internal_sizeCheck {t : State} (hmin : t.params.expMin.toNat ≤ (idExp t.idWord).toNat)
    (hmax : (idExp t.idWord).toNat ≤ t.params.expMax.toNat) (rest : List Micro) :
    t.internal .sizeCheck rest = { t with cont := rest } := by
  simp only [State.internal]
  rw [if_neg (by omega)]

theorem internal_compare {t : State} (h : t.rx = t.params.pattern) (rest : List Micro) :
    t.internal .compare rest = { t with cont := rest } := by
  simp only [State.internal, if_pos h]

/-- The JEDEC code of the device (R230). -/
def deviceCode (p : Params) : BitVec 24 := p.devMfr ++ p.devType ++ p.devCapExp

theorem internal_setId24 {t : State} (h : t.rx = [t.params.devMfr, t.params.devType, t.params.devCapExp])
    (rest : List Micro) : t.internal .setId24 rest = { t with idWord := deviceCode t.params, cont := rest } := by
  simp only [State.internal, State.rxByte, h]
  rfl

/-- `s` past the JEDEC frame: the device's identity is the answer. -/
def State.identified (s : State) (rest : List Micro) : State :=
  { s with
    cont := rest
    rx := [s.params.devMfr, s.params.devType, s.params.devCapExp]
    trace := s.trace ++ [.frame (s.opc .jedec) none [] [s.params.devMfr, s.params.devType, s.params.devCapExp]] }

theorem exec_jedec_identified {s : State} (ha : s.asleep = false) (hb : s.busy = false) (rest : List Micro) (d : Nat) :
    exec (.jedec 3) { s with cont := rest, delay := d } = .next { s.identified rest with delay := d } :=
  exec_honoured (i := .jedec 3) (addr := none) (out := []) (nin := 3) (s := { s with cont := rest, delay := d }) rfl
    (.inl ha) rfl rfl (.inl hb)

section
variable {W : State → Prop} (hW : Closed W) {s : State} (h : s.Live) (hb : s.busy = false)
include hW h hb

/-- The identity and size checks on a code that passes them (R236, R237). -/
theorem Closed.codeChecks (hmfr : idMfr s.idWord = s.params.expectedMfr)
    (hmin : s.params.expMin.toNat ≤ (idExp s.idWord).toNat) (hmax : (idExp s.idWord).toNat ≤ s.params.expMax.toNat)
    {rest : List Micro} (hc : s.cont = .idCheck :: .sizeCheck :: rest)
    (hw : ∀ d, W { s with delay := d, cont := rest }) : W s := by
  refine hW.lineTo h hb hc (by simp) (fun d => internal_idCheck (t := { s with delay := d }) hmfr _) fun _ => ?_
  refine hW.lineTo (m := .sizeCheck) ⟨h.1, h.2, h.3, h.4⟩ hb rfl (by simp)
    (fun d => internal_sizeCheck (t := { s with delay := d, cont := _ }) hmin hmax _) fun d => ?_
  exact hw d

/-- The first part of the self-test, on a device with the expected identity. -/
theorem Closed.identityChecks (hmfr : s.params.devMfr = s.params.expectedMfr)
    (hmin : s.params.expMin.toNat ≤ s.params.devCapExp.toNat) (hmax : s.params.devCapExp.toNat ≤ s.params.expMax.toNat)
    {rest : List Micro} (hc : s.cont = .xfer .jedec :: .setId24 :: .idCheck :: .sizeCheck :: rest)
    (hw : ∀ b : Book, W ({ s with idWord := deviceCode s.params }.onward rest b)) : W s := by
  have hcode : idMfr (deviceCode s.params) = s.params.expectedMfr := (idMfr_append _ _ _).trans hmfr
  have hexp : idExp (deviceCode s.params) = s.params.devCapExp := idExp_append _ _ _
  rw [← hexp] at hmin hmax
  refine hW.frameTo h hb hc rfl (decode_jedec h.opcodes 3) (exec_jedec_identified h.awake hb _) fun _ => ?_
  refine hW.lineTo (m := .setId24) ⟨h.1, h.2, h.3, h.4⟩ hb rfl (by simp) (fun _ => internal_setId24 rfl _) fun _ => ?_
  exact hW.codeChecks ⟨h.1, h.2, h.3, h.4⟩ hb hcode hmin hmax rfl fun d =>
    hw ⟨(s.identified rest).rx, s.pollCount, s.draws, d, (s.identified rest).trace⟩

/-- The read-back of the pattern, the comparison and the return (R238). -/
theorem Closed.readBack {Q : State → Prop} (hidle : Idles Q W)
    (hc : s.cont = [.xfer .readBack, .compare, .ret .ok .capacity false])
    (hbytes : s.params.pattern = s.mem.readBytes 0 Config.page)
    (hQ : ∀ u : State, u.mem = s.mem → u.response = some ⟨.ok, idCapacity s.idWord, []⟩ → Q u) : W s := by
  have hcap : 0 + Config.page ≤ s.params.capacity := by
    have := Params.geometry_capacity h.geometry
    simp only [Config.page]
    omega
  refine hW.frameTo h hb hc rfl (decode_read h.opcodes 0 Config.page)
    (fun d => exec_read_bytes (s := { s with cont := _, delay := d }) h.awake hb (by decide) hcap hbytes) fun _ => ?_
  refine hW.lineTo (m := .compare) ⟨h.1, h.2, h.3, h.4⟩ hb rfl (by simp) (fun _ => internal_compare rfl _) fun _ => ?_
  exact hW.returns hidle ⟨h.1, h.2, h.3, h.4⟩ hb rfl fun _ _ => hQ _ rfl rfl

/-- The write of the pattern and all that follows it (R238): the bytes read back are the pattern. -/
theorem Closed.patternWrite {Q : State → Prop} (hidle : Idles Q W) (hm : s.mem.wf)
    (hscr : s.scratch.length = Config.sector)
    (hc : s.cont = Machine.writeBody .pattern ++ [.xfer .readBack, .compare, .ret .ok .capacity false])
    (hQ : ∀ u : State, (∀ a, u.mem.read a = if a < 256 then s.params.pattern.getD a Config.erased else s.mem.read a) →
      u.response = some ⟨.ok, idCapacity s.idWord, []⟩ → Q u) : W s := by
  have hlen : s.params.pattern.length = 256 := Params.wf_pattern h.params
  have hcap : 0 + 256 ≤ s.params.capacity := by
    have := Params.geometry_capacity h.geometry
    omega
  refine hW.writeBody .pattern _ h hb hm hscr hc hlen hcap fun u hu hcont => ?_
  have hread (a : Nat) : u.mem.read a = if a < 256 then s.params.pattern.getD a Config.erased else s.mem.read a := by
    simpa [writeAddr, writeLen, srcBytes, Config.page] using hu.bytes a
  refine hW.readBack (hu.kept.live h) (hu.kept.busy.trans hb) hidle hcont ?_ fun v hmem hresp =>
    hQ v (fun a => hmem ▸ hread a) (hu.kept.idWord ▸ hresp)
  rw [hu.kept.params]
  refine List.ext_getElem? fun j => ?_
  rw [Memory.readBytes_getElem?, Nat.zero_add, hread]
  by_cases hj : j < 256
  · rw [if_pos (show j < Config.page from hj), if_pos hj, List.getD_eq_getElem _ _ (hlen ▸ hj),
      List.getElem?_eq_getElem]
  · rw [if_neg (show ¬ j < Config.page from hj), List.getElem?_eq_none (by omega)]

end

/-- What a passed self-test leaves: the capacity in the response, the pattern and 0xFF in sector 0. -/
def SelfTestPassed (s u : State) : Prop :=
  (∃ v : Word, u.response = some ⟨.ok, v, []⟩ ∧
    (s.params.devCapExp.toNat < 32 → v.toNat = 2 ^ s.params.devCapExp.toNat)) ∧
  ∀ a, u.mem.read a =
    if a < 256 then s.params.pattern.getD a Config.erased else if a < 4096 then Config.erased else s.mem.read a

/-- Every run of an accepted self-test on a device with the expected identity passes (R240, R242). -/
theorem selfTest_concludes {s : State} (h : s.Live) (hb : s.busy = false) (hm : s.mem.wf)
    (hscr : s.scratch.length = Config.sector) (hc : s.cont = codeOf .selfTest)
    (hmfr : s.params.devMfr = s.params.expectedMfr) (hmin : s.params.expMin.toNat ≤ s.params.devCapExp.toNat)
    (hmax : s.params.devCapExp.toNat ≤ s.params.expMax.toNat) : Concludes (SelfTestPassed s) s := by
  intro W hW hidle
  have hcap := (Params.geometry_capacity h.geometry).2.1
  have hexp : idExp (deviceCode s.params) = s.params.devCapExp := idExp_append _ _ _
  refine hW.identityChecks h hb hmfr hmin hmax hc fun b => ?_
  refine hW.gated (k := .erase .sectorZero) (p := .eraseSector (unitBase 0 Config.sector)) ⟨h.1, h.2, h.3, h.4⟩ hb rfl
    rfl (decode_se h.opcodes 0) rfl rfl (decide_eq_true hcap) (fun _ => rfl) fun b' _ => ?_
  refine hW.patternWrite ⟨h.1, h.2, h.3, h.4⟩ hb hidle (Memory.eraseRange_wf hm _ _) hscr rfl fun u hread hresp =>
    ⟨⟨_, hresp, fun he => ?_⟩, fun a => (hread a).trans ?_⟩
  · rw [← hexp] at he ⊢
    exact idCapacity_toNat he
  · refine if_congr Iff.rfl rfl ?_
    have herased : (s.mem.eraseRange 0 4096).read a = if a < 4096 then Config.erased else s.mem.read a := by
      simpa using Memory.read_eraseRange s.mem 0 4096 a
    exact herased

/-- Settles O51: the device has the expected identity, so every run passes the checks, and the pattern is stored over
the erased sector. -/
theorem selfTestUnderEverySchedule : Obligations.SelfTestUnderEverySchedule := by
  intro s x hp hc hm hq hlim hmfr hmin hmax
  let r : Request := ⟨HostOp.selfTest.code, x.addr, x.len, x.data⟩
  have hexec : exec (.selfTest x) s = .next (s.latch r (codeOf .selfTest)) :=
    (exec_request rfl s).trans (congrArg _ (accept_passes hc.idle rfl rfl _))
  exact ⟨_, hexec,
    (selfTest_concludes (latch_live hp hc r _) hc.not_busy hm State.blankScratch_length rfl hmfr hmin hmax).runs
      hq hlim⟩

end Sys2Proof.Machine

/-! ### An erase under a poll limit (41_status_wel.md R166, R167) -/

namespace Sys2Proof.Machine

/-- What an erase under a poll limit ends with: `OK` and an idle device, or `TIMEOUT`. -/
def ErasedOrTimedOut (u : State) : Prop :=
  u.faults = [] ∧ (u.response = some ⟨.ok, 0, []⟩ ∧ u.busy = false ∨ u.response = some ⟨.timeout, 0, []⟩)

/-- A live controller under the poll limit `limit`, at the position `code`, with `count` reads of BUSY behind it; the
host has nothing to submit. -/
structure Polling (limit count : Nat) (code : List Micro) (s : State) : Prop where
  live : s.Live
  queue : s.hostQueue = []
  limited : s.params.pollLimit = some limit
  count : s.pollCount = count
  cont : s.cont = code

theorem Within.here {Q : State → Prop} {s : State} (hi : s.ctlState = .idle) (hQ : ∀ sch, Q { s with schedule := sch })
    (n : Nat) : Within Q n s := fun turns => ⟨0, _, Nat.zero_le n, rfl, hi, hQ turns⟩

section
variable {limit count n : Nat} {code rest : List Micro} {s : State} {Q : State → Prop}

/-- Other turns and another delay leave the position. -/
theorem Polling.rescheduled (h : Polling limit count code s) (later : List Turn) (d : Nat) :
    Polling limit count code (s.rescheduled later d) :=
  ⟨⟨h.live.1, h.live.2, h.live.3, h.live.4⟩, h.queue, h.limited, h.count, h.cont⟩

/-- The completion on any turn stays at the position. -/
theorem Polling.completed (h : Polling limit count code s) (later : List Turn) (d : Nat) :
    Polling limit count code (s.rescheduled later d).complete :=
  have hr := h.rescheduled later d
  ⟨⟨hr.live.1, hr.live.2, hr.live.3, hr.live.4⟩, hr.queue, hr.limited, hr.count, hr.cont⟩

/-- One step at an internal line: the line, or the completion before it. -/
theorem Polling.line {m : Micro} (h : Polling limit count (m :: rest) s) (hm : ∀ k, m ≠ .xfer k)
    (hline : ∀ later d, Within Q n ((s.rescheduled later d).internal m rest))
    (hcomplete : s.busy = true → ∀ later d, Polling limit count (m :: rest) (s.rescheduled later d).complete →
      Within Q n (s.rescheduled later d).complete) : Within Q (n + 1) s :=
  .choice h.live h.queue h.cont (fun later d => ⟨_, lineStep_internal hm, hline later d⟩)
    fun hb later d => hcomplete hb later d (h.completed later d)

/-- One step at an internal line while the device is idle. -/
theorem Polling.idleLine {m : Micro} (h : Polling limit count (m :: rest) s) (hb : s.busy = false)
    (hm : ∀ k, m ≠ .xfer k) (hline : ∀ later d, Within Q n ((s.rescheduled later d).internal m rest)) :
    Within Q (n + 1) s :=
  h.line hm hline fun hb' => absurd (hb.symm.trans hb') Bool.false_ne_true

/-- One step at a status read: the read, which sees the BUSY bit, or the completion before it. -/
theorem Polling.read (h : Polling limit count (.xfer .rdsr :: rest) s)
    (hread : ∀ t v, Polling limit count rest t → t.busy = s.busy → t.rx = [v] → busyBit t.params v = s.busy →
      Within Q n t)
    (hcomplete : s.busy = true → ∀ later d, Polling limit count (.xfer .rdsr :: rest) (s.rescheduled later d).complete →
      Within Q n (s.rescheduled later d).complete) : Within Q (n + 1) s := by
  refine .choice h.live h.queue h.cont (fun later d => ⟨_, lineStep_frame (s := { s with delay := d }) (k := .rdsr) rfl
    (decode_rdsr h.live.opcodes 1) (exec_rdsr_polled (s := { s with delay := d }) h.live.awake rest) later, ?_⟩)
    fun hb later d => hcomplete hb later d (h.completed later d)
  exact hread _ _ ⟨⟨h.live.1, h.live.2, h.live.3, h.live.4⟩, h.queue, h.limited, h.count, rfl⟩ rfl rfl
    (busyBit_statusByte h.live.params _ _ _)

/-- The test of a read that saw BUSY: the count goes up, and the poll reads again below the limit (R166, R167). -/
theorem Polling.test_busy (h : Polling limit count (.pollTest :: rest) s) {v : Byte} (hrx : s.rx = [v])
    (hv : busyBit s.params v = true) :
    Polling limit (count + 1)
      (if limit ≤ count + 1 then [.ret .timeout .zero false] else .xfer .rdsr :: .pollTest :: rest)
      (s.internal .pollTest rest) := by
  have hbit : busyBit s.params (s.rxByte 0) = true := by rw [State.rxByte, hrx]; exact hv
  have hex : pollExhausted s.params (s.pollCount + 1) = decide (limit ≤ count + 1) := by
    rw [pollExhausted, h.limited, h.count]
  by_cases hlim : limit ≤ count + 1
  · rw [pollTest_timeout hbit (hex.trans (decide_eq_true hlim)), if_pos hlim]
    exact ⟨⟨h.live.1, h.live.2, h.live.3, h.live.4⟩, h.queue, h.limited, congrArg (· + 1) h.count, rfl⟩
  · rw [pollTest_again hbit (hex.trans (decide_eq_false hlim)), if_neg hlim]
    exact ⟨⟨h.live.1, h.live.2, h.live.3, h.live.4⟩, h.queue, h.limited, congrArg (· + 1) h.count, rfl⟩

theorem internal_busy (m : Micro) (rest : List Micro) (s : State) : (s.internal m rest).busy = s.busy := by
  obtain ⟨-, -, -, hb, -⟩ := internal_effect m rest s _ rfl
  exact hb

end

/-! The bounds, from the last line of an erase to its first. -/

section
variable {limit count : Nat} {s : State}

theorem Polling.return_within {r : Result} (h : Polling limit count [.ret r .zero false] s)
    (hr : r = .ok ∨ r = .timeout) (hb : s.busy = false) : Within ErasedOrTimedOut 1 s := by
  refine h.idleLine hb (by simp) fun later d => .here rfl (fun sch => ⟨h.live.no_fault, ?_⟩) 0
  rcases hr with rfl | rfl
  · exact .inl ⟨rfl, hb⟩
  · exact .inr rfl

theorem Polling.timeout_within (h : Polling limit count [.ret .timeout .zero false] s) : Within ErasedOrTimedOut 2 s :=
  h.line (by simp) (fun _ _ => .here rfl (fun _ => ⟨h.live.no_fault, .inr rfl⟩) 1)
    fun _ _ _ ht => ht.return_within (.inr rfl) rfl

/-- The poll of an erase from its status read on, and the return. -/
def pollLoop : List Micro := [.xfer .rdsr, .pollTest, .ret .ok .zero false]

/-- A poll of an idle device reads BUSY = 0 and returns. -/
theorem Polling.idleRead_within (h : Polling limit count pollLoop s) (hb : s.busy = false) :
    Within ErasedOrTimedOut 3 s := by
  refine h.read (fun t v ht htb hrx hv => ?_) fun hb' => absurd (hb.symm.trans hb') Bool.false_ne_true
  refine ht.idleLine (htb.trans hb) (by simp) fun later d => ?_
  have hbit : busyBit t.params ((t.rescheduled later d).rxByte 0) = false := by
    show busyBit t.params (t.rx.getD 0 _) = false
    rw [hrx]
    exact hv.trans hb
  rw [pollTest_done (s := t.rescheduled later d) hbit]
  exact Polling.return_within ⟨⟨ht.live.1, ht.live.2, ht.live.3, ht.live.4⟩, ht.queue, ht.limited, ht.count, rfl⟩
    (.inl rfl) (htb.trans hb)

/-- A test that saw BUSY, on a device that has completed since. -/
theorem Polling.lateTest_within (h : Polling limit count [.pollTest, .ret .ok .zero false] s) (hb : s.busy = false)
    {v : Byte} (hrx : s.rx = [v]) (hv : busyBit s.params v = true) {left : Nat} (hlimit : limit = count + left + 1) :
    Within ErasedOrTimedOut (2 * left + 2) s := by
  refine h.idleLine hb (by simp) fun later d => ?_
  have ht := (h.rescheduled later d).test_busy hrx hv
  have htb := (internal_busy .pollTest [.ret .ok .zero false] (s.rescheduled later d)).trans hb
  split_ifs at ht with hlim
  · exact (ht.return_within (.inr rfl) htb).mono (by omega)
  · exact (ht.idleRead_within htb).mono (by omega)

/-- A poll of a BUSY device that may read BUSY `left` times more after this read: two steps for each read, the
completion, and the return. -/
theorem Polling.busyRead_within (left : Nat) : ∀ {count : Nat} {s : State}, Polling limit count pollLoop s →
    s.busy = true → limit = count + left + 1 → Within ErasedOrTimedOut (2 * left + 4) s := by
  induction left using Nat.strong_induction_on with
  | _ left ih =>
    intro count s h hb hlimit
    refine h.read (fun t v ht htb hrx hv => ?_) fun _ later d ht => (ht.idleRead_within rfl).mono (by omega)
    have hsaw := hv.trans hb
    refine ht.line (by simp) (fun later d => ?_) fun _ later d hu => hu.lateTest_within rfl hrx hsaw hlimit
    have hu := (ht.rescheduled later d).test_busy hrx hsaw
    have hub := (internal_busy .pollTest [.ret .ok .zero false] (t.rescheduled later d)).trans (htb.trans hb)
    split_ifs at hu with hlim
    · exact hu.timeout_within.mono (by omega)
    · exact (ih (left - 1) (by omega) hu hub (by omega)).mono (by omega)

/-- The poll of an erase from its start. -/
theorem Polling.start_within (h : Polling limit count (.pollInit :: pollLoop) s) (hlimit : 1 ≤ limit) :
    Within ErasedOrTimedOut (2 * limit + 3) s := by
  have start {t : State} (ht : Polling limit count (.pollInit :: pollLoop) t) (later : List Turn) (d : Nat) :
      Polling limit 0 pollLoop ((t.rescheduled later d).internal .pollInit pollLoop) :=
    ⟨⟨ht.live.1, ht.live.2, ht.live.3, ht.live.4⟩, ht.queue, ht.limited, rfl, rfl⟩
  refine h.line (by simp) (fun later d => ?_) fun _ later d ht => ?_
  · cases hb : s.busy with
    | true => exact ((start h later d).busyRead_within (limit - 1) hb (by omega)).mono (by omega)
    | false => exact ((start h later d).idleRead_within hb).mono (by omega)
  · have hidle := ht.idleLine rfl (by simp) fun later' d' => (start ht later' d').idleRead_within rfl
    exact hidle.mono (by omega)

end

/-- A gated erase of an idle device is over within `2 * limit + 5` steps. -/
theorem SendsErase.within {t : State} {base size limit : Nat} {k : FrameKind} {f : RawFrame} {i : Instr} {op : WireOp}
    {addr : Option Addr} {p : Pending} (h : SendsErase t base size k f i op addr p) (hl : t.Live) (hb : t.busy = false)
    (hq : t.hostQueue = []) (hlim : t.params.pollLimit = some limit) (hpos : 1 ≤ limit) :
    Within ErasedOrTimedOut (2 * limit + 5) t := by
  refine .frame (k := .wren) hl hq hb h.cont rfl (decode_wren hl.opcodes)
    (fun d => exec_wren_enabled (s := { t with cont := _, delay := d }) hl.awake hb) fun d => ?_
  refine .frame (k := k) (rest := .pollInit :: pollLoop) ⟨hl.1, hl.2, hl.3, hl.4⟩ hq hb rfl
    ((frameOf_onward t k (afterWren k) ⟨[], t.pollCount, t.draws, d, t.trace ++ [.frame (t.opc .wren) none [] []]⟩
      true).trans h.frame) h.decodes
    (fun d' => exec_started h.fields h.gatedOp hl.awake hb rfl h.wellFormed (h.command _)) fun d' => ?_
  exact Polling.start_within ⟨⟨hl.1, hl.2, hl.3, hl.4⟩, hq, hlim, rfl, rfl⟩ hpos

/-- Settles O49: two frames, the start of the poll, two steps for each read, the completion, and the return. -/
theorem pollLimitBoundsErase : Obligations.PollLimitBoundsErase := by
  intro s x limit hp hc hq hlim i hi
  obtain ⟨base, size, hunit⟩ : ∃ base size, ErasesUnit s x i base size := by
    rcases hi with ⟨rfl, hin⟩ | ⟨rfl, hin⟩ | rfl
    · exact ⟨_, _, .inl ⟨rfl, hin, rfl, rfl⟩⟩
    · exact ⟨_, _, .inr (.inl ⟨rfl, hin, rfl, rfl⟩)⟩
    · exact ⟨_, _, .inr (.inr ⟨rfl, rfl, rfl⟩)⟩
  obtain ⟨r, code, hexec, k, f, j, op, addr, p, hsends⟩ := hunit.accepted hp hc.idle
  have hpos : 1 ≤ limit := Nat.one_le_iff_ne_zero.mpr fun h0 => Params.wf_limit hp (h0 ▸ hlim)
  exact ⟨_, hexec, hsends.within (latch_live hp hc r code) hc.not_busy hq hlim hpos⟩

end Sys2Proof.Machine

/-! ### The frame of a frame, and the pending operations twice (20_memory.md R84, R85, R90) -/

namespace Sys2Proof.Machine

/-- No effect of a frame writes the array, a controller's register or the host port, and the trace grows by the frame
with the in bytes that the controller now holds. -/
theorem FrameEffect.leaves {s t : State} {op : WireOp} {addr : Option Addr} {out : List Byte}
    (h : FrameEffect op addr out s t) :
    t.mem = s.mem ∧ s.SameWalk t ∧ t.pollCount = s.pollCount ∧ t.idWord = s.idWord ∧ s.SameControl t ∧
      t.trace = s.trace ++ [.frame (s.opc op) addr out t.rx] := by
  cases h <;>
    exact ⟨rfl, ⟨rfl, rfl, rfl, rfl, rfl, rfl, rfl, rfl⟩, rfl, rfl, ⟨rfl, rfl, rfl, rfl, rfl, rfl, rfl, rfl⟩, rfl⟩

/-- Settles O21: a frame instruction has one of the effects of its command, and each leaves all this alone. -/
theorem framesLeaveArrayAndController : Obligations.FramesLeaveArrayAndController := by
  intro s t i op a out n hi ht
  obtain ⟨t', ht', heff⟩ := exec_frame_effect hi s
  obtain rfl := Host.Outcome.next.inj (ht'.symm.trans ht)
  obtain ⟨hmem, hrest⟩ := heff.leaves
  exact ⟨fun x => by rw [hmem], hmem, hrest⟩

/-- Programming is AND, so the payload a second time clears no further bit (40_bus_commands.md R147). -/
theorem Memory.program_program {m : Memory} (hm : m.wf) (a : Nat) (d : List Byte) :
    (m.program a d).program a d = m.program a d := by
  have hm' := Memory.program_wf hm a d
  refine Memory.ext_of_read (Memory.program_wf hm' a d) hm' fun x => ?_
  rw [Memory.read_program hm', Memory.read_program hm]
  split_ifs
  · rw [BitVec.and_assoc, BitVec.and_self]
  · rfl

/-- An erased range lists no cell that a second erase could remove. -/
theorem Memory.eraseRange_eraseRange (m : Memory) (b n : Nat) :
    (m.eraseRange b n).eraseRange b n = m.eraseRange b n := by
  simp only [Memory.eraseRange, List.filter_filter, Bool.and_self]

/-- Settles O25: a pending operation is nothing, a program or an erase of a range. -/
theorem pendingOperationsIdempotent : Obligations.PendingOperationsIdempotent := by
  intro p op m hm
  cases op with
  | none => rfl
  | program a d => exact Memory.program_program hm a.toNat d
  | eraseSector b => exact Memory.eraseRange_eraseRange m b.toNat Config.sector
  | eraseBlock b => exact Memory.eraseRange_eraseRange m b.toNat Config.block
  | eraseChip => exact Memory.eraseRange_eraseRange m 0 p.capacity

end Sys2Proof.Machine

/-! ### The two identifications (44_id_selftest_power.md R228, R230) -/

namespace Sys2Proof.Machine

/-- The manufacturer and device code of the device (R228), in the register of 24 bits. -/
def shortDeviceCode (p : Params) : BitVec 24 := (p.devMfr ++ p.devId8).setWidth 24

theorem shortDeviceCode_toNat (p : Params) :
    (shortDeviceCode p).toNat = p.devMfr.toNat * 256 + p.devId8.toNat := by
  have := p.devMfr.isLt
  have := p.devId8.isLt
  rw [shortDeviceCode, BitVec.toNat_setWidth, toNat_append2, Nat.mod_eq_of_lt (by omega)]

theorem deviceCode_toNat (p : Params) :
    (deviceCode p).toNat = p.devMfr.toNat * 65536 + p.devType.toNat * 256 + p.devCapExp.toNat :=
  toNat_append3 _ _ _

theorem internal_setId16 {t : State} (h : t.rx = [t.params.devMfr, t.params.devId8]) (rest : List Micro) :
    t.internal .setId16 rest = { t with idWord := shortDeviceCode t.params, cont := rest } := by
  simp only [State.internal, State.rxByte, h]
  rfl

/-- `s` at the position `rest`, past the identity frame of the command `op` that was answered with `bytes`. -/
def State.answered (s : State) (op : WireOp) (addr : Option Addr) (bytes : List Byte) (rest : List Micro) : State :=
  { s with cont := rest }.logFrame (s.opc op) addr [] bytes

/-- The end of an identification: the code `w` is in the register and in the response (10_state.md R56). -/
def State.identifiedAs (s : State) (op : WireOp) (addr : Option Addr) (bytes : List Byte) (w : BitVec 24) : State :=
  { s.answered op addr bytes [] with idWord := w }.respond ⟨.ok, w.setWidth 32, []⟩

/-- An identification is its frame, the line that assembles the code, and the return. -/
theorem Reach.identification {s : State} (h : s.Live) {op : WireOp} {addr : Option Addr} {bytes : List Byte}
    {m : Micro} {w : BitVec 24}
    (hframe : Reach s [.main] (s.answered op addr bytes [m, .ret .ok .identifier false])) (hm : ∀ k, m ≠ .xfer k)
    (hcode : ∀ rest, (s.answered op addr bytes (m :: rest)).internal m rest =
      { s.answered op addr bytes rest with idWord := w }) :
    Reach s [.main, .main, .main] (s.identifiedAs op addr bytes w) := by
  have hline := Reach.line (s := s.answered op addr bytes [m, .ret .ok .identifier false]) ⟨h.geometry, h.2, h.3⟩ rfl hm
  rw [hcode] at hline
  have hret := Reach.line (s := { s.answered op addr bytes [.ret .ok .identifier false] with idWord := w })
    ⟨h.geometry, h.2, h.3⟩ rfl (by simp)
  exact (hframe.trans hline).trans hret

/-- From acceptance of `i` the code `c` is returned after one frame, which `bytes` answers, and with no change of the
device. -/
def ReturnsCode (s : State) (i : Instr) (op : WireOp) (addr : Option Addr) (bytes : List Byte) (c : Nat) : Prop :=
  ∃ t u, exec i s = .next t ∧ runFor 3 { t with schedule := [.main, .main, .main] } = .next u ∧
    u.ctlState = .idle ∧ u.response = some ⟨.ok, BitVec.ofNat 32 c, []⟩ ∧
    s.SameDevice u ∧ s.SameWalk u ∧ s.SameRest u ∧ u.idWord.toNat = c ∧ u.faults = [] ∧
    u.trace = s.trace ++ [.frame (s.opc op) addr [] bytes]

/-- A request whose accepted run ends in the code `w` returns it. -/
theorem ReturnsCode.of_reach {s : State} (hc : s.CleanStart) {i : Instr} {r : Request} {code : List Micro} {op : WireOp}
    {addr : Option Addr} {bytes : List Byte} {w : BitVec 24} (hexec : exec i s = .next (s.latch r code))
    (hrun : Reach (s.latch r code) [.main, .main, .main] ((s.latch r code).identifiedAs op addr bytes w)) :
    ReturnsCode s i op addr bytes w.toNat :=
  ⟨_, _, hexec, hrun.run, rfl, by rw [BitVec.ofNat_toNat]; rfl, ⟨rfl, rfl, rfl, rfl, rfl⟩,
    ⟨rfl, rfl, rfl, rfl, rfl, rfl, rfl, rfl⟩, ⟨rfl, rfl, rfl, rfl⟩, rfl, hc.no_fault, rfl⟩

theorem readId_returnsCode {s : State} (hp : s.params.wf = true) (hc : s.CleanStart) (x : HostArgs) :
    ReturnsCode s (.readId x) .rdid (some 0) [s.params.devMfr, s.params.devId8] (shortDeviceCode s.params).toNat := by
  have hl := latch_live hp hc ⟨HostOp.readId.code, x.addr, x.len, x.data⟩ (codeOf .readId)
  refine .of_reach hc ((exec_request rfl s).trans (congrArg _ (accept_passes hc.idle rfl rfl _))) ?_
  have hframe := Reach.honoured hl.enabled rfl rfl (decode_rdid hl.opcodes 0 2) rfl (.inl hl.awake) rfl rfl
    (.inl hc.not_busy)
  exact .identification hl hframe (by simp) fun _ => internal_setId16 rfl _

theorem readJedecId_returnsCode {s : State} (hp : s.params.wf = true) (hc : s.CleanStart) (x : HostArgs) :
    ReturnsCode s (.readJedecId x) .jedec none [s.params.devMfr, s.params.devType, s.params.devCapExp]
      (deviceCode s.params).toNat := by
  have hl := latch_live hp hc ⟨HostOp.readJedecId.code, x.addr, x.len, x.data⟩ (codeOf .readJedecId)
  refine .of_reach hc ((exec_request rfl s).trans (congrArg _ (accept_passes hc.idle rfl rfl _))) ?_
  have hframe := Reach.honoured hl.enabled rfl rfl (decode_jedec hl.opcodes 3) rfl (.inl hl.awake) rfl rfl
    (.inl hc.not_busy)
  exact .identification hl hframe (by simp) fun _ => internal_setId24 rfl _

/-- Settles O37: both requests run frame, code and return, and the codes are the device's bytes in order. -/
theorem identificationReturnsCodes : Obligations.IdentificationReturnsCodes := by
  intro s x hp hc
  have hshort := readId_returnsCode hp hc x
  have hlong := readJedecId_returnsCode hp hc x
  rw [shortDeviceCode_toNat] at hshort
  rw [deviceCode_toNat] at hlong
  exact ⟨hshort, hlong⟩

end Sys2Proof.Machine

/-! ### Encoding and decoding (30_encoding.md R96 to R99, R106, R115) -/

namespace Sys2Proof

/-- A command of format F0 has no byte after its opcode and reads none (R96). -/
theorem decodeBare_eq_some {rest : List Byte} {nin : Nat} {i j : Instr} :
    decodeBare rest nin i = some j ↔ rest = [] ∧ nin = 0 ∧ i = j := by
  simp only [decodeBare, Option.ite_none_right_eq_some, Option.some.injEq, and_assoc]

/-- The address is the first three bytes, and what the continuation gets is all that follows them (R97, R99). -/
theorem decodeAddr_eq_some {rest : List Byte} {k : Addr → List Byte → Option Instr} {i : Instr} :
    decodeAddr rest k = some i ↔ ∃ a out, rest = addrBytes a ++ out ∧ k a out = some i := by
  constructor
  · intro h
    unfold decodeAddr at h
    split at h
    · next b1 b2 b3 out => exact ⟨addrOfBytes b1 b2 b3, out, by rw [addrBytes_addrOfBytes]; rfl, h⟩
    · cases h
  · rintro ⟨a, out, rfl, h⟩
    rwa [decodeAddr_addrBytes]

theorem encode_instr (t : Opcodes) (op : HostOp) (x : HostArgs) : encode t (op.instr x) = .request (requestWord op x) := by
  cases op <;> rfl

/-- A command word is its two fields (R106). -/
theorem cmdReserved_append_cmdOp (cmd : Word) : cmdReserved cmd ++ cmdOp cmd = cmd := by
  ext i hi
  simp only [cmdReserved, cmdOp, BitVec.getElem_append, BitVec.getElem_extractLsb']
  split_ifs with h
  · rw [Nat.zero_add, BitVec.getLsbD_eq_getElem hi]
  · rw [show 4 + (i - 4) = i by omega, BitVec.getLsbD_eq_getElem hi]

/-- The operands decoded from a frame are all that the frame holds: no byte and no count is dropped. -/
theorem encode_of_decodeOperands (t : Opcodes) {op : WireOp} {rest : List Byte} {nin : Nat} {i : Instr}
    (h : decodeOperands op rest nin = some i) : encode t i = .frame ⟨op.byte t, rest, nin⟩ := by
  cases op <;> simp only [decodeOperands, decodeBare_eq_some, decodeAddr_eq_some, Option.ite_none_right_eq_some,
    Option.some.injEq] at h
  case wren | ce | pd | rpd | rsten | rst => obtain ⟨rfl, rfl, rfl⟩ := h; rfl
  case rdsr | jedec | wrsr => obtain ⟨rfl, rfl⟩ := h; rfl
  case read | rdid | pp => obtain ⟨a, out, rfl, rfl, rfl⟩ := h; rfl
  case se | be => obtain ⟨a, out, rfl, rfl, rfl, rfl⟩ := h; rfl
  case fastRead =>
    obtain ⟨a, out, rfl, h⟩ := h
    split at h
    · cases h; rfl
    · cases h

theorem decodeFrame_eq_ok {t : Opcodes} {f : RawFrame} {i : Instr} :
    decodeFrame t f = .ok i ↔ ∃ op, WireOp.ofByte? t f.opc = some op ∧ decodeOperands op f.rest f.nin = some i := by
  unfold decodeFrame
  cases WireOp.ofByte? t f.opc with
  | none => simp
  | some op => cases h : decodeOperands op f.rest f.nin <;> simp [h]

theorem decodeRequest_eq_ok {w : HostWord} {i : Instr} :
    decodeRequest w = .ok i ↔ cmdReserved w.cmd = 0 ∧
      ∃ op, HostOp.ofCode? (cmdOp w.cmd) = some op ∧ op.instr ⟨w.addr, w.len, w.data⟩ = i := by
  unfold decodeRequest
  split_ifs with h
  · cases HostOp.ofCode? (cmdOp w.cmd) <;> simp [h]
  · exact ⟨nofun, fun hres => absurd hres.1 h⟩

/-- A request that decodes has the words of its operation and operands. -/
theorem encode_of_decodeRequest (t : Opcodes) {w : HostWord} {i : Instr} (h : decodeRequest w = .ok i) :
    encode t i = .request w := by
  obtain ⟨hres, op, hop, rfl⟩ := decodeRequest_eq_ok.mp h
  have hcmd : (0 : BitVec 28) ++ op.code = w.cmd := by
    rw [HostOp.code_of_ofCode? hop, ← hres, cmdReserved_append_cmdOp]
  rw [encode_instr, requestWord, hcmd]

/-- A frame that decodes is the encoding of its instruction. -/
theorem encode_of_decodeFrame {t : Opcodes} {f : RawFrame} {i : Instr} (h : decodeFrame t f = .ok i) :
    encode t i = .frame f := by
  obtain ⟨op, hop, hi⟩ := decodeFrame_eq_ok.mp h
  rw [encode_of_decodeOperands t hi, WireOp.byte_of_ofByte? hop]

end Sys2Proof

namespace Sys2Proof.Machine

/-- A frame instruction is encoded as the frame of its fields (R97). -/
theorem encode_frame (t : Opcodes) {i : Instr} {op : WireOp} {a : Option Addr} {out : List Byte} {nin : Nat}
    (h : frameFields i = some (op, a, out, nin)) : encode t i = .frame (rawFrame t op a out nin) := by
  cases i <;> cases h <;> rfl

/-- A request instruction is that of its operation and operands. -/
theorem instr_of_requestFields {i : Instr} {op : HostOp} {x : HostArgs} (h : requestFields i = some (op, x)) :
    op.instr x = i := by
  cases i <;> cases h <;> rfl

/-- The bytes laid out after an opcode are read back as the operands (R97, R99). -/
theorem decodeOperands_rawFrame (t : Opcodes) {i : Instr} {op : WireOp} {a : Option Addr} {out : List Byte} {nin : Nat}
    (h : frameFields i = some (op, a, out, nin)) : decodeOperands op (rawFrame t op a out nin).rest nin = some i := by
  cases i <;> cases h <;> simp [decodeOperands, decodeBare, rawFrame]

/-- Settles O1: an instruction is a frame or a request. A frame's opcode byte names its command, since the bytes are
distinct, and its operands are read back; a request's word names its operation. -/
theorem decodeEncodeRoundTrip : Obligations.DecodeEncodeRoundTrip := by
  intro t i ht
  rcases frame_or_request i with ⟨op, a, out, nin, h⟩ | ⟨op, x, h⟩
  · rw [encode_frame t h]
    exact decodeFrame_of_operands ht (decodeOperands_rawFrame t h)
  · rw [← instr_of_requestFields h, encode_instr]
    exact decodeRequest_requestWord op x

/-- Settles O2: the decoder's inversion lemmas account for every byte, count and bit of the packet. -/
theorem encodeInvertsDecode : Obligations.EncodeInvertsDecode := by
  intro t p i h
  cases p with
  | frame f => exact encode_of_decodeFrame h
  | request w => exact encode_of_decodeRequest t h

/-- Settles O3: each word is the encoding of its instruction, by evaluation, so the laws of the decoder apply. -/
theorem specWordsDecode : Obligations.SpecWordsDecode :=
  have hd := Opcodes.default_distinct
  ⟨decode_wren hd, decode_rdsr hd 1, decode_se hd 0x123456, decode_pp hd 0x000100 [0xDE, 0xAD],
    decode_read hd 0x000FFE 4, decode_jedec hd 3, decodeRequest_requestWord .write ⟨0x100, 4, [0xDE, 0xAD, 0xBE, 0xEF]⟩,
    decodeRequest_requestWord .selfTest ⟨0, 0, []⟩⟩

/-! ### Refusals (40_bus_commands.md R132, R150) -/

/-- All that a refused frame does: its entry in the trace, the record and the mark. -/
theorem refuse_logFrame (s : State) (opc : Byte) (a : Option Addr) (out : List Byte) {t : State}
    (ht : t = (s.logFrame opc a out []).refuse opc) :
    t.refused = true ∧ (∀ r, r ∈ t.faults ↔ r ∈ s.faults ∨ r = .unmodelled opc) ∧
      t.trace = s.trace ++ [.frame opc a out []] ∧ s.SameDevice t ∧ s.SameWalk t ∧
      t.pollCount = s.pollCount ∧ t.idWord = s.idWord ∧ s.SameControl t := by
  subst ht
  exact ⟨rfl, fun _ => mem_refuse, rfl, ⟨rfl, rfl, rfl, rfl, rfl⟩, ⟨rfl, rfl, rfl, rfl, rfl, rfl, rfl, rfl⟩, rfl, rfl,
    ⟨rfl, rfl, rfl, rfl, rfl, rfl, rfl, rfl⟩⟩

theorem emitted_eq_false_iff {op : WireOp} :
    emitted op = false ↔ op = .wrsr ∨ op = .fastRead ∨ op = .rsten ∨ op = .rst := by
  cases op <;> decide

theorem frameStep_of_error {s : State} {f : RawFrame} {e : DecodeError} (h : decodeFrame s.params.opc f = .error e) :
    State.frameStep f s = .next (s.xferUndecoded e) := by
  rw [State.frameStep, h]

/-- What is reported of a frame without its format: its address where the format has one and the three bytes are
there, and the bytes left (R141, log 17). -/
theorem badFormatOf_eq (op : WireOp) (rest : List Byte) (nin : Nat) :
    ∃ a out, badFormatOf op rest nin = .badFormat op a out nin ∧
      ((op.format.hasAddr = true ∧ ∃ b1 b2 b3, rest = b1 :: b2 :: b3 :: out ∧ a = some (b1 ++ b2 ++ b3)) ∨
        ((op.format.hasAddr = false ∨ rest.length < 3) ∧ out = rest ∧ a = none)) := by
  cases h : op.format.hasAddr with
  | false => exact ⟨none, rest, by simp [badFormatOf, h], .inr ⟨.inl rfl, rfl, rfl⟩⟩
  | true =>
    match rest with
    | b1 :: b2 :: b3 :: out =>
      exact ⟨some (addrOfBytes b1 b2 b3), out, by simp [badFormatOf, h], .inl ⟨rfl, b1, b2, b3, rfl, rfl⟩⟩
    | [] | [_] | [_, _] => exact ⟨none, _, by simp [badFormatOf, h], .inr ⟨.inr (by simp), rfl, rfl⟩⟩

/-- An awake device refuses a frame of a command that the block never emits before it looks at the form (R132). -/
theorem frameStep_unemitted {s : State} {f : RawFrame} {op : WireOp} {a : Option Addr} {out : List Byte} {nin : Nat}
    (ha : s.asleep = false) (he : emitted op = false) (hop : op.byte s.params.opc = f.opc)
    (h : decodeFrame s.params.opc f = .error (.badFormat op a out nin)) :
    State.frameStep f s = .next ((s.logFrame f.opc a out []).refuse f.opc) := by
  rw [frameStep_of_error h, ← hop]
  simp [State.xferUndecoded, State.opc, ha, he]

/-- An awake device refuses a frame with a reserved opcode byte (R104). -/
theorem frameStep_reserved {s : State} {f : RawFrame} (ha : s.asleep = false)
    (h : WireOp.ofByte? s.params.opc f.opc = none) :
    State.frameStep f s = .next ((s.logFrame f.opc none f.rest []).refuse f.opc) := by
  rw [frameStep_of_error (e := .unknownOpcode f.opc f.rest f.nin) (by rw [decodeFrame, h])]
  simp [State.xferUndecoded, ha]

/-- Settles O17: in each of the three cases the frame is refused and does no more. -/
theorem unemittedCommandsRefused : Obligations.UnemittedCommandsRefused := by
  intro s ha
  refine ⟨fun i op a out n hi hop => ?_, fun f op hbyte hop hnone => ?_, fun f hbyte => ?_⟩
  · have he : emitted op = false := emitted_eq_false_iff.mpr hop
    obtain ⟨hmark, hrecord, hrest⟩ := refuse_logFrame s (s.opc op) a out rfl
    exact ⟨_, (exec_frame hi s).trans (congrArg _ (xfer_unmodelled ha he)), hmark, (hrecord _).mpr (.inr rfl), hrest⟩
  · have he : emitted op = false := emitted_eq_false_iff.mpr hop
    obtain ⟨a, out, hbad, hcarried⟩ := badFormatOf_eq op f.rest f.nin
    have hdec : decodeFrame s.params.opc f = .error (.badFormat op a out f.nin) := by
      simp only [decodeFrame, hbyte, hnone, hbad]
    exact ⟨_, a, out, frameStep_unemitted ha he (WireOp.byte_of_ofByte? hbyte) hdec, hcarried,
      refuse_logFrame s f.opc a out rfl⟩
  · obtain ⟨hmark, hrecord, hrest⟩ := refuse_logFrame s f.opc none f.rest rfl
    exact ⟨_, frameStep_reserved ha hbyte, hmark, (hrecord _).mpr (.inr rfl), hrest⟩

end Sys2Proof.Machine

/-! ### Faults of a frame (40_bus_commands.md R132, R141, R144) -/

namespace Sys2Proof.Machine

/-- All that a frame which raises a fault does: its entry in the trace and the record. -/
theorem raise_logFrame (s : State) (opc : Byte) (a : Option Addr) (out : List Byte) (r : FaultRecord) {t : State}
    (ht : t = (s.logFrame opc a out []).raise r) :
    r ∈ t.faults ∧ t.refused = s.refused ∧ t.draws = s.draws ∧ t.trace = s.trace ++ [.frame opc a out []] ∧
      s.SameDevice t ∧ s.SameWalk t ∧ t.pollCount = s.pollCount ∧ t.idWord = s.idWord ∧ s.SameControl t := by
  subst ht
  exact ⟨mem_raise.mpr (.inr rfl), rfl, rfl, rfl, ⟨rfl, rfl, rfl, rfl, rfl⟩,
    ⟨rfl, rfl, rfl, rfl, rfl, rfl, rfl, rfl⟩, rfl, rfl, ⟨rfl, rfl, rfl, rfl, rfl, rfl, rfl, rfl⟩⟩

/-- A frame is not decoded for its opcode byte, or for the format of the command that has this byte. -/
theorem decodeFrame_eq_error {t : Opcodes} {f : RawFrame} {e : DecodeError} (h : decodeFrame t f = .error e) :
    e = .unknownOpcode f.opc f.rest f.nin ∨
      ∃ op a out, e = .badFormat op a out f.nin ∧ op.byte t = f.opc := by
  unfold decodeFrame at h
  split at h
  · cases h; exact .inl rfl
  · next op hop =>
    split at h
    · cases h
    · obtain ⟨a, out, hbad, -⟩ := badFormatOf_eq op f.rest f.nin
      rw [hbad] at h
      cases h
      exact .inr ⟨op, a, out, rfl, WireOp.byte_of_ofByte? hop⟩

/-- A frame instruction other than `RPD` to a sleeping device (R144). -/
theorem exec_asleep {s : State} {i : Instr} {op : WireOp} {a : Option Addr} {out : List Byte} {n : Nat}
    (hi : frameFields i = some (op, a, out, n)) (ha : s.asleep = true) (hop : op ≠ .rpd) :
    exec i s = .next ((s.logFrame (s.opc op) a out []).raise (.deviceAsleep (s.opc op))) := by
  rw [exec_frame hi, xfer_asleep ha hop]

/-- Every frame to a sleeping device but one with the opcode byte of `RPD`, decoded or not. -/
theorem frameStep_asleep {s : State} {f : RawFrame} (ha : s.asleep = true) (hopc : f.opc ≠ s.opc .rpd) :
    ∃ a out, State.frameStep f s = .next ((s.logFrame f.opc a out []).raise (.deviceAsleep f.opc)) := by
  have hne {op : WireOp} (hbyte : op.byte s.params.opc = f.opc) : op ≠ .rpd := by
    rintro rfl
    exact hopc hbyte.symm
  cases hdec : decodeFrame s.params.opc f with
  | ok i =>
    obtain ⟨op, a, out, n, hi, hbyte⟩ := decodeFrame_fields hdec
    refine ⟨a, out, ?_⟩
    rw [State.frameStep, hdec, ← hbyte]
    exact exec_asleep hi ha (hne hbyte)
  | error e =>
    rw [frameStep_of_error hdec]
    rcases decodeFrame_eq_error hdec with rfl | ⟨op, a, out, rfl, hbyte⟩
    · exact ⟨none, f.rest, by simp only [State.xferUndecoded, ha, if_true]⟩
    · refine ⟨a, out, ?_⟩
      rw [← hbyte]
      exact congrArg _ (if_pos ⟨ha, hne hbyte⟩)

/-- Settles O18: the power-down filter comes before every other, for a decoded frame and for one that is not. -/
theorem sleepingDeviceFaults : Obligations.SleepingDeviceFaults := by
  intro s ha
  refine ⟨fun i op a out n hi hop => ⟨_, exec_asleep hi ha hop, raise_logFrame s _ a out _ rfl⟩, fun f hopc => ?_⟩
  obtain ⟨a, out, hstep⟩ := frameStep_asleep ha hopc
  obtain ⟨hrecord, hmark, -, -, hrest⟩ := raise_logFrame s f.opc a out (.deviceAsleep f.opc) rfl
  exact ⟨_, hstep, hrecord, hmark, hrest⟩

/-- The commands that the block never emits have no check of their own (R150). -/
theorem emitted_of_ill_formed {i : Instr} {op : WireOp} {a : Option Addr} {out : List Byte} {n c : Nat}
    (hi : frameFields i = some (op, a, out, n)) (hwf : i.wellFormed c = false) : emitted op = true := by
  cases i <;> cases hi
  case wrsr | fastRead | rsten | rst => cases hwf
  all_goals rfl

/-- A frame of an emitted command without its format, to a device that looks at the form (R132). -/
theorem frameStep_badFormat {s : State} {f : RawFrame} {op : WireOp} {a : Option Addr} {out : List Byte}
    (ha : s.asleep = false ∨ op = .rpd) (he : emitted op = true) (hop : op.byte s.params.opc = f.opc)
    (h : decodeFrame s.params.opc f = .error (.badFormat op a out f.nin)) :
    State.frameStep f s = .next ((s.logFrame f.opc a out []).raise (.badFrame f.opc a out.length f.nin)) := by
  have hfilter : ¬(s.asleep = true ∧ op ≠ .rpd) := fun ⟨hasleep, hne⟩ =>
    ha.elim (fun hawake => nomatch hawake.symm.trans hasleep) hne
  have hemitted : ¬emitted op = false := by simp [he]
  rw [frameStep_of_error h, ← hop]
  exact congrArg _ ((if_neg hfilter).trans (if_neg hemitted))

/-- Settles O19: the form check is the first filter that stops such a frame, whether its operands fail or its format. -/
theorem illFormedFrameFaults : Obligations.IllFormedFrameFaults := by
  intro s op ha
  refine ⟨fun i a out n hi hwf => ?_, fun f hbyte he hnone => ?_⟩
  · have hexec := (exec_frame hi s).trans (congrArg _ (xfer_badForm ha (emitted_of_ill_formed hi hwf) hwf))
    exact ⟨_, hexec, raise_logFrame s _ a out _ rfl⟩
  · obtain ⟨a, out, hbad, hcarried⟩ := badFormatOf_eq op f.rest f.nin
    have hdec : decodeFrame s.params.opc f = .error (.badFormat op a out f.nin) := by
      simp only [decodeFrame, hbyte, hnone, hbad]
    exact ⟨_, a, out, frameStep_badFormat ha he (WireOp.byte_of_ofByte? hbyte) hdec, hcarried,
      raise_logFrame s f.opc a out _ rfl⟩

end Sys2Proof.Machine

/-! ### Frames to a BUSY device (40_bus_commands.md R151) -/

namespace Sys2Proof.Machine

/-- The effects that write the device are those of a frame to a device that is not BUSY. -/
theorem FrameEffect.sameDevice_of_busy {op : WireOp} {addr : Option Addr} {out : List Byte} {s t : State}
    (h : FrameEffect op addr out s t) (hb : s.busy = true) : s.SameDevice t := by
  cases h with
  | fault | refused | answered => exact ⟨rfl, rfl, rfl, rfl, rfl⟩
  | enabled _ _ hidle | started _ _ _ hidle | slept _ _ hidle | woke _ hidle => exact nomatch hidle.symm.trans hb

@[simp] theorem State.drawBytes_length (s : State) (n : Nat) : (s.drawBytes n).length = n := by
  simp [State.drawBytes]

/-- Each byte drawn is a draw of its own (00_scope.md R15). -/
theorem State.drawBytes_getElem? (s : State) {n j : Nat} (h : j < n) :
    (s.drawBytes n)[j]? = some (Config.draw (s.draws + j)) := by
  simp [State.drawBytes, h]

/-- Settles O20: no effect of a frame to a BUSY device writes the device, and a well-formed frame gets as far as the
busy filter. -/
theorem busyDeviceIgnoresFrames : Obligations.BusyDeviceIgnoresFrames := by
  intro s i op a out n ha hb hi hop
  constructor
  · obtain ⟨t, ht, heffect⟩ := exec_frame_effect hi s
    exact ⟨t, ht, heffect.sameDevice_of_busy hb⟩
  · intro he hwf
    exact ⟨s.drawBytes n, exec_ignored hi ha he hwf hb hop, s.drawBytes_length n, fun _ => s.drawBytes_getElem?⟩

end Sys2Proof.Machine

/-! ### What a completion stores (40_bus_commands.md R147, R148) -/

namespace Sys2Proof.Machine

/-- Settles O23: the program law at the two kinds of address. -/
theorem programStoresAnd : Obligations.ProgramStoresAnd := by
  intro s a d hm hpending
  have hread (x : Nat) : s.complete.mem.read x =
      if a.toNat ≤ x ∧ x < a.toNat + d.length then s.mem.read x &&& d.getD (x - a.toNat) Config.erased
      else s.mem.read x := by
    rw [State.complete_mem, hpending]
    exact Memory.read_program hm a.toNat d x
  refine ⟨fun j hj => ?_, fun x hx => ?_⟩
  · rw [hread, if_pos (by omega), Nat.add_sub_cancel_left, List.getD_eq_getElem d Config.erased hj]
  · rw [hread, if_neg (by omega)]

/-- Settles O24: the three erases are the erase law on three ranges. -/
theorem eraseSetsAllOnes : Obligations.EraseSetsAllOnes := by
  intro s b base size hunit x
  have herase : s.complete.mem = s.mem.eraseRange base size := by
    rw [State.complete_mem]
    rcases hunit with ⟨hpending, rfl, rfl⟩ | ⟨hpending, rfl, rfl⟩ | ⟨hpending, rfl, rfl⟩ <;> rw [hpending] <;> rfl
  rw [herase]
  exact Memory.read_eraseRange s.mem base size x

end Sys2Proof.Machine

/-! ### The completion step is weakly fair (40_bus_commands.md R149) -/

namespace Sys2Proof.Machine

/-- The turns that a BUSY device can still let pass: those of the schedule, then those of its delay (log 21). -/
def State.turnsLeft (s : State) : Nat := s.schedule.length + s.delay

/-- The operation in progress in `s`, and what its effect depends on, is that of `t`, and the device has not completed
between the two. -/
structure State.SameOperation (s t : State) : Prop where
  params : t.params = s.params
  mem : t.mem = s.mem
  busy : t.busy = s.busy
  pending : t.pending = s.pending
  completions : countCompletions t.trace = countCompletions s.trace

/-- The operation of `s` is still in progress in `t`, and no turn has been taken. -/
structure State.Waits (s t : State) : Prop extends s.SameOperation t where
  turnsLeft : t.turnsLeft = s.turnsLeft

/-- From `s` to `u` the pending operation has taken its effect, once. -/
structure State.CompletedOnce (s u : State) : Prop where
  not_busy : u.busy = false
  not_enabled : u.wel = false
  no_pending : u.pending = .none
  effect : u.mem = s.pending.apply s.params s.mem
  completions : countCompletions u.trace = countCompletions s.trace + 1

theorem countCompletions_frame (l : List TraceEntry) (opc : Byte) (a : Option Addr) (out inn : List Byte) :
    countCompletions (l ++ [.frame opc a out inn]) = countCompletions l := by
  rw [countCompletions_append]
  rfl

section
variable {s t u : State}

theorem State.SameOperation.trans (h : s.SameOperation t) (k : t.SameOperation u) : s.SameOperation u :=
  ⟨k.params.trans h.params, k.mem.trans h.mem, k.busy.trans h.busy, k.pending.trans h.pending,
    k.completions.trans h.completions⟩

theorem State.Waits.trans (h : s.Waits t) (k : t.Waits u) : s.Waits u :=
  ⟨h.toSameOperation.trans k.toSameOperation, k.turnsLeft.trans h.turnsLeft⟩

/-- Moving to a line of the pseudocode changes only the position. -/
theorem State.Waits.atLine (s : State) (rest : List Micro) : s.Waits { s with cont := rest } :=
  ⟨⟨rfl, rfl, rfl, rfl, rfl⟩, rfl⟩

theorem State.SameOperation.afterTurn (s : State) : s.SameOperation s.afterTurn := by
  constructor <;> simp

theorem State.CompletedOnce.complete (s : State) : s.CompletedOnce s.complete :=
  ⟨rfl, rfl, rfl, rfl, countCompletions_append _ _⟩

theorem State.SameOperation.completedOnce (h : s.SameOperation t) (k : t.CompletedOnce u) : s.CompletedOnce u where
  not_busy := k.not_busy
  not_enabled := k.not_enabled
  no_pending := k.no_pending
  effect := by rw [k.effect, h.pending, h.params, h.mem]
  completions := by rw [k.completions, h.completions]

/-- A frame to a BUSY device leaves its operation and the turns left alone. -/
theorem FrameEffect.waits {op : WireOp} {addr : Option Addr} {out : List Byte} (h : FrameEffect op addr out s t)
    (hb : s.busy = true) : s.Waits t := by
  obtain ⟨hparams, -, inn, htrace⟩ := h.keeps
  obtain ⟨hmem, hbusy, -, -, hpending⟩ := h.sameDevice_of_busy hb
  refine ⟨⟨hparams, hmem, hbusy, hpending, by rw [htrace, countCompletions_frame]⟩, ?_⟩
  cases h <;> rfl

theorem xferUndecoded_waits (e : DecodeError) (s : State) : s.Waits (s.xferUndecoded e) := by
  rcases xferUndecoded_cases e s with ⟨w, -, he⟩ | ⟨opc, a, out, ⟨f, he⟩ | he⟩ <;> rw [he]
  · exact ⟨⟨rfl, rfl, rfl, rfl, rfl⟩, rfl⟩
  · exact ⟨⟨rfl, rfl, rfl, rfl, countCompletions_frame _ _ _ _ _⟩, rfl⟩
  · exact ⟨⟨rfl, rfl, rfl, rfl, countCompletions_frame _ _ _ _ _⟩, rfl⟩

/-- No internal line takes a turn. -/
theorem internal_turnsLeft (m : Micro) (rest : List Micro) (s : State) :
    (s.internal m rest).turnsLeft = s.turnsLeft := by
  cases m with
  | pollTest => simp only [State.internal, State.pollTest]; split_ifs <;> rfl
  | scan => simp only [State.internal, State.scan]; split <;> rfl
  | _ => rfl

theorem internal_waits (m : Micro) (rest : List Micro) (s : State) : s.Waits (s.internal m rest) := by
  obtain ⟨hparams, -, hmem, hbusy, -, -, hpending, htrace, -⟩ := internal_effect m rest s _ rfl
  exact ⟨⟨hparams, hmem, hbusy, hpending, by rw [htrace]⟩, internal_turnsLeft m rest s⟩

/-- A step while BUSY is the completion, or it leaves the operation alone and uses no turn but its own. -/
theorem StepCase.completes_or_waits (h : StepCase s t) (hb : s.busy = true) : t = s.complete ∨ s.Waits t := by
  cases h with
  | complete => exact .inl rfl
  | frame k rest op addr out _ hc hf hcont hop heffect =>
    exact .inr ((State.Waits.atLine s rest).trans (heffect.waits hb))
  | garbled k rest e => exact .inr ((State.Waits.atLine s rest).trans (xferUndecoded_waits e _))
  | line m rest => exact .inr (internal_waits m rest s)
  | reentrant | accepted | rejected | unwritten | finish | wait => exact .inr ⟨⟨rfl, rfl, rfl, rfl, rfl⟩, rfl⟩

/-- The completion is enabled, so a BUSY machine does not get stuck (70_reset_and_hazards.md R302). -/
theorem mainMove_ne_stuck (hb : s.busy = true) : s.mainMove ≠ .stuck := by
  cases hc : s.ctlState with
  | idle => cases hq : s.hostQueue <;> simp [State.mainMove, hc, hq, hb]
  | running =>
    cases hf : s.faults with
    | nil => cases hcont : s.cont <;> simp [State.mainMove, hc, hf, hcont]
    | cons f fs => simp [State.mainMove, hc, hf, hb]

theorem moveOf_ne_stuck (hb : s.busy = true) (turn : Turn) : s.moveOf turn ≠ .stuck := by
  cases turn with
  | main => exact mainMove_ne_stuck hb
  | device => simp [State.moveOf, hb]
  | hostNow =>
    cases hq : s.hostQueue with
    | nil => simpa [State.moveOf, hq] using mainMove_ne_stuck hb
    | cons w rest => simp [State.moveOf, hq]

theorem step_next_of_busy (hg : s.params.geometryOk = true) (hb : s.busy = true) : ∃ t, step s = .next t := by
  unfold step
  rw [if_pos hg]
  exact perform_next (moveOf_ne_stuck (by simpa using hb) s.turn) _

/-- With no turn left the turn is the device's, and it completes. -/
theorem step_completes (hg : s.params.geometryOk = true) (hb : s.busy = true) (hleft : s.turnsLeft = 0) :
    step s = .next s.afterTurn.complete := by
  obtain ⟨hlength, hdelay⟩ : s.schedule.length = 0 ∧ s.delay = 0 := Nat.add_eq_zero_iff.mp hleft
  have hturn : s.turn = .device := by
    simp [State.turn, List.eq_nil_of_length_eq_zero hlength, hb, hdelay]
  have hmove : s.afterTurn.moveOf .device = .complete := if_pos (by simpa using hb)
  rw [step, if_pos hg, hturn, hmove]
  rfl

/-- While BUSY, each turn taken is one of those left. -/
theorem turnsLeft_afterTurn (hb : s.busy = true) : s.afterTurn.turnsLeft = s.turnsLeft - 1 := by
  rw [State.turnsLeft, State.turnsLeft, State.afterTurn_schedule, State.afterTurn_delay, List.length_tail]
  cases hs : s.schedule with
  | nil => simp [hb]
  | cons turn later => simp

/-- A step while BUSY completes, or the operation is still in progress with fewer turns left. -/
theorem step_completes_or_waits (hg : s.params.geometryOk = true) (hb : s.busy = true) :
    ∃ t, step s = .next t ∧ (s.CompletedOnce t ∨ s.SameOperation t ∧ t.turnsLeft < s.turnsLeft) := by
  have hturn := State.SameOperation.afterTurn s
  by_cases hleft : s.turnsLeft = 0
  · exact ⟨_, step_completes hg hb hleft, .inl (hturn.completedOnce (.complete _))⟩
  · obtain ⟨t, ht⟩ := step_next_of_busy hg hb
    obtain ⟨-, hcase⟩ := step_cases ht
    refine ⟨t, ht, ?_⟩
    rcases hcase.completes_or_waits (hturn.busy.trans hb) with rfl | hwaits
    · exact .inl (hturn.completedOnce (.complete _))
    · refine .inr ⟨hturn.trans hwaits.toSameOperation, ?_⟩
      rw [hwaits.turnsLeft, turnsLeft_afterTurn hb]
      omega

/-- A BUSY device completes by the step after the last turn that is left. -/
theorem runFor_completes (hg : s.params.geometryOk = true) (hb : s.busy = true) :
    ∃ k u, k ≤ s.turnsLeft + 1 ∧ runFor k s = .next u ∧ s.CompletedOnce u := by
  induction hn : s.turnsLeft using Nat.strong_induction_on generalizing s with
  | _ n ih =>
    obtain ⟨t, hstep, hdone | ⟨hsame, hless⟩⟩ := step_completes_or_waits hg hb
    · exact ⟨1, t, by omega, run_succ hstep rfl, hdone⟩
    · obtain ⟨k, u, hk, hrun, hdone⟩ := ih _ (hn ▸ hless) (by rw [hsame.params, hg]) (hsame.busy.trans hb) rfl
      exact ⟨k + 1, u, by omega, run_succ hstep hrun, hsame.completedOnce hdone⟩

end

/-- Settles O60: every step of a BUSY device completes or uses up a turn of the schedule or of the delay. -/
theorem deviceEventuallyCompletes : Obligations.DeviceEventuallyCompletes := by
  intro s hg hb
  obtain ⟨k, u, hk, hrun, hbusy, hwel, hpending, hmem, hcount⟩ := runFor_completes hg hb
  exact ⟨k, u, hk, hrun, hbusy, hwel, hpending, hmem, hcount⟩

end Sys2Proof.Machine

/-! ### Frames that an idle device honours (40_bus_commands.md R135 to R145) -/

namespace Sys2Proof.Machine

/-- Settles O12: the answer is the array's bytes from the address. -/
theorem readFrameReturnsArray : Obligations.ReadFrameReturnsArray := by
  intro s a n ha hb hn hin
  have hwf : (Instr.wireRead a n).wellFormed s.params.capacity = true := by
    simp only [Instr.wellFormed, hn, hin, decide_true, Bool.and_self]
  exact ⟨s.mem.readBytes a.toNat n, exec_honoured rfl (.inl ha) rfl hwf (.inl hb), Memory.readBytes_length _ _ _,
    fun j hj => by rw [Memory.readBytes_getElem?, if_pos hj]⟩

/-- Settles O13: both frames pass every filter, and each answers its identity bytes. -/
theorem idFramesReturnIdentity : Obligations.IdFramesReturnIdentity := fun _ ha hb =>
  ⟨exec_honoured rfl (.inl ha) rfl rfl (.inl hb), exec_honoured rfl (.inl ha) rfl rfl (.inl hb)⟩

/-- A program or erase frame to an awake device with BUSY = 0 starts its operation exactly when WEL is 1 (R137 to R140;
41_status_wel.md R164). -/
theorem exec_startOp {i : Instr} {op : WireOp} {addr : Option Addr} {out : List Byte} {n : Nat} {p : Pending}
    {s : State} (hi : frameFields i = some (op, addr, out, n)) (he : emitted op = true) (ha : s.asleep = false)
    (hb : s.busy = false) (hwf : i.wellFormed s.params.capacity = true) (hc : commandOf i s = (s.startOp p, [])) :
    exec i s = .next { s with
      busy := s.wel
      pending := if s.wel then p else s.pending
      rx := []
      trace := s.trace ++ [.frame (s.opc op) addr out []] } := by
  rw [exec_honoured hi (.inl ha) he hwf (.inl hb), hc]
  cases hw : s.wel <;> simp [State.startOp, State.logFrame, hw, hb]

/-- Settles O14: the command of `PP` is the start of its program. -/
theorem pageProgramNeedsWel : Obligations.PageProgramNeedsWel := fun _ _ _ ha hb hwf =>
  exec_startOp rfl rfl ha hb hwf rfl

/-- Settles O15: the commands are the starts of the erases, at the base of the unit that holds the address. -/
theorem eraseFramesNeedWel : Obligations.EraseFramesNeedWel := fun _ _ ha hb hin =>
  ⟨exec_startOp rfl rfl ha hb (decide_eq_true hin) rfl, exec_startOp rfl rfl ha hb (decide_eq_true hin) rfl,
    exec_startOp rfl rfl ha hb rfl rfl⟩

/-- Settles O16: `RPD` is the command that the power-down filter lets through, so it is honoured asleep or not. -/
theorem powerFramesSwitchAsleep : Obligations.PowerFramesSwitchAsleep := fun _ hb =>
  ⟨fun ha => exec_honoured rfl (.inl ha) rfl rfl (.inl hb), exec_honoured rfl (.inr rfl) rfl rfl (.inl hb)⟩

end Sys2Proof.Machine

/-! ### The gating discipline (41_status_wel.md R168, R169) -/

namespace Sys2Proof.Machine

/-- A line other than one given from outside sends a program or erase exactly when its command is one. -/
theorem FrameKind.isGated_of_op? {k : FrameKind} {op : WireOp} (h : k.op? = some op) : k.isGated = isGatedOp op := by
  cases k with
  | erase target => cases target <;> cases h <;> rfl
  | raw => cases h
  | _ => cases h; rfl

/-- Only the line of the `WREN` frame sends one. -/
theorem FrameKind.eq_wren_iff_of_op? {k : FrameKind} {op : WireOp} (h : k.op? = some op) : k = .wren ↔ op = .wren := by
  cases k with
  | erase target => cases target <;> cases h <;> simp
  | raw => cases h
  | _ => cases h; simp

/-- A line that gated pseudocode sends has a command, and is a program or erase only after a `WREN`. -/
theorem contGated_xfer {prev : Bool} {k : FrameKind} {rest : List Micro} (h : contGated prev (.xfer k :: rest) = true) :
    (∃ op, k.op? = some op) ∧ (prev || !k.isGated) = true ∧ contGated (decide (k = .wren)) rest = true := by
  cases k with
  | raw => cases h
  | erase target => exact ⟨by cases target <;> exact ⟨_, rfl⟩, Bool.and_eq_true_iff.mp h⟩
  | _ => exact ⟨⟨_, rfl⟩, Bool.and_eq_true_iff.mp h⟩

/-- An internal line is no frame, so what follows it may not lean on an earlier `WREN`. -/
theorem contGated_line {prev : Bool} {m : Micro} {rest : List Micro} (hm : ∀ k, m ≠ .xfer k)
    (h : contGated prev (m :: rest) = true) : contGated false rest = true := by
  cases m with
  | xfer k => exact absurd rfl (hm k)
  | _ => exact h

section
variable {s t : State}

/-- A step that sends no frame keeps the discipline if it leaves the pseudocode or replaces it by gated pseudocode. -/
theorem State.GatingInv.of_same_trace (h : s.GatingInv) (hp : t.params = s.params) (ht : t.trace = s.trace)
    (hc : t.cont = s.cont ∨ contGated false t.cont = true) : t.GatingInv := by
  refine ⟨by rw [hp, h.opcodes], by rw [hp, ht, h.trace], ?_⟩
  rcases hc with hc | hc
  · rw [hp, ht, hc, h.cont]
  · exact contGated_mono _ _ hc

/-- The completion entry is no frame. -/
theorem State.GatingInv.complete (h : s.GatingInv) : s.complete.GatingInv where
  opcodes := h.opcodes
  trace := by simp [traceGated_append, traceGated, h.trace]
  cont := by simp [lastFrameWren_append, lastFrameWren, h.cont]

/-- The frame of a line of gated pseudocode, by its command. -/
theorem State.GatingInv.frame (h : s.GatingInv) {k : FrameKind} {rest : List Micro} {op : WireOp} {addr : Option Addr}
    {out inn : List Byte} (hcont : s.cont = .xfer k :: rest) (hop : ∀ o, k.op? = some o → op = o)
    (hp : t.params = s.params) (ht : t.trace = s.trace ++ [.frame (s.opc op) addr out inn]) (hc : t.cont = rest) :
    t.GatingInv := by
  obtain ⟨⟨o, ho⟩, hgated, hrest⟩ := contGated_xfer (hcont ▸ h.cont)
  obtain rfl := hop o ho
  have hwren : (TraceEntry.frame (s.opc op) addr out inn).isWren s.params.opc = decide (k = .wren) :=
    decide_eq_decide.mpr ((WireOp.byte_eq_iff h.opcodes).trans (FrameKind.eq_wren_iff_of_op? ho).symm)
  have hentry : (TraceEntry.frame (s.opc op) addr out inn).isGated s.params.opc = k.isGated := by
    rw [TraceEntry.isGated, WireOp.ofByte?_byte h.opcodes, FrameKind.isGated_of_op? ho, Option.any_some]
  refine ⟨by rw [hp, h.opcodes], ?_, ?_⟩
  · rw [hp, ht, traceGated_append, h.trace, Bool.true_and, traceGated, hentry, hgated]
    rfl
  · rw [hp, ht, hc, lastFrameWren_append, lastFrameWren, hwren]
    exact hrest

/-- Each case of a step keeps the discipline. -/
theorem StepCase.gatingInv (h : s.GatingInv) (hs : StepCase s t) : t.GatingInv := by
  cases hs with
  | complete => exact h.complete
  | reentrant => exact h.of_same_trace rfl rfl (.inl rfl)
  | accepted w rest r op => exact h.of_same_trace rfl rfl (.inr (contGated_codeOf op))
  | rejected w rest r code f hq hc hcode =>
    refine h.of_same_trace rfl rfl (.inr ?_)
    rcases hcode with rfl | ⟨op, rfl⟩
    · rfl
    · exact contGated_codeOf op
  | frame k rest op addr out _ hc hf hcont hop heff =>
    obtain ⟨-, -, -, -, hcontrol, htrace⟩ := heff.leaves
    exact h.frame hcont (hop h.opcodes) hcontrol.params htrace hcontrol.cont
  | garbled k rest e hc hf hcont hraw =>
    obtain ⟨f, rfl⟩ := hraw h.opcodes
    obtain ⟨⟨o, ho⟩, -⟩ := contGated_xfer (hcont ▸ h.cont)
    cases ho
  | unwritten => exact h.of_same_trace rfl rfl (.inl rfl)
  | line m rest hm hc hf hcont =>
    obtain ⟨hp, -, -, -, -, -, -, ht, -⟩ := internal_effect m rest s _ rfl
    exact h.of_same_trace hp ht (.inr (contGated_internal m rest s (contGated_line hm (hcont ▸ h.cont))))
  | finish => exact h.of_same_trace rfl rfl (.inr rfl)
  | wait => exact h

end

/-- Settles O27: the turn taken changes neither the trace nor the position, and each case of the step keeps the
discipline. -/
theorem stepKeepsGatingDiscipline : Obligations.StepKeepsGatingDiscipline := by
  intro s t h hstep
  obtain ⟨-, hcase⟩ := step_cases hstep
  exact hcase.gatingInv (h.of_same_trace (by simp) (by simp) (.inl (by simp)))

end Sys2Proof.Machine

/-! ### WEL and the states of the device (41_status_wel.md R161 to R165) -/

namespace Sys2Proof.Machine

/-- Settles O10: `WREN` passes every filter of an awake device that is not BUSY. -/
theorem wrenSetsWel : Obligations.WrenSetsWel := fun _ ha hb => exec_wren_enabled ha hb

section
variable {s t : State}

/-- No frame clears WEL. -/
theorem FrameEffect.wel_mono {op : WireOp} {addr : Option Addr} {out : List Byte} (h : FrameEffect op addr out s t)
    (hw : s.wel = true) : t.wel = true := by
  cases h with
  | enabled => rfl
  | fault | refused | answered | started | slept | woke => exact hw

theorem xferUndecoded_wel (e : DecodeError) (s : State) : (s.xferUndecoded e).wel = s.wel := by
  rcases xferUndecoded_cases e s with ⟨w, -, he⟩ | ⟨opc, a, out, ⟨f, he⟩ | he⟩ <;> rw [he] <;> rfl

/-- A step is the completion of a BUSY device, or it leaves WEL set. -/
theorem StepCase.complete_or_wel_mono (h : StepCase s t) (hw : s.wel = true) :
    (s.busy = true ∧ t = s.complete) ∨ t.wel = true := by
  cases h with
  | complete hb => exact .inl ⟨hb, rfl⟩
  | frame k rest op addr out _ hc hf hcont hop heff => exact .inr (heff.wel_mono hw)
  | garbled k rest e => exact .inr ((xferUndecoded_wel e _).trans hw)
  | line m rest =>
    obtain ⟨-, -, -, -, hwel, -⟩ := internal_effect m rest s _ rfl
    exact .inr (hwel.trans hw)
  | reentrant | accepted | rejected | unwritten | finish | wait => exact .inr hw

end

/-- Settles O30: the one case of a step that clears WEL is the completion. -/
theorem onlyCompletionClearsWel : Obligations.OnlyCompletionClearsWel := by
  refine ⟨fun _ => ⟨rfl, rfl⟩, fun s t hstep hset hclear => ?_⟩
  obtain ⟨-, hcase⟩ := step_cases hstep
  rcases hcase.complete_or_wel_mono (by simpa using hset) with ⟨hb, rfl⟩ | hkept
  · exact ⟨by simpa using hb, rfl, rfl, by simp⟩
  · exact nomatch hkept.symm.trans hclear

theorem deviceState_congr {s t : State} (hb : t.busy = s.busy) (hw : t.wel = s.wel) :
    deviceState t = deviceState s := by
  rw [deviceState, deviceState, hb, hw]

/-- The program and erase frames are `PP`, `SE`, `BE` and `CE`. -/
theorem isGatedOp_iff {op : WireOp} : isGatedOp op = true ↔ op = .pp ∨ op = .se ∨ op = .be ∨ op = .ce := by
  cases op <;> decide

theorem startOp_busy (p : Pending) {s : State} (hb : s.busy = false) : (s.startOp p).busy = s.wel := by
  cases hw : s.wel <;> simp [State.startOp, hw, hb]

/-- What a frame's command does to BUSY and WEL of a device that is not BUSY: a program or erase makes it BUSY if WEL is
set, `WREN` sets WEL, and no other command writes the two. -/
theorem commandOf_busy_wel {i : Instr} {op : WireOp} {addr : Option Addr} {out : List Byte} {n : Nat} {s : State}
    (hi : frameFields i = some (op, addr, out, n)) (hb : s.busy = false) :
    (commandOf i s).1.busy = (isGatedOp op && s.wel) ∧ (commandOf i s).1.wel = (decide (op = .wren) || s.wel) := by
  cases i <;> cases hi
  case pp | se | be | ce => exact ⟨startOp_busy _ hb, State.startOp_wel _ s⟩
  all_goals exact ⟨hb, rfl⟩

/-- Settles O22: a BUSY device ignores the frame, and one that is not BUSY does what the command does to BUSY and
WEL. -/
theorem deviceTransitionTable : Obligations.DeviceTransitionTable := by
  intro s ha
  refine ⟨fun i op a out n hi he hwf => ?_, fun _ => rfl⟩
  cases hb : s.busy with
  | true =>
    obtain ⟨t, ht, heff⟩ := exec_frame_effect hi s
    have hsame := heff.sameDevice_of_busy hb
    have hbusy : deviceState s = .busy := if_pos hb
    exact ⟨t, ht, by rw [deviceState_congr hsame.busy hsame.wel, hbusy]⟩
  | false =>
    obtain ⟨hbusy, hwel⟩ := commandOf_busy_wel hi hb
    refine ⟨_, exec_honoured hi (.inl ha) he hwf (.inl hb), ?_⟩
    rw [deviceState, State.logFrame_busy, State.logFrame_wel, hbusy, hwel]
    cases hw : s.wel with
    | false => simp [deviceState, hb, hw]
    | true => simp [deviceState, hb, hw, isGatedOp_iff]

end Sys2Proof.Machine

/-! ### The busy-poll at its limit (41_status_wel.md R166, R167) -/

namespace Sys2Proof.Machine

theorem pollExhausted_iff {p : Params} {n : Nat} :
    pollExhausted p n = true ↔ ∃ limit, p.pollLimit = some limit ∧ limit ≤ n := by
  cases hl : p.pollLimit <;> simp [pollExhausted, hl]

/-- Settles O57: the three outcomes of the test are the laws of `pollTest`. -/
theorem pollTestFollowsBusyBit : Obligations.PollTestFollowsBusyBit := by
  intro s rest b hrx
  have hbyte : s.rxByte 0 = b := by rw [State.rxByte, hrx]; rfl
  refine ⟨fun hclear => ?_, fun hset => ?_⟩
  · rw [pollTest_done (hbyte.symm ▸ hclear)]
    exact ⟨rfl, rfl⟩
  · have hbit : busyBit s.params (s.rxByte 0) = true := hbyte.symm ▸ hset
    cases hex : pollExhausted s.params (s.pollCount + 1) with
    | true => exact ⟨by rw [pollTest_timeout hbit hex],
        by rw [pollTest_timeout hbit hex, if_pos (pollExhausted_iff.mp hex)]⟩
    | false => exact ⟨by rw [pollTest_again hbit hex],
        by rw [pollTest_again hbit hex, if_neg fun h => nomatch hex.symm.trans (pollExhausted_iff.mpr h)]⟩

theorem Reach.run_replicate {s u : State} {n : Nat} (h : Reach s (List.replicate n .main) u) :
    runFor n { s with schedule := List.replicate n .main } = .next { u with schedule := [] } := by
  simpa using h.run

/-- What a busy-poll that reaches its limit leaves: `TIMEOUT`, the device as it was in `s`, and `limit` status reads
more in the trace. -/
structure State.TimedOut (s : State) (limit : Nat) (u : State) : Prop where
  idle : u.ctlState = .idle
  response : u.response = some ⟨.timeout, 0, []⟩
  no_fault : u.faults = []
  device : s.SameDevice u
  reads : countFrames s.params.opc .rdsr u.trace = countFrames s.params.opc .rdsr s.trace + limit

/-- `s` at the return of a busy-poll that gives up at its next read. -/
def State.gaveUp (s : State) : State :=
  { s.polled [.ret .timeout .zero false] with pollCount := s.pollCount + 1 }

/-- The last read of a busy-poll, its test, and the return. -/
theorem Reach.pollGivesUp {s : State} {rest : List Micro} (h : s.Live) (hb : s.busy = true)
    (hc : s.cont = .xfer .rdsr :: .pollTest :: rest) (hlimit : pollExhausted s.params (s.pollCount + 1) = true) :
    Reach s [.main, .main, .main] (s.gaveUp.respond ⟨.timeout, 0, []⟩) := by
  have hread : Reach s [.main] (s.polled (.pollTest :: rest)) := .poll h hc
  have htest : Reach (s.polled (.pollTest :: rest)) [.main] s.gaveUp := by
    have hgaveUp : (s.polled (.pollTest :: rest)).internal .pollTest rest = s.gaveUp :=
      pollTest_timeout ((busyBit_polled h _).trans hb) hlimit
    rw [← hgaveUp]
    exact .line (s := s.polled (.pollTest :: rest)) ⟨h.geometry, h.2, h.3⟩ rfl (by simp)
  have hret : Reach s.gaveUp [.main] (s.gaveUp.respond ⟨.timeout, 0, []⟩) :=
    .line (s := s.gaveUp) (m := .ret .timeout .zero false) ⟨h.geometry, h.2, h.3⟩ rfl (by simp)
  exact (hread.trans htest).trans hret

/-- The turns of a busy-poll that sees BUSY `n + 1` times: its start, two for each read, and the return. -/
theorem pollLimit_turns (n : Nat) :
    [.main] ++ (List.replicate n [.main, .main]).flatten ++ [.main, .main, .main] =
      List.replicate (2 * (n + 1) + 2) Turn.main := by
  rw [flatten_main_pairs]
  show List.replicate 1 _ ++ _ ++ List.replicate 3 _ = _
  rw [List.replicate_append_replicate, List.replicate_append_replicate]
  congr 1
  omega

/-- A busy-poll whose reads all see BUSY ends the operation at the limit, whatever pseudocode follows the poll. -/
theorem Reach.pollTimesOut {s : State} {rest : List Micro} {limit : Nat} (h : s.Live) (hb : s.busy = true)
    (hlim : s.params.pollLimit = some limit) (hc : s.cont = busyPoll ++ rest) :
    ∃ u, Reach s (List.replicate (2 * limit + 2) .main) u ∧ s.TimedOut limit u := by
  obtain ⟨n, rfl⟩ : ∃ n, limit = n + 1 :=
    Nat.exists_eq_succ_of_ne_zero fun h0 => Params.wf_limit h.params (h0 ▸ hlim)
  let first : State := { s with pollCount := 0, cont := .xfer .rdsr :: .pollTest :: rest }
  have start : Reach s [.main] first := .line h.enabled hc (by simp)
  obtain ⟨b, again, hcount, reads, htrace, hlen, hreads⟩ := Reach.pollWaits n (s := first) ⟨h.1, h.2, h.3, h.4⟩ hb rfl
    fun l hl => by
      obtain rfl : n + 1 = l := Option.some.inj (hlim.symm.trans hl)
      show 0 + n < n + 1
      omega
  let last : State := first.onward first.cont b
  have hcount' : last.pollCount = n := hcount.trans (Nat.zero_add n)
  have giveUp := Reach.pollGivesUp (s := last) ⟨h.1, h.2, h.3, h.4⟩ hb rfl
    (pollExhausted_iff.mpr ⟨_, hlim, by rw [hcount']⟩)
  refine ⟨last.gaveUp.respond ⟨.timeout, 0, []⟩, ?_, rfl, rfl, h.3, ⟨rfl, rfl, rfl, rfl, rfl⟩, ?_⟩
  · rw [← pollLimit_turns]
    exact (start.trans again).trans giveUp
  · show countFrames s.params.opc .rdsr (b.trace ++ [.frame (s.opc .rdsr) none [] [_]]) = _
    rw [htrace, countFrames_append, countFrames_append, (count_reads h.opcodes reads hreads).1,
      countFrames_frame h.opcodes, if_pos rfl, hlen, Nat.add_assoc]

/-- `s` at the position `rest` after a `WREN` and the frame `op`, which the device took as the operation `p`. -/
def State.operating (s : State) (op : WireOp) (addr : Option Addr) (p : Pending) (rest : List Micro) : State :=
  { s with
    wel := true
    busy := true
    pending := p
    rx := []
    trace := s.trace ++ [.frame (s.opc .wren) none [] []] ++ [.frame (s.opc op) addr [] []]
    cont := rest }

/-- Neither of the two frames is a status read. -/
theorem State.operating_reads {s : State} (hd : s.params.opc.distinct = true) {op : WireOp} (hop : isGatedOp op = true)
    (addr : Option Addr) (p : Pending) (rest : List Micro) :
    countFrames s.params.opc .rdsr (s.operating op addr p rest).trace = countFrames s.params.opc .rdsr s.trace := by
  have hne : op ≠ .rdsr := by rintro rfl; cases hop
  show countFrames _ _ (s.trace ++ [_] ++ [_]) = _
  rw [countFrames_append, countFrames_append, countFrames_frame hd, countFrames_frame hd, if_neg hne, if_neg nofun]
  rfl

/-- The two frames of a gated erase. -/
theorem SendsErase.operates {t : State} {base size : Nat} {k : FrameKind} {f : RawFrame} {i : Instr} {op : WireOp}
    {addr : Option Addr} {p : Pending} (h : SendsErase t base size k f i op addr p) (hl : t.Live)
    (hb : t.busy = false) :
    Reach t [.main, .main] (t.operating op addr p (busyPoll ++ [.ret .ok .zero false])) := by
  have enabled := Reach.frame (k := .wren) hl.enabled h.cont rfl (decode_wren hl.opcodes)
    (exec_wren_enabled (s := { t with cont := afterWren k }) hl.awake hb)
  have hframe := (frameOf_onward t k (afterWren k) ⟨[], t.pollCount, t.draws, t.delay,
    t.trace ++ [.frame (t.opc .wren) none [] []]⟩ true).trans h.frame
  exact enabled.trans (.frame ⟨hl.geometry, hl.2, hl.3⟩ rfl hframe h.decodes
    (exec_started h.fields h.gatedOp hl.awake hb rfl h.wellFormed (h.command _)))

/-- The request `i` passes its range check, and `p` is the erase of the unit that holds its operand. -/
def ErasePending (s : State) (x : HostArgs) (i : Instr) (p : Pending) : Prop :=
  i = .eraseSector x ∧ x.addr.toNat < s.params.capacity ∧
      p = .eraseSector (BitVec.ofNat 24 (x.addr.toNat - x.addr.toNat % 4096)) ∨
    i = .eraseBlock x ∧ x.addr.toNat < s.params.capacity ∧
      p = .eraseBlock (BitVec.ofNat 24 (x.addr.toNat - x.addr.toNat % 65536)) ∨
    i = .eraseChip x ∧ p = .eraseChip

/-- The base of a unit is its own base. -/
theorem unitBase_aligned {a : Nat} (h : a < 2 ^ 24) (g : Nat) :
    unitBase (toAddr (alignDown a g)) g = toAddr (alignDown a g) := by
  rw [unitBase, toAddr_toNat ((alignDown_le a g).trans_lt h)]
  show toAddr (alignDown a g - alignDown a g % g) = _
  rw [alignDown_mod, Nat.sub_zero]

/-- A request that passes the checks of acceptance is latched with the pseudocode of its operation. -/
theorem exec_request_passes {i : Instr} {op : HostOp} {x : HostArgs} {s : State} (hf : requestFields i = some (op, x))
    (hi : s.ctlState = .idle) (hl : lengthFault op x = none) (hr : rangeFault s.params op x = none) :
    exec i s = .next (s.latch ⟨op.code, x.addr, x.len, x.data⟩ (codeOf op)) := by
  rw [exec_request hf, accept_passes hi hl hr]

/-- An erase in range is accepted by an idle controller, and its pseudocode sends the frame that starts `p`. -/
theorem ErasePending.accepted {s : State} {x : HostArgs} {i : Instr} {p : Pending} (h : ErasePending s x i p)
    (hp : s.params.wf = true) (hi : s.ctlState = .idle) :
    ∃ r code, exec i s = .next (s.latch r code) ∧
      ∃ base size k f j op addr, SendsErase (s.latch r code) base size k f j op addr p := by
  have hcap := (Params.wf_capacity hp).2
  have ht := Params.wf_opcodes hp
  have command {a : Nat} (ha : a < s.params.capacity) (g : Nat) (start : Addr → Pending) (u : State) :
      (u.startOp (start (unitBase (toAddr (alignDown a g)) g)), ([] : List Byte)) =
        (u.startOp (start (toAddr (alignDown a g))), []) := by
    rw [unitBase_aligned (ha.trans_le hcap)]
  rcases h with ⟨rfl, hin, rfl⟩ | ⟨rfl, hin, rfl⟩ | ⟨rfl, rfl⟩
  · have accepted := exec_request_passes (i := .eraseSector x) (op := .eraseSector) (s := s) rfl hi rfl
      (if_pos (decide_eq_true hin))
    exact ⟨_, _, accepted, _, _, _, _, _, _, _, {
      cont := rfl, frame := rfl, decodes := decode_se ht _, fields := rfl, gatedOp := rfl
      wellFormed := decide_eq_true (toAddr_alignDown_lt hin hcap Config.sector)
      command := command hin Config.sector .eraseSector
      effect := fun m => Memory.read_eraseRange m _ _ }⟩
  · have accepted := exec_request_passes (i := .eraseBlock x) (op := .eraseBlock) (s := s) rfl hi rfl
      (if_pos (decide_eq_true hin))
    exact ⟨_, _, accepted, _, _, _, _, _, _, _, {
      cont := rfl, frame := rfl, decodes := decode_be ht _, fields := rfl, gatedOp := rfl
      wellFormed := decide_eq_true (toAddr_alignDown_lt hin hcap Config.block)
      command := command hin Config.block .eraseBlock
      effect := fun m => Memory.read_eraseRange m _ _ }⟩
  · have accepted := exec_request_passes (i := .eraseChip x) (op := .eraseChip) (s := s) rfl hi rfl rfl
    exact ⟨_, _, accepted, _, _, _, _, _, _, _, {
      cont := rfl, frame := rfl, decodes := decode_ce ht, fields := rfl, gatedOp := rfl, wellFormed := rfl
      command := fun _ => rfl
      effect := fun m => Memory.read_eraseRange m 0 s.params.capacity }⟩

/-- An erase of an idle device is started, and its busy-poll ends the operation at the limit. -/
theorem SendsErase.timesOut {t : State} {base size limit : Nat} {k : FrameKind} {f : RawFrame} {i : Instr}
    {op : WireOp} {addr : Option Addr} {p : Pending} (h : SendsErase t base size k f i op addr p) (hl : t.Live)
    (hb : t.busy = false) (hlim : t.params.pollLimit = some limit) :
    ∃ u, Reach t (List.replicate (2 * limit + 4) .main) u ∧
      (t.operating op addr p (busyPoll ++ [.ret .ok .zero false])).TimedOut limit u := by
  obtain ⟨u, hreach, hu⟩ := Reach.pollTimesOut (s := t.operating op addr p (busyPoll ++ [.ret .ok .zero false]))
    ⟨hl.1, hl.2, hl.3, hl.4⟩ rfl hlim rfl
  exact ⟨u, (h.operates hl hb).trans hreach, hu⟩

/-- Settles O42: the erase is started with two frames, and its busy-poll, as any other, gives up at the limit. -/
theorem pollLimitTimesOut : Obligations.PollLimitTimesOut := by
  refine ⟨fun s x limit hp hc hlim i p hi => ?_, fun s rest limit hp hrun hf ha hb hlim hcont => ?_⟩
  · obtain ⟨r, code, hexec, base, size, k, f, j, op, addr, hsends⟩ := ErasePending.accepted (s := s) hi hp hc.idle
    obtain ⟨u, hreach, hu⟩ := hsends.timesOut (latch_live hp hc r code) hc.not_busy hlim
    refine ⟨_, _, hexec, hreach.run_replicate, hu.idle, hu.response, hu.no_fault, hu.device.busy, hu.device.wel,
      hu.device.pending, hu.device.mem, hu.reads.trans (congrArg (· + limit) ?_)⟩
    exact State.operating_reads (s := s.latch r code) (Params.wf_opcodes hp) hsends.gatedOp addr p _
  · obtain ⟨u, hreach, hu⟩ := Reach.pollTimesOut ⟨hp, hrun, hf, ha⟩ hb hlim hcont
    exact ⟨_, hreach.run_replicate, hu.idle, hu.response, hu.no_fault, ⟨hu.device.mem, hu.device.busy, hu.device.wel,
      hu.device.asleep, hu.device.pending⟩, hu.reads⟩

end Sys2Proof.Machine

/-! ### An erase from acceptance to response (42_erase.md R183, R185, R187, R189) -/

namespace Sys2Proof.Machine

/-- An idle controller that accepts a request holds the pseudocode of its operation. -/
theorem exec_request_cont {i : Instr} {op : HostOp} {x : HostArgs} {s t : State} (hf : requestFields i = some (op, x))
    (hi : s.ctlState = .idle) (ht : exec i s = .next t) : t.cont = codeOf op := by
  rw [exec_request hf] at ht
  cases ht
  rcases accept_cases op x (codeOf op) s with ⟨hc, -⟩ | ⟨-, ⟨f, he⟩ | he⟩
  · cases hi.symm.trans hc
  · rw [he]; rfl
  · rw [he]; rfl

/-- The request `i` passes its range check and erases the `size` bytes from `base` with the frame `op`. -/
def ErasesUnitBy (s : State) (x : HostArgs) (i : Instr) (op : WireOp) (base size : Nat) : Prop :=
  i = .eraseSector x ∧ x.addr.toNat < s.params.capacity ∧ op = .se ∧
      base = x.addr.toNat - x.addr.toNat % 4096 ∧ size = 4096 ∨
    i = .eraseBlock x ∧ x.addr.toNat < s.params.capacity ∧ op = .be ∧
      base = x.addr.toNat - x.addr.toNat % 65536 ∧ size = 65536 ∨
    i = .eraseChip x ∧ op = .ce ∧ base = 0 ∧ size = s.params.capacity

section
variable {s : State} {x : HostArgs} {i : Instr} {op : WireOp} {base size : Nat}

theorem ErasesUnitBy.erasesUnit (h : ErasesUnitBy s x i op base size) : ErasesUnit s x i base size := by
  rcases h with ⟨hi, hin, -, hunit⟩ | ⟨hi, hin, -, hunit⟩ | ⟨hi, -, hunit⟩
  · exact .inl ⟨hi, hin, hunit⟩
  · exact .inr (.inl ⟨hi, hin, hunit⟩)
  · exact .inr (.inr ⟨hi, hunit⟩)

/-- The pseudocode of the request is a gated erase whose line sends `op`. -/
theorem ErasesUnitBy.code (h : ErasesUnitBy s x i op base size) :
    ∃ hostOp target, requestFields i = some (hostOp, x) ∧
      codeOf hostOp = gated (.erase target) ++ [.ret .ok .zero false] ∧ (FrameKind.erase target).op? = some op := by
  rcases h with ⟨rfl, -, rfl, -⟩ | ⟨rfl, -, rfl, -⟩ | ⟨rfl, rfl, -⟩
  · exact ⟨.eraseSector, .reqSector, rfl, rfl, rfl⟩
  · exact ⟨.eraseBlock, .reqBlock, rfl, rfl, rfl⟩
  · exact ⟨.eraseChip, .chip, rfl, rfl, rfl⟩

/-- The frame of a gated erase is that of its line. -/
theorem SendsErase.op_eq {t : State} {k : FrameKind} {f : RawFrame} {j : Instr} {o : WireOp} {addr : Option Addr}
    {p : Pending} (h : SendsErase t base size k f j o addr p) (hd : t.params.opc.distinct = true) {target : EraseTarget}
    (hc : t.cont = gated (.erase target) ++ [.ret .ok .zero false]) (hop : (FrameKind.erase target).op? = some op) :
    o = op := by
  obtain rfl : k = .erase target := by simpa [gated] using h.cont.symm.trans hc
  obtain ⟨j', o', a', out, n, hj, hfields, ho⟩ := frameOf_decodes hd h.frame (by simp)
  obtain rfl : j = j' := Except.ok.inj (h.decodes.symm.trans hj)
  cases h.fields.symm.trans hfields
  exact Option.some.inj (ho.symm.trans hop)

/-- An erase in range is accepted by an idle controller, and its pseudocode sends `op`, the erase of its unit. -/
theorem ErasesUnitBy.accepted (h : ErasesUnitBy s x i op base size) (hp : s.params.wf = true)
    (hi : s.ctlState = .idle) :
    ∃ r code, exec i s = .next (s.latch r code) ∧
      ∃ k f j addr p, SendsErase (s.latch r code) base size k f j op addr p := by
  obtain ⟨r, code, hexec, k, f, j, o, addr, p, hsends⟩ := h.erasesUnit.accepted hp hi
  obtain ⟨hostOp, target, hfields, hcode, hop⟩ := h.code
  obtain rfl : o = op :=
    hsends.op_eq (Params.wf_opcodes hp) ((exec_request_cont hfields hi hexec).trans hcode) hop
  exact ⟨r, code, hexec, k, f, j, addr, p, hsends⟩

end

/-! #### The trace of an erase -/

/-- What an erase adds to the trace: `WREN`, the frame `op`, the reads that see BUSY, the completion, and the read that
sees the end (R189). -/
def eraseTrace (t : Opcodes) (op : WireOp) (addr : Option Addr) (reads : List TraceEntry) (v : Byte) :
    List TraceEntry :=
  [.frame (WireOp.wren.byte t) none [] [], .frame (op.byte t) addr [] []] ++
    (reads ++ [.complete, .frame (WireOp.rdsr.byte t) none [] [v]])

section
variable {t : Opcodes} {op : WireOp} {reads : List TraceEntry}

theorem eraseTrace_length (addr : Option Addr) (v : Byte) :
    (eraseTrace t op addr reads v).length = reads.length + 4 := by
  simp [eraseTrace]

theorem countFrames_eraseTrace (ht : t.distinct = true) (addr : Option Addr) (v : Byte) (o : WireOp) :
    countFrames t o (eraseTrace t op addr reads v) =
      (if .wren = o then 1 else 0) + (if op = o then 1 else 0) +
        (countFrames t o reads + if .rdsr = o then 1 else 0) := by
  show countFrames t o ([.frame _ none [] []] ++ [.frame _ addr [] []] ++
    (reads ++ ([.complete] ++ [.frame _ none [] [v]]))) = _
  simp only [countFrames_append, countFrames_frame ht]
  rw [show countFrames t o [.complete] = 0 from rfl, Nat.zero_add]

theorem countCompletions_eraseTrace (addr : Option Addr) (v : Byte) :
    countCompletions (eraseTrace t op addr reads v) = countCompletions reads + 1 := by
  rw [eraseTrace, countCompletions_append, countCompletions_append]
  exact Nat.zero_add _

/-- The frame counts of R189. -/
theorem count_eraseTrace (ht : t.distinct = true) (hop : isGatedOp op = true)
    (hreads : ∀ e ∈ reads, ∃ v, e = .frame (WireOp.rdsr.byte t) none [] [v]) (addr : Option Addr) (v : Byte) :
    countFrames t .wren (eraseTrace t op addr reads v) = 1 ∧ countFrames t op (eraseTrace t op addr reads v) = 1 ∧
      countFrames t .rdsr (eraseTrace t op addr reads v) = reads.length + 1 ∧
      countCompletions (eraseTrace t op addr reads v) = 1 := by
  obtain ⟨hrdsr, hother, hcompl⟩ := count_reads ht reads hreads
  have hne_wren : op ≠ .wren := by rintro rfl; cases hop
  have hne_rdsr : op ≠ .rdsr := by rintro rfl; cases hop
  simp [countFrames_eraseTrace ht, countCompletions_eraseTrace, hrdsr, hother, hcompl, hne_wren, hne_wren.symm,
    hne_rdsr, hne_rdsr.symm]

end

theorem State.SameWalk.of_latch {s u : State} {r : Request} {code : List Micro} (h : (s.latch r code).SameWalk u)
    (sch : List Turn) : s.SameWalk { u with schedule := sch } :=
  ⟨h.curAddr, h.remLen, h.bufOff, h.pgOff, h.secBase, h.off, h.chunk, h.needErase⟩

/-- Settles O41: the request is accepted as a gated erase of its unit, the run of that erase under `eraseTurns k` is
`gated_run`, and the entries it adds to the trace are counted. -/
theorem eraseOperationsComplete : Obligations.EraseOperationsComplete := by
  intro s x k hp hc hlimit i op base size hi
  obtain ⟨r, code, hexec, kind, f, j, addr, p, hsends⟩ := ErasesUnitBy.accepted (s := s) hi hp hc.idle
  obtain ⟨u, hreach, -, hidle, hresp, hfaults, hbusy, hwel, hpend, hawake, hwalk, hpolls, hid, hparams, hqueue,
    hrefused, hmem, reads, v, htrace, hlen, hreads⟩ := gated_run k (s.latch r code) kind (latch_live hp hc r code) hc.not_busy
      hsends.cont hsends.frame hsends.decodes hsends.fields hsends.gatedOp hsends.wellFormed hsends.command hlimit
  replace htrace : u.trace = s.trace ++ eraseTrace s.params.opc op addr reads v := htrace
  obtain ⟨hwren, hop, hrdsr, hcompl⟩ := count_eraseTrace (Params.wf_opcodes hp) hsends.gatedOp hreads addr v
  refine ⟨_, _, hexec, hreach.run, hidle, hresp, hfaults, hbusy, hwel, hpend, hawake, hwalk.of_latch [], hpolls, hid,
    hparams, hqueue, hrefused, fun a => ?_, ?_, ?_, ?_, ?_, ?_⟩
  · show u.mem.read a = _
    rw [hmem]
    exact hsends.effect s.mem a
  · rw [htrace, List.length_append, eraseTrace_length, hlen]
  · rw [htrace, countFrames_append, hwren]
  · rw [htrace, countFrames_append, hop]
  · rw [htrace, countFrames_append, hrdsr, hlen]
  · rw [htrace, countCompletions_append, hcompl]

end Sys2Proof.Machine

/-! ### The arithmetic of a chunk and of a page piece (43_read_write.md R201, R203, R215) -/

namespace Sys2Proof.Machine

/-- A piece ends where the program ends or where the page does. -/
theorem pieceLen_end {a n i : Nat} : pieceLen a n i = n - i ∨ (a + i + pieceLen a n i) % 256 = 0 := by
  simp only [pieceLen, Config.page]
  rcases Nat.le_total (n - i) (256 - (a + i) % 256) with h | h
  · exact .inl (Nat.min_eq_left h)
  · rw [Nat.min_eq_right h]
    omega

/-- Settles O56: the bounds of a piece, its page and its end are laws of `pieceLen`. -/
theorem pieceStaysInOnePage : Obligations.PieceStaysInOnePage := by
  intro a n i hi
  have hpos := pieceLen_pos (a := a) hi
  have hpage := pieceLen_page (a := a) (n := n) (i := i)
  have hend := pieceLen_end (a := a) (n := n) (i := i)
  exact ⟨rfl, hpos, by omega, hpage, by omega, by omega⟩

/-- Step 1 of a chunk computes its registers, and each is wide enough (R201). -/
theorem chunkInit_regs {s : State} (h : s.curAddr.toNat < 2 ^ 24) : ChunkRegs s s.chunkInit where
  curAddr := rfl
  remLen := rfl
  bufOff := rfl
  secBase := toAddr_toNat ((alignDown_le _ _).trans_lt h)
  off := by
    show (BitVec.ofNat 12 (s.curAddr.toNat % 4096)).toNat = _
    rw [BitVec.toNat_ofNat]
    omega
  chunk := by
    show (BitVec.ofNat 13 (min s.remLen.toNat (4096 - s.curAddr.toNat % 4096))).toNat = _
    rw [BitVec.toNat_ofNat]
    omega

/-- Settles O53: the registers are those of `chunkInit`, whose bounds are arithmetic. -/
theorem chunkRegistersComputed : Obligations.ChunkRegistersComputed := by
  intro s rest hcur hrem
  obtain ⟨-, -, -, hbase, hoff, hchunk⟩ := chunkInit_regs hcur
  have hbase' : s.chunkInit.secBase.toNat = s.curAddr.toNat / 4096 * 4096 := by omega
  have hpos : 1 ≤ s.chunkInit.chunk.toNat := by omega
  have hle : s.chunkInit.chunk.toNat ≤ 4096 := by omega
  have hfit : s.chunkInit.off.toNat + s.chunkInit.chunk.toNat ≤ 4096 := by omega
  exact ⟨_, rfl, hbase', hoff, hchunk, hpos, hle, hfit, rfl, ⟨rfl, rfl, rfl, rfl, rfl⟩, rfl, rfl, rfl⟩

theorem mem_slice {α : Type} {l : List α} {i n : Nat} {a : α} :
    a ∈ slice l i n ↔ ∃ k, i ≤ k ∧ k < i + n ∧ l[k]? = some a := by
  simp only [List.mem_iff_getElem?, slice_getElem?]
  constructor
  · rintro ⟨j, hj⟩
    split_ifs at hj with hlt
    exact ⟨i + j, by omega, by omega, hj⟩
  · rintro ⟨k, hlo, hhi, hk⟩
    exact ⟨k - i, by rw [if_pos (by omega), Nat.add_sub_cancel' hlo, hk]⟩

/-- Reading scratch bytes that the request has written answers them (10_state.md R36). -/
theorem scratchRead_of_written {s : State} {i n : Nat}
    (h : ∀ k, i ≤ k → k < i + n → ∃ b, s.scratch[k]? = some (some b)) :
    scratchRead s i n = .ok ((slice s.scratch i n).filterMap id) := by
  obtain ⟨hlen, hsome⟩ := slice_written s.scratch i n h
  simp only [scratchRead, takeWhile_isSome_all _ hsome, hlen, if_true]

theorem eraseRequired_iff {l : List Byte} : eraseRequired l = true ↔ ∃ b ∈ l, b ≠ Config.erased := by
  simp [eraseRequired]

/-- Settles O54: the scan reads the chunk's bytes of the buffer and no other, and decides on them. -/
theorem scanDecidesErase : Obligations.ScanDecidesErase := by
  intro s rest hwritten
  let dest := (slice s.scratch s.off.toNat s.chunk.toNat).filterMap id
  have hscan : s.internal .scan rest = { s with needErase := eraseRequired dest, cont := rest } := by
    simp only [State.internal, State.scan, scratchRead_of_written hwritten]
    rfl
  have hdest (b : Byte) : b ∈ dest ↔ ∃ k, s.off.toNat ≤ k ∧ k < s.off.toNat + s.chunk.toNat ∧
      s.scratch[k]? = some (some b) := by
    simp only [dest, List.mem_filterMap, id_eq, exists_eq_right, mem_slice]
  rw [hscan]
  refine ⟨eraseRequired_iff.trans ⟨?_, ?_⟩, rfl, rfl⟩
  · rintro ⟨b, hb, hne⟩
    obtain ⟨k, hlo, hhi, hk⟩ := (hdest b).mp hb
    exact ⟨k, b, hlo, hhi, hk, hne⟩
  · rintro ⟨k, b, hlo, hhi, hk, hne⟩
    exact ⟨b, (hdest b).mpr ⟨k, hlo, hhi, hk⟩, hne⟩

end Sys2Proof.Machine

/-! ### `read`, and the requests without bytes (43_read_write.md R196, R198, R199) -/

namespace Sys2Proof.Machine

/-- `s` at the position `rest`, past the frame of a `read` that the device answered with `d`, for which it made `n`
draws. -/
def State.requestRead (s : State) (n : Nat) (d : List Byte) (rest : List Micro) : State :=
  ({ s with cont := rest }.afterDraws n).logFrame (s.opc .read) (some (toAddr s.req.addr.toNat)) [] d

theorem internal_lenTest_pos {s : State} (h : 1 ≤ s.req.len.toNat) (rest : List Micro) :
    s.internal .lenTest rest = { s with cont := rest } := by
  have hne : s.req.len ≠ 0 := by bv_omega
  simp only [State.internal, if_neg hne]

theorem internal_lenTest_zero {s : State} (h : s.req.len = 0) (rest : List Micro) :
    s.internal .lenTest rest = { s with cont := [.ret .ok .zero false] } := by
  simp only [State.internal, if_pos h]

/-- A `read` of at least one byte is the test of its length, one frame, and the return of the frame's answer (R198). -/
theorem Reach.read {s : State} {d : List Byte} {n : Nat} (h : s.Live) (hc : s.cont = codeOf .read)
    (hlen : 1 ≤ s.req.len.toNat)
    (hframe : ∀ rest, exec (.wireRead (toAddr s.req.addr.toNat) s.req.len.toNat) { s with cont := rest } =
      .next (s.requestRead n d rest)) :
    Reach s [.main, .main, .main] ((s.requestRead n d []).respond ⟨.ok, 0, d⟩) := by
  have tested := Reach.line h.enabled hc (by simp)
  rw [internal_lenTest_pos hlen] at tested
  let asking : State := { s with cont := [.xfer .readRequest, .ret .ok .zero true] }
  have sent := Reach.frame (s := asking) ⟨h.geometry, h.2, h.3⟩ rfl rfl (decode_read h.opcodes _ _)
    (hframe [.ret .ok .zero true])
  have returned := Reach.line (s := s.requestRead n d [.ret .ok .zero true]) ⟨h.geometry, h.2, h.3⟩ rfl (by simp)
  exact (tested.trans sent).trans returned

section
variable {s : State} {x : HostArgs}

/-- A `read` in range passes the checks of acceptance. -/
theorem read_accepted {i : Instr} (hi : requestFields i = some (.read, x)) (hidle : s.ctlState = .idle)
    (hin : x.addr.toNat + x.len.toNat ≤ s.params.capacity) :
    exec i s = .next (s.latch ⟨HostOp.read.code, x.addr, x.len, x.data⟩ (codeOf .read)) :=
  exec_request_passes hi hidle rfl (if_pos (decide_eq_true hin))

variable (hp : s.params.wf = true) (hlen : 1 ≤ x.len.toNat)
  (hin : x.addr.toNat + x.len.toNat ≤ s.params.capacity)
include hp hlen hin

theorem read_addr_toNat : (toAddr x.addr.toNat).toNat = x.addr.toNat := by
  have := (Params.wf_capacity hp).2
  exact toAddr_toNat (by omega)

theorem read_wellFormed : (Instr.wireRead (toAddr x.addr.toNat) x.len.toNat).wellFormed s.params.capacity = true := by
  simp only [Instr.wellFormed, read_addr_toNat hp hlen hin, hlen, hin, decide_true, Bool.and_self]

end

/-- Settles O38: the device honours the one frame of the `read` with the array's bytes. -/
theorem readReturnsBytes : Obligations.ReadReturnsBytes := by
  intro s x hp hc hlen hin
  let t := s.latch ⟨HostOp.read.code, x.addr, x.len, x.data⟩ (codeOf .read)
  have hrun := Reach.read (s := t) (n := 0) (d := s.mem.readBytes (toAddr x.addr.toNat).toNat x.len.toNat)
    (latch_live hp hc _ _) rfl hlen fun rest => exec_honoured (s := { t with cont := rest }) rfl (.inl hc.awake) rfl
      (read_wellFormed hp hlen hin) (.inl hc.not_busy)
  exact ⟨_, _, _, read_accepted rfl hc.idle hin, hrun.run, rfl, rfl, Memory.readBytes_length _ _ _,
    fun j hj => by rw [Memory.readBytes_getElem?, if_pos hj, read_addr_toNat hp hlen hin], ⟨rfl, rfl, rfl, rfl, rfl⟩,
    ⟨rfl, rfl, rfl, rfl, rfl, rfl, rfl, rfl⟩, ⟨rfl, rfl, rfl, rfl⟩, rfl, hc.no_fault, rfl⟩

/-- Settles O39: a BUSY device ignores the one frame of the `read`, so the bytes read are draws. -/
theorem readWhileBusyReturnsDraws : Obligations.ReadWhileBusyReturnsDraws := by
  intro s x hp hidle hfaults hawake hbusy hlen hin
  let t := s.latch ⟨HostOp.read.code, x.addr, x.len, x.data⟩ (codeOf .read)
  have hrun := Reach.read (s := t) (n := x.len.toNat) (d := s.drawBytes x.len.toNat) ⟨hp, rfl, hfaults, hawake⟩ rfl
    hlen fun rest => exec_ignored (s := { t with cont := rest }) rfl (.inl hawake) rfl (read_wellFormed hp hlen hin)
      hbusy (by simp)
  exact ⟨_, _, _, read_accepted rfl hidle hin, hrun.run, rfl, rfl, s.drawBytes_length _,
    fun j hj => s.drawBytes_getElem? hj, ⟨rfl, rfl, rfl, rfl, rfl⟩, hfaults⟩

/-- What a request without bytes leaves: `OK(0, [])`, no frame, and the device as it was in `s` (R196). -/
structure State.NothingDone (s u : State) : Prop where
  idle : u.ctlState = .idle
  response : u.response = some ⟨.ok, 0, []⟩
  trace : u.trace = s.trace
  device : s.SameDevice u
  no_fault : u.faults = []

theorem internal_writeTest_done {s : State} (src : DataSrc) (h : s.remLen.toNat = 0) (rest : List Micro) :
    s.internal (.writeTest src) rest = { s with cont := rest } := by
  simp only [State.internal, h, Nat.lt_irrefl, if_false]

theorem internal_pageTest_done {s : State} {w : PageWalk} (h : walkLen s w ≤ s.pgOff.toNat) (rest : List Micro) :
    s.internal (.pageTest w) rest = { s with cont := rest } := by
  simp only [State.internal, if_neg (Nat.not_lt.mpr h)]

/-- The line `return OK(0, [])` (10_state.md R56). -/
theorem Reach.returnNothing {s : State} (h : s.Enabled) :
    Reach { s with cont := [.ret .ok .zero false] } [.main] (s.respond ⟨.ok, 0, []⟩) :=
  .line (s := { s with cont := [.ret .ok .zero false] }) (m := .ret .ok .zero false) ⟨h.1, h.2, h.3⟩ rfl (by simp)

/-- Each of the three operations tests the length 0 before its first frame, and returns. -/
theorem Reach.emptyRequest {s : State} (h : s.Enabled) {op : HostOp}
    (hop : op = .read ∨ op = .write ∨ op = .writeNoCheck) (hc : s.cont = codeOf op) (hlen : s.req.len = 0) :
    ∃ k u, Reach s (List.replicate k .main) u ∧ s.NothingDone u := by
  suffices ∃ k v, Reach s (List.replicate k .main) { v with cont := [.ret .ok .zero false] } ∧ v.Enabled ∧
      v.trace = s.trace ∧ s.SameDevice v by
    obtain ⟨k, v, tested, hv, htrace, hdevice⟩ := this
    refine ⟨k + 1, v.respond ⟨.ok, 0, []⟩, ?_, rfl, rfl, htrace,
      ⟨hdevice.1, hdevice.2, hdevice.3, hdevice.4, hdevice.5⟩, hv.no_fault⟩
    rw [List.replicate_succ']
    exact tested.trans (.returnNothing hv)
  rcases hop with rfl | rfl | rfl
  · have tested := Reach.line h hc (by simp)
    rw [internal_lenTest_zero hlen] at tested
    exact ⟨1, s, tested, h, rfl, ⟨rfl, rfl, rfl, rfl, rfl⟩⟩
  · let body := s.internal (.writeInit .request) [.writeTest .request, .ret .ok .zero false]
    have started : Reach s [.main] body := .line h hc (by simp)
    have tested := Reach.line (s := body) (m := .writeTest .request) ⟨h.1, h.2, h.3⟩ rfl (by simp)
    have hrem : body.remLen.toNat = 0 := by simp [body, State.internal, writeLen, hlen]
    rw [internal_writeTest_done .request hrem] at tested
    exact ⟨2, body, started.trans tested, ⟨h.1, h.2, h.3⟩, rfl, ⟨rfl, rfl, rfl, rfl, rfl⟩⟩
  · let walk := s.internal .pageInit [.pageTest .raw, .ret .ok .zero false]
    have started : Reach s [.main] walk := .line h hc (by simp)
    have tested := Reach.line (s := walk) (m := .pageTest .raw) ⟨h.1, h.2, h.3⟩ rfl (by simp)
    have hwalk : walkLen walk .raw ≤ walk.pgOff.toNat := by simp [walk, State.internal, walkLen, hlen]
    rw [internal_pageTest_done hwalk] at tested
    exact ⟨2, walk, started.trans tested, ⟨h.1, h.2, h.3⟩, rfl, ⟨rfl, rfl, rfl, rfl, rfl⟩⟩

/-- A request of length 0 passes the checks of acceptance if its address is in range or at the end of the array, and
its data, if any is to be written, is empty (R196, R197). -/
theorem emptyRequest_accepted {s : State} {x : HostArgs} {i : Instr} {op : HostOp} (hi : requestFields i = some (op, x))
    (hop : op = .read ∨ x.data = [] ∧ (op = .write ∨ op = .writeNoCheck)) (hidle : s.ctlState = .idle)
    (hlen : x.len = 0) (hin : x.addr.toNat ≤ s.params.capacity) :
    exec i s = .next (s.latch ⟨op.code, x.addr, x.len, x.data⟩ (codeOf op)) := by
  have hrange : x.addr.toNat + x.len.toNat ≤ s.params.capacity := by rw [hlen]; exact hin
  rcases hop with rfl | ⟨hdata, hop⟩
  · exact read_accepted hi hidle hrange
  · exact write_accepted hi hop hidle (by rw [hdata, hlen]; rfl) hrange

/-- Settles O40: the request is accepted, and its pseudocode ends before any frame. -/
theorem zeroLengthSendsNothing : Obligations.ZeroLengthSendsNothing := by
  intro s x i hg hidle hfaults hlen hin hi
  obtain ⟨op, hfields, hop⟩ : ∃ op, requestFields i = some (op, x) ∧
      (op = .read ∨ x.data = [] ∧ (op = .write ∨ op = .writeNoCheck)) := by
    rcases hi with rfl | ⟨hdata, rfl | rfl⟩
    · exact ⟨.read, rfl, .inl rfl⟩
    · exact ⟨.write, rfl, .inr ⟨hdata, .inl rfl⟩⟩
    · exact ⟨.writeNoCheck, rfl, .inr ⟨hdata, .inr rfl⟩⟩
  obtain ⟨k, u, hreach, hu⟩ := Reach.emptyRequest (s := s.latch ⟨op.code, x.addr, x.len, x.data⟩ (codeOf op))
    ⟨hg, rfl, hfaults⟩ (hop.imp_right And.right) rfl hlen
  exact ⟨_, _, k, emptyRequest_accepted hfields hop hidle hlen hin, hreach.run_replicate, hu.idle, hu.response, hu.trace,
    ⟨hu.device.1, hu.device.2, hu.device.3, hu.device.4, hu.device.5⟩, hu.no_fault⟩

end Sys2Proof.Machine

/-! ### The two writes under some schedule (43_read_write.md R200, R209, R213, R214) -/

namespace Sys2Proof.Machine

/-- Some schedule of an operation that always concludes leads to its end. -/
theorem Concludes.completes {Q : State → Prop} {t : State} (h : Concludes Q t) :
    ∃ (u : State) (turns : List Turn), runFor turns.length { t with schedule := turns } = .next u ∧
      u.ctlState = .idle ∧ u.faults = [] ∧ Q u := by
  obtain ⟨turns, u, hrun, hidle, hfaults, hQ⟩ :=
    h (Completes fun u => u.faults = [] ∧ ∀ sch d, Q (u.rescheduled sch d)) (Completes.closed _)
      fun u _ hi hu hf _ => ⟨[], u, .nil u, hi, hf, hu⟩
  exact ⟨_, turns, hrun.run, hidle, hfaults, hQ [] u.delay⟩

/-- What no line of the two writes changes but the registers they use. -/
structure State.SameBesideWalk (s u : State) : Prop where
  awake : u.asleep = s.asleep
  idWord : u.idWord = s.idWord
  params : u.params = s.params
  hostQueue : u.hostQueue = s.hostQueue
  refused : u.refused = s.refused

section
variable {s : State} {x : HostArgs} (hp : s.params.wf = true) (hc : s.CleanStart) (hm : s.mem.wf)
  (hlen : x.data.length = x.len.toNat) (hin : x.addr.toNat + x.len.toNat ≤ s.params.capacity)
include hp hc hm hlen hin

/-- The walk of `write_no_check` writes no register but `pg_off`. -/
theorem writeNoCheck_keeps (code : BitVec 4) :
    Concludes (fun u => Programmed s x u ∧ s.SameWalk { u with pgOff := s.pgOff } ∧ s.SameBesideWalk u)
      (s.latch ⟨code, x.addr, x.len, x.data⟩ (codeOf .writeNoCheck)) := by
  intro W hW hidle
  have hl := latch_live hp hc ⟨code, x.addr, x.len, x.data⟩ (codeOf .writeNoCheck)
  have hb := hc.not_busy
  refine hW.pages .raw x.data [.ret .ok .zero false] hl hb rfl hlen x.len.isLt hin (fun j hj => ?_) fun b wel p o _ =>
    hW.returns hidle ⟨hl.1, hl.2, hl.3, hl.4⟩ hb rfl fun sch d => ⟨⟨rfl, hb, fun a => ?_⟩,
      ⟨rfl, rfl, rfl, rfl, rfl, rfl, rfl, rfl⟩, ⟨rfl, rfl, rfl, rfl, rfl⟩⟩
  · have hj' : (BitVec.ofNat 32 j).toNat = j := Nat.mod_eq_of_lt (hj.trans x.len.isLt)
    simp only [walkPiece, walkPieceLen, hj']
    rfl
  · exact (Memory.read_program hm x.addr.toNat x.data a).trans (by rw [hlen])

/-- `write` leaves its registers at the end of the request. -/
theorem smartWrite_keeps (code : BitVec 4) :
    Concludes (fun u => Stored s x u ∧ u.curAddr.toNat = x.addr.toNat + x.len.toNat ∧ u.remLen = 0 ∧
      u.bufOff = x.len ∧ s.SameBesideWalk u) (s.latch ⟨code, x.addr, x.len, x.data⟩ (codeOf .write)) := by
  intro W hW hidle
  have hl := latch_live hp hc ⟨code, x.addr, x.len, x.data⟩ (codeOf .write)
  refine hW.writeBody .request [.ret .ok .zero false] hl hc.not_busy hm State.blankScratch_length rfl hlen hin
    fun u hu hcont => ?_
  have hb : u.busy = false := hu.kept.busy.trans hc.not_busy
  have hrem : u.remLen = 0 := BitVec.eq_of_toNat_eq (hu.remLen.trans (Nat.sub_self _))
  exact hW.returns hidle (hu.kept.live hl) hb hcont fun _ _ => ⟨⟨rfl, hb, hu.avoids, hu.bytes⟩, hu.curAddr, hrem,
    BitVec.eq_of_toNat_eq hu.bufOff,
    ⟨hu.kept.asleep, hu.kept.idWord, hu.kept.params, hu.kept.hostQueue, hu.kept.refused⟩⟩

end

/-- Settles O44: the page walk of the whole request concludes under some schedule. -/
theorem writeNoCheckProgramsAnd : Obligations.WriteNoCheckProgramsAnd := by
  intro s x hp hc hm hlen hin
  obtain ⟨u, turns, hrun, hidle, hfaults, ⟨hresp, hbusy, hbytes⟩, hwalk, hkept⟩ :=
    (writeNoCheck_keeps hp hc hm hlen hin HostOp.writeNoCheck.code).completes
  exact ⟨_, u, turns, write_accepted rfl (.inr rfl) hc.idle hlen hin, hrun, hidle, hresp, hfaults, hbusy,
    hkept.awake.trans hc.awake, hwalk, hkept.idWord, hkept.params, hkept.hostQueue, hkept.refused, hbytes⟩

/-- Settles O45: the chunk loop of the whole request concludes under some schedule. -/
theorem smartWriteCompletes : Obligations.SmartWriteCompletes := by
  intro s x hp hc hm hlen hin
  obtain ⟨u, turns, hrun, hidle, hfaults, ⟨hresp, hbusy, -, hbytes⟩, hcur, hrem, hbuf, hkept⟩ :=
    (smartWrite_keeps hp hc hm hlen hin HostOp.write.code).completes
  exact ⟨_, u, turns, write_accepted rfl (.inl rfl) hc.idle hlen hin, hrun, hidle, hresp, hfaults, hbusy,
    hkept.awake.trans hc.awake, hcur, hrem, hbuf, hkept.idWord, hkept.params, hkept.hostQueue, hkept.refused, hbytes⟩

end Sys2Proof.Machine

/-! ### The power operations (44_id_selftest_power.md R226, R232, R234) -/

namespace Sys2Proof.Machine

/-- The line `return R(0, [])` (10_state.md R56). -/
theorem Reach.returnsZero {s : State} (h : s.Enabled) (r : Result) :
    Reach { s with cont := [.ret r .zero false] } [.main] (s.respond ⟨r, 0, []⟩) :=
  .line (s := { s with cont := [.ret r .zero false] }) (m := .ret r .zero false) ⟨h.1, h.2, h.3⟩ rfl (by simp)

/-- `s` at the position `rest`, past the frame of the command `op`, which set ASLEEP to `b`. -/
def State.switched (s : State) (op : WireOp) (b : Bool) (rest : List Micro) : State :=
  { s with cont := rest, asleep := b }.logFrame (s.opc op) none [] []

/-- The device takes `RPD` asleep or not (40_bus_commands.md R144, R145). -/
theorem exec_rpd_switched {s : State} (hb : s.busy = false) (rest : List Micro) :
    exec .rpd { s with cont := rest } = .next (s.switched .rpd false rest) :=
  exec_honoured (s := { s with cont := rest }) rfl (.inr rfl) rfl rfl (.inl hb)

theorem exec_pd_switched {s : State} (ha : s.asleep = false) (hb : s.busy = false) (rest : List Micro) :
    exec .pd { s with cont := rest } = .next (s.switched .pd true rest) :=
  exec_honoured (s := { s with cont := rest }) rfl (.inl ha) rfl rfl (.inl hb)

/-- From acceptance of `i`, `OK(0, [])` is returned after one frame of the command `op`, which sets ASLEEP to `b` and
changes nothing else of the device and no register. -/
def SwitchesPower (s : State) (i : Instr) (op : WireOp) (b : Bool) : Prop :=
  ∃ t u, exec i s = .next t ∧ runFor 2 { t with schedule := [.main, .main] } = .next u ∧
    u.ctlState = .idle ∧ u.response = some ⟨.ok, 0, []⟩ ∧ s.SameDevice { u with asleep := s.asleep } ∧ u.asleep = b ∧
    u.faults = [] ∧ s.SameWalk u ∧ s.SameRest u ∧ u.idWord = s.idWord ∧ u.trace = s.trace ++ [.frame (s.opc op) none [] []]

/-- A request whose pseudocode is a frame that sets ASLEEP, and the return. -/
theorem SwitchesPower.of_sent {s : State} {i : Instr} {r : Request} {k : FrameKind} {op : WireOp} {b : Bool}
    (hp : s.params.wf = true) (hf : s.faults = [])
    (hexec : exec i s = .next (s.latch r [.xfer k, .ret .ok .zero false]))
    (hsent : Reach (s.latch r [.xfer k, .ret .ok .zero false]) [.main]
      ((s.latch r [.xfer k, .ret .ok .zero false]).switched op b [.ret .ok .zero false])) : SwitchesPower s i op b := by
  have returned := Reach.returnsZero (s := (s.latch r [.xfer k, .ret .ok .zero false]).switched op b [])
    ⟨Params.wf_geometry hp, rfl, hf⟩ .ok
  exact ⟨_, _, hexec, (hsent.trans returned).run, rfl, rfl, ⟨rfl, rfl, rfl, rfl, rfl⟩, rfl, hf,
    ⟨rfl, rfl, rfl, rfl, rfl, rfl, rfl, rfl⟩, ⟨rfl, rfl, rfl, rfl⟩, rfl, rfl⟩

section
variable {s : State} (hp : s.params.wf = true) (hf : s.faults = []) (hb : s.busy = false) {i : Instr} {r : Request}
include hp hf hb

theorem SwitchesPower.wake (hexec : exec i s = .next (s.latch r [.xfer .rpd, .ret .ok .zero false])) :
    SwitchesPower s i .rpd false :=
  .of_sent hp hf hexec (.frame (s := s.latch r _) ⟨Params.wf_geometry hp, rfl, hf⟩ rfl rfl
    (decode_rpd (Params.wf_opcodes hp)) (exec_rpd_switched (s := s.latch r _) hb _))

theorem SwitchesPower.sleep (ha : s.asleep = false)
    (hexec : exec i s = .next (s.latch r [.xfer .pd, .ret .ok .zero false])) : SwitchesPower s i .pd true :=
  .of_sent hp hf hexec (.frame (s := s.latch r _) ⟨Params.wf_geometry hp, rfl, hf⟩ rfl rfl
    (decode_pd (Params.wf_opcodes hp)) (exec_pd_switched (s := s.latch r _) ha hb _))

end

/-- Settles O36: each of the three requests is one power frame, which the device honours, and the return. -/
theorem powerOperationsComplete : Obligations.PowerOperationsComplete := fun _ x hp hi hf hb =>
  ⟨SwitchesPower.wake hp hf hb (exec_request_passes (i := .hostInit x) rfl hi rfl rfl),
    SwitchesPower.wake hp hf hb (exec_request_passes (i := .wakeUp x) rfl hi rfl rfl),
    fun ha => SwitchesPower.sleep hp hf hb ha (exec_request_passes (i := .powerDown x) rfl hi rfl rfl)⟩

end Sys2Proof.Machine

/-! ### The end of the self-test (44_id_selftest_power.md R238, R240) -/

namespace Sys2Proof.Machine

theorem idExp_toNat (w : BitVec 24) : (idExp w).toNat = w.toNat % 256 := by
  simp [idExp]

/-- The value of the response is `2^e`, `e` being the exponent of the code in the register (R231). -/
theorem idCapacity_of_code {w : BitVec 24} (h : w.toNat % 256 < 32) : (idCapacity w).toNat = 2 ^ (w.toNat % 256) := by
  rw [← idExp_toNat] at h ⊢
  exact idCapacity_toNat h

/-- The outcome of the comparison of `bytes` with the pattern. -/
def comparisonResult (p : Params) (bytes : List Byte) : Result := if bytes = p.pattern then .ok else .dataMismatch

theorem internal_compare_mismatch {t : State} (h : t.rx ≠ t.params.pattern) (rest : List Micro) :
    t.internal .compare rest = { t with cont := [.ret .dataMismatch .capacity false] } := by
  simp only [State.internal, if_neg h]

/-- The comparison and the return, on whatever bytes the last frame read: `compare_run` with its whole end state. -/
theorem Reach.compare {s : State} (h : s.Enabled) (hc : s.cont = [.compare, .ret .ok .capacity false]) :
    Reach s [.main, .main] (s.respond ⟨comparisonResult s.params s.rx, idCapacity s.idWord, []⟩) := by
  have compared := Reach.line h hc (by simp)
  have returned := fun r => Reach.line (s := { s with cont := [.ret r .capacity false] }) (m := .ret r .capacity false)
    ⟨h.1, h.2, h.3⟩ rfl (by simp)
  by_cases he : s.rx = s.params.pattern
  · rw [internal_compare he] at compared
    rw [comparisonResult, if_pos he]
    exact compared.trans (returned .ok)
  · rw [internal_compare_mismatch he] at compared
    rw [comparisonResult, if_neg he]
    exact compared.trans (returned .dataMismatch)

/-- `s` at the position `rest`, past the frame that reads the first page of the array. -/
def State.pageRead (s : State) (rest : List Micro) : State :=
  { s with cont := rest }.logFrame (s.opc .read) (some 0) [] (s.mem.readBytes 0 Config.page)

/-- The end of the self-test from its read-back on: the device is as it was in `s`, the result goes by its first page. -/
def State.verified (s : State) : State :=
  (s.pageRead []).respond ⟨comparisonResult s.params (s.mem.readBytes 0 Config.page), idCapacity s.idWord, []⟩

theorem Reach.readBack {s : State} (h : s.Live) (hb : s.busy = false)
    (hc : s.cont = [.xfer .readBack, .compare, .ret .ok .capacity false]) :
    Reach s [.main, .main, .main] s.verified := by
  have hcap : 0 + Config.page ≤ s.params.capacity := by
    have := Params.geometry_capacity h.geometry
    simp only [Config.page]
    omega
  have sent := Reach.frame h.enabled hc rfl (decode_read h.opcodes 0 Config.page)
    (exec_read_bytes (s := { s with cont := [.compare, .ret .ok .capacity false] }) h.awake hb (by decide) hcap rfl)
  have compared := Reach.compare (s := s.pageRead [.compare, .ret .ok .capacity false]) ⟨h.geometry, h.2, h.3⟩ rfl
  exact sent.trans compared

/-- The first page of the array is the pattern if it agrees with it byte by byte. -/
theorem readBytes_page_eq_pattern_iff {p : Params} (hp : p.wf = true) (m : Memory) :
    m.readBytes 0 Config.page = p.pattern ↔ ∀ j, j < 256 → p.pattern[j]? = some (m.read j) := by
  have hlen : p.pattern.length = 256 := Params.wf_pattern hp
  constructor
  · intro h j hj
    rw [← h, Memory.readBytes_getElem?, if_pos (show j < Config.page from hj), Nat.zero_add]
  · refine fun h => List.ext_getElem? fun j => ?_
    rw [Memory.readBytes_getElem?, Nat.zero_add]
    by_cases hj : j < 256
    · rw [if_pos (show j < Config.page from hj), h j hj]
    · rw [if_neg (show ¬ j < Config.page from hj), List.getElem?_eq_none (by omega)]

/-! ### A self-test that passes (44_id_selftest_power.md R240, R242) -/

theorem comparisonResult_of_pattern_stored {p : Params} (hp : p.wf = true) {m n : Memory}
    (hread : ∀ a, n.read a = if a < 256 then p.pattern.getD a Config.erased else m.read a) :
    comparisonResult p (n.readBytes 0 Config.page) = .ok := by
  have hlen : p.pattern.length = 256 := Params.wf_pattern hp
  refine if_pos ((readBytes_page_eq_pattern_iff hp n).mpr fun j hj => ?_)
  rw [hread, if_pos hj, List.getD_eq_getElem _ _ (hlen ▸ hj), List.getElem?_eq_getElem]

/-- What a self-test that has checked the code in the register leaves: `OK` with the capacity of that code, the pattern in
the first page, the other bytes of `m`, and only registers of the write changed. -/
structure State.PatternStored (s : State) (m : Memory) (u : State) : Prop extends s.SameBesideWalk u where
  response : u.response = some ⟨.ok, idCapacity s.idWord, []⟩
  no_fault : u.faults = []
  not_busy : u.busy = false
  bytes : ∀ a, u.mem.read a = if a < 256 then s.params.pattern.getD a Config.erased else m.read a

theorem Completes.mono {Q R : State → Prop} {s : State} (h : ∀ u, Q u → R u) : Completes Q s → Completes R s :=
  fun ⟨turns, u, hrun, hidle, hQ⟩ => ⟨turns, u, hrun, hidle, h u hQ⟩

theorem Completes.patternWrite {s : State} (h : s.Live) (hb : s.busy = false) (hm : s.mem.wf)
    (hscr : s.scratch.length = Config.sector)
    (hc : s.cont = Machine.writeBody .pattern ++ [.xfer .readBack, .compare, .ret .ok .capacity false]) :
    Completes (s.PatternStored s.mem) s := by
  have hcap : 0 + 256 ≤ s.params.capacity := by
    have := Params.geometry_capacity h.geometry
    omega
  refine (Completes.closed _).writeBody .pattern _ h hb hm hscr hc (Params.wf_pattern h.params) hcap fun u hu hcont => ?_
  have hread (a : Nat) : u.mem.read a = if a < 256 then s.params.pattern.getD a Config.erased else s.mem.read a := by
    simpa [writeAddr, writeLen, srcBytes, Config.page] using hu.bytes a
  have hresult : comparisonResult u.params (u.mem.readBytes 0 Config.page) = .ok :=
    hu.kept.params ▸ comparisonResult_of_pattern_stored h.params hread
  have hbusy : u.busy = false := hu.kept.busy.trans hb
  refine ⟨_, _, .readBack (hu.kept.live h) hbusy hcont, rfl, ⟨hu.kept.asleep, hu.kept.idWord, hu.kept.params,
    hu.kept.hostQueue, hu.kept.refused⟩, ?_, hu.kept.faults.trans h.no_fault, hbusy, hread⟩
  rw [← hu.kept.idWord, ← hresult]
  rfl

/-- A self-test on a device with the expected identity stores the pattern over an erased sector 0. -/
theorem Completes.selfTest {s : State} (h : s.Live) (hb : s.busy = false) (hm : s.mem.wf)
    (hscr : s.scratch.length = Config.sector) (hc : s.cont = codeOf .selfTest)
    (hmfr : s.params.devMfr = s.params.expectedMfr) (hmin : s.params.expMin.toNat ≤ s.params.devCapExp.toNat)
    (hmax : s.params.devCapExp.toNat ≤ s.params.expMax.toNat) :
    Completes (({ s with idWord := deviceCode s.params } : State).PatternStored (s.mem.eraseRange 0 Config.sector)) s := by
  have hcap := (Params.geometry_capacity h.geometry).2.1
  refine (Completes.closed _).identityChecks h hb hmfr hmin hmax hc fun b => ?_
  refine (Completes.closed _).gated (k := .erase .sectorZero) (p := .eraseSector (unitBase 0 Config.sector))
    ⟨h.1, h.2, h.3, h.4⟩ hb rfl rfl (decode_se h.opcodes 0) rfl rfl (decide_eq_true hcap) (fun _ => rfl) fun b' _ => ?_
  refine Completes.mono (fun u hu => ?_)
    (Completes.patternWrite ⟨h.1, h.2, h.3, h.4⟩ hb (Memory.eraseRange_wf hm _ _) hscr rfl)
  exact ⟨⟨hu.awake, hu.idWord, hu.params, hu.hostQueue, hu.refused⟩, hu.response, hu.no_fault, hu.not_busy, hu.bytes⟩

/-- Settles O50: from acceptance, some schedule completes the self-test. -/
theorem selfTestPasses : Obligations.SelfTestPasses := by
  intro s x hp hc hm hmfr hmin hmax
  have hl := latch_live hp hc ⟨HostOp.selfTest.code, x.addr, x.len, x.data⟩ (codeOf .selfTest)
  obtain ⟨turns, u, hrun, hidle, hu⟩ :=
    Completes.selfTest hl hc.not_busy hm State.blankScratch_length rfl hmfr hmin hmax
  have hexp : idExp (deviceCode s.params) = s.params.devCapExp := idExp_append _ _ _
  refine ⟨_, _, turns, idCapacity (deviceCode s.params), exec_request_passes rfl hc.idle rfl rfl, hrun.run, hidle,
    hu.response, fun he => ?_, hu.no_fault, hu.not_busy, hu.awake.trans hc.awake, hu.params, hu.idWord, hu.hostQueue,
    hu.refused, fun a => (hu.bytes a).trans ?_⟩
  · rw [← hexp] at he ⊢
    exact idCapacity_toNat he
  · refine if_congr Iff.rfl rfl ?_
    have herased : (s.mem.eraseRange 0 4096).read a = if a < 4096 then Config.erased else s.mem.read a := by
      simpa using Memory.read_eraseRange s.mem 0 4096 a
    exact herased

/-! ### The self-test's failures (44_id_selftest_power.md R236, R237, R241) -/

theorem internal_idCheck_mismatch {t : State} (h : idMfr t.idWord ≠ t.params.expectedMfr) (rest : List Micro) :
    t.internal .idCheck rest = { t with cont := [.ret .idMismatch .zero false] } := by
  simp only [State.internal, if_neg h]

theorem internal_sizeCheck_outOfRange {t : State} (h : (idExp t.idWord).toNat < t.params.expMin.toNat ∨
      t.params.expMax.toNat < (idExp t.idWord).toNat) (rest : List Micro) :
    t.internal .sizeCheck rest = { t with cont := [.ret .sizeOutOfRange .zero false] } := by
  simp only [State.internal, if_pos h]

/-- `s` at the position `rest`, past the JEDEC frame, the device's code in the register. -/
def State.coded (s : State) (rest : List Micro) : State := ({ s with idWord := deviceCode s.params } : State).identified rest

theorem Reach.coded {s : State} (h : s.Live) (hb : s.busy = false) {rest : List Micro}
    (hc : s.cont = .xfer .jedec :: .setId24 :: rest) : Reach s [.main, .main] (s.coded rest) := by
  have sent := Reach.frame h.enabled hc rfl (decode_jedec h.opcodes 3) (exec_jedec_identified h.awake hb _ s.delay)
  have assembled := Reach.line (s := s.identified (.setId24 :: rest)) (m := .setId24) ⟨h.geometry, h.2, h.3⟩ rfl (by simp)
  rw [internal_setId24 rfl] at assembled
  exact sent.trans assembled

section
variable {s : State} (h : s.Live) (hb : s.busy = false) {rest : List Micro}
  (hc : s.cont = .xfer .jedec :: .setId24 :: .idCheck :: .sizeCheck :: rest)
include h hb hc

theorem Reach.idMismatch (hmfr : s.params.devMfr ≠ s.params.expectedMfr) :
    Reach s (List.replicate 4 .main) ((s.coded []).respond ⟨.idMismatch, 0, []⟩) := by
  have hcode : idMfr (deviceCode s.params) ≠ s.params.expectedMfr := (idMfr_append _ _ _).trans_ne hmfr
  have checked := Reach.line (s := s.coded (.idCheck :: .sizeCheck :: rest)) (m := .idCheck) ⟨h.geometry, h.2, h.3⟩ rfl
    (by simp)
  rw [internal_idCheck_mismatch (t := s.coded _) hcode] at checked
  exact ((Reach.coded h hb hc).trans checked).trans (.returnsZero (s := s.coded []) ⟨h.geometry, h.2, h.3⟩ .idMismatch)

theorem Reach.sizeOutOfRange (hmfr : s.params.devMfr = s.params.expectedMfr)
    (hsize : s.params.devCapExp.toNat < s.params.expMin.toNat ∨ s.params.expMax.toNat < s.params.devCapExp.toNat) :
    Reach s (List.replicate 5 .main) ((s.coded []).respond ⟨.sizeOutOfRange, 0, []⟩) := by
  have hcode : idMfr (deviceCode s.params) = s.params.expectedMfr := (idMfr_append _ _ _).trans hmfr
  have hexp : idExp (deviceCode s.params) = s.params.devCapExp := idExp_append _ _ _
  rw [← hexp] at hsize
  have identified := Reach.line (s := s.coded (.idCheck :: .sizeCheck :: rest)) (m := .idCheck) ⟨h.geometry, h.2, h.3⟩
    rfl (by simp)
  rw [internal_idCheck (t := s.coded _) hcode] at identified
  have sized := Reach.line (s := s.coded (.sizeCheck :: rest)) (m := .sizeCheck) ⟨h.geometry, h.2, h.3⟩ rfl (by simp)
  rw [internal_sizeCheck_outOfRange (t := s.coded _) hsize] at sized
  exact (((Reach.coded h hb hc).trans identified).trans sized).trans
    (.returnsZero (s := s.coded []) ⟨h.geometry, h.2, h.3⟩ .sizeOutOfRange)

end

/-- Settles O52: the checks run on the code the device answers, the comparison on the bytes of the last frame, and the
read-back makes these the first page of the array. -/
theorem selfTestFailureOutcomes : Obligations.SelfTestFailureOutcomes := by
  refine ⟨fun s x hp hc => ?_, fun s hp hrun hf => ⟨fun hcont => ?_, fun hcont ha hb => ?_⟩⟩
  · let r : Request := ⟨HostOp.selfTest.code, x.addr, x.len, x.data⟩
    have accepted : exec (.selfTest x) s = .next (s.latch r (codeOf .selfTest)) := exec_request_passes rfl hc.idle rfl rfl
    have hl := latch_live hp hc r (codeOf .selfTest)
    refine ⟨⟨_, _, accepted, rfl⟩, fun hmfr => ?_, fun hmfr hsize => ?_⟩
    · exact ⟨_, _, accepted, (Reach.idMismatch hl hc.not_busy rfl hmfr).run_replicate, rfl, rfl, hc.no_fault,
        ⟨rfl, rfl, rfl, rfl, rfl⟩, List.length_append⟩
    · exact ⟨_, _, accepted, (Reach.sizeOutOfRange hl hc.not_busy rfl hmfr hsize).run_replicate, rfl, rfl, hc.no_fault,
        ⟨rfl, rfl, rfl, rfl, rfl⟩, List.length_append⟩
  · exact ⟨_, _, (Reach.compare ⟨Params.wf_geometry hp, hrun, hf⟩ hcont).run, rfl, rfl, idCapacity_of_code, hf,
      ⟨rfl, rfl, rfl, rfl, rfl⟩, rfl⟩
  · have hpage := readBytes_page_eq_pattern_iff hp s.mem
    exact ⟨_, _, _, (Reach.readBack ⟨hp, hrun, hf, ha⟩ hb hcont).run, rfl, rfl, fun hall => if_pos (hpage.mpr hall),
      fun ⟨j, hj, hne⟩ => if_neg fun heq => hne (hpage.mp heq j hj), idCapacity_of_code, hf,
      ⟨rfl, rfl, rfl, rfl, rfl⟩, List.length_append⟩

end Sys2Proof.Machine

/-! ### Acceptance and its records (60_exceptions.md R261 to R265) -/

namespace Sys2Proof

/-- The codes that 30_encoding.md R115 leaves unassigned are the reserved ones. -/
theorem HostOp.ofCode?_eq_none_iff (c : BitVec 4) :
    HostOp.ofCode? c = none ↔ c = 0x0 ∨ c = 0xD ∨ c = 0xE ∨ c = 0xF := by
  revert c; decide

/-- The controller's decoder rejects exactly the words that R262 calls illegal. -/
theorem decodeRequest_error_iff (w : HostWord) :
    (∃ e, decodeRequest w = .error e) ↔
      cmdOp w.cmd = 0x0 ∨ cmdOp w.cmd = 0xD ∨ cmdOp w.cmd = 0xE ∨ cmdOp w.cmd = 0xF ∨ cmdReserved w.cmd ≠ 0 := by
  have hcode := HostOp.ofCode?_eq_none_iff (cmdOp w.cmd)
  unfold decodeRequest
  split_ifs with hres
  · cases hop : HostOp.ofCode? (cmdOp w.cmd) <;> simpa [hop, hres] using hcode
  · exact iff_of_true ⟨_, rfl⟩ (.inr (.inr (.inr (.inr hres))))

namespace Machine

theorem submitStep_of_ok {w : HostWord} {i : Instr} (h : decodeRequest w = .ok i) (s : State) :
    State.submitStep w s = exec i s := by
  rw [State.submitStep, h]

theorem submitStep_of_error {w : HostWord} {e : DecodeError} (h : decodeRequest w = .error e) (s : State) :
    State.submitStep w s = .next (s.acceptIllegal w) := by
  rw [State.submitStep, h]

theorem acceptIllegal_running {s : State} (h : s.ctlState = .running) (w : HostWord) :
    s.acceptIllegal w = s.raise (.reentrant (cmdOp w.cmd)) := if_pos h

theorem acceptIllegal_idle {s : State} (h : s.ctlState = .idle) (w : HostWord) :
    s.acceptIllegal w = (s.latch ⟨cmdOp w.cmd, w.addr, w.len, w.data⟩ []).raise (.illegalOp w.cmd) :=
  if_neg (by simp [h])

theorem lengthFault_eq (op : HostOp) (x : HostArgs) :
    lengthFault op x = if (op = .write ∨ op = .writeNoCheck) ∧ x.data.length ≠ x.len.toNat then
      some (.badRequest op.code x.len x.data.length) else none := by
  cases op <;> simp [lengthFault]

theorem rangeFault_eq (p : Params) (op : HostOp) (x : HostArgs) :
    rangeFault p op x =
      if (op = .read ∨ op = .write ∨ op = .writeNoCheck) ∧ p.capacity < x.addr.toNat + x.len.toNat then
        some (.outOfRange x.addr x.len)
      else if (op = .eraseSector ∨ op = .eraseBlock) ∧ p.capacity ≤ x.addr.toNat then some (.outOfRange x.addr 0)
      else none := by
  cases op <;> simp [rangeFault, inRange, addrInRange, -not_lt, -Nat.not_lt, ← Nat.not_lt]

/-- Acceptance adds the record of the first check that fails, and no other (R265). -/
theorem mem_accept (op : HostOp) (x : HostArgs) (code : List Micro) (s : State) (f : FaultRecord) :
    f ∈ (s.accept op x code).faults ↔ f ∈ s.faults ∨ some f =
      if s.ctlState = .running then some (.reentrant op.code)
      else (lengthFault op x).or (rangeFault s.params op x) := by
  unfold State.accept
  split_ifs with hc
  · simp only [mem_raise, Option.some.injEq]
  · cases lengthFault op x with
    | some g => simp only [mem_raise, State.latch_faults, Option.some_or, Option.some.injEq]
    | none =>
      cases rangeFault s.params op x with
      | some g => simp only [mem_raise, State.latch_faults, Option.none_or, Option.some.injEq]
      | none => simp

/-- Acceptance sends no frame and refuses nothing (R265). -/
theorem accept_trace_refused (op : HostOp) (x : HostArgs) (code : List Micro) (s : State) :
    (s.accept op x code).trace = s.trace ∧ (s.accept op x code).refused = s.refused := by
  rcases accept_cases op x code s with ⟨-, he⟩ | ⟨-, ⟨f, he⟩ | he⟩ <;> rw [he] <;> exact ⟨rfl, rfl⟩

/-- An idle controller that accepts an operation is RUNNING, has no response, and leaves the device alone (R52). -/
theorem accept_idle {s : State} (hidle : s.ctlState = .idle) (op : HostOp) (x : HostArgs) (code : List Micro) :
    (s.accept op x code).ctlState = .running ∧ (s.accept op x code).response = none ∧
      s.SameDevice (s.accept op x code) := by
  rcases accept_cases op x code s with ⟨hc, -⟩ | ⟨-, ⟨f, he⟩ | he⟩
  · cases hidle.symm.trans hc
  · rw [he]; exact ⟨rfl, rfl, rfl, rfl, rfl, rfl, rfl⟩
  · rw [he]; exact ⟨rfl, rfl, rfl, rfl, rfl, rfl, rfl⟩

/-- No check of an operation records `IllegalOp`: that is the decoder's (R262, R265). -/
theorem illegalOp_notMem_accept {s : State} (hidle : s.ctlState = .idle) (hf : s.faults = []) (op : HostOp)
    (x : HostArgs) (code : List Micro) (cmd : Word) : FaultRecord.illegalOp cmd ∉ (s.accept op x code).faults := by
  rw [mem_accept, hf, hidle, lengthFault_eq, rangeFault_eq]
  split_ifs <;> simp

/-- Settles O34: a decoded request is accepted with the checks of `State.accept`, any other with those of
`State.acceptIllegal`. -/
theorem acceptanceChecksInOrder : Obligations.AcceptanceChecksInOrder := by
  refine ⟨fun s i op x hi => ?_, fun s w e he => ?_⟩
  · obtain ⟨htrace, hrefused⟩ := accept_trace_refused op x (codeOf op) s
    refine ⟨_, exec_request hi s, htrace, hrefused, fun f => ?_⟩
    rw [mem_accept, lengthFault_eq, rangeFault_eq]
    by_cases hlen : (op = .write ∨ op = .writeNoCheck) ∧ x.data.length ≠ x.len.toNat
    · simp only [if_pos hlen, Option.some_or]
    · simp only [if_neg hlen, Option.none_or]
  · refine ⟨_, submitStep_of_error he s, ?_⟩
    cases hc : s.ctlState with
    | running => rw [acceptIllegal_running hc]; exact ⟨rfl, rfl, fun _ => mem_raise⟩
    | idle => rw [acceptIllegal_idle hc]; exact ⟨rfl, rfl, fun _ => mem_raise⟩

/-- Settles O4: a word that the decoder rejects is latched with its record, and the checks of a decoded operation
record other faults. -/
theorem illegalCommandWordFaults : Obligations.IllegalCommandWordFaults := by
  intro s w hidle hf
  rw [← decodeRequest_error_iff]
  cases hdec : decodeRequest w with
  | error e =>
    refine ⟨_, submitStep_of_error hdec s, ?_⟩
    rw [acceptIllegal_idle hidle]
    exact ⟨iff_of_true (mem_raise.mpr (.inr rfl)) ⟨e, rfl⟩, rfl, rfl, ⟨rfl, rfl, rfl, rfl, rfl⟩, rfl⟩
  | ok i =>
    obtain ⟨op, x, hfields⟩ := decodeRequest_fields hdec
    obtain ⟨hrun, hresponse, hdevice⟩ := accept_idle hidle op x (codeOf op)
    exact ⟨_, (submitStep_of_ok hdec s).trans (exec_request hfields s),
      iff_of_false (illegalOp_notMem_accept hidle hf op x _ _) nofun, hrun, hresponse, hdevice,
      (accept_trace_refused op x _ s).1⟩

end Machine

end Sys2Proof

/-! ### Where the machine stops (60_exceptions.md R258; 70_reset_and_hazards.md R302) -/

namespace Sys2Proof.Machine

theorem perform_fault_iff (s : State) (m : Move) : s.perform m = .fault .stuck ↔ m = .stuck := by
  refine ⟨fun h => by_contra fun hm => ?_, fun h => h ▸ rfl⟩
  obtain ⟨t, ht⟩ := perform_next hm s
  cases ht.symm.trans h

theorem mainMove_stuck_iff (s : State) :
    s.mainMove = .stuck ↔ s.ctlState = .running ∧ s.faults ≠ [] ∧ s.busy = false := by
  cases hb : s.busy with
  | true => exact iff_of_false (mainMove_ne_stuck hb) (by simp)
  | false =>
    cases hc : s.ctlState with
    | idle => cases hq : s.hostQueue <;> simp [State.mainMove, hc, hq, hb]
    | running =>
      cases hf : s.faults with
      | nil => cases hcont : s.cont <;> simp [State.mainMove, hc, hf, hcont]
      | cons f fs => simp [State.mainMove, hc, hf, hb]

/-- Every turn falls back on the controller's move, but for a completion and for a request submitted at once. -/
theorem moveOf_stuck_iff (s : State) (turn : Turn) :
    s.moveOf turn = .stuck ↔ s.ctlState = .running ∧ s.faults ≠ [] ∧ s.busy = false ∧
      (turn = .hostNow → s.hostQueue = []) := by
  have hmain := mainMove_stuck_iff s
  cases turn with
  | main => simpa [State.moveOf] using hmain
  | device =>
    cases hb : s.busy with
    | true => simp [State.moveOf, hb]
    | false => simpa [State.moveOf, hb] using hmain
  | hostNow =>
    cases hq : s.hostQueue with
    | nil => simpa [State.moveOf, hq] using hmain
    | cons w rest => simp [State.moveOf, hq]

/-- Settles O8: a step stops exactly where its move is `stuck`, and the choice of the turn changes nothing that the move
reads. -/
theorem stuckExactlyWhenNothingEnabled : Obligations.StuckExactlyWhenNothingEnabled := by
  intro s
  unfold step
  split_ifs with hg
  · simp [perform_fault_iff, moveOf_stuck_iff, hg]
  · exact iff_of_false nofun fun h => hg h.1

/-! ### What a step leaves of the records (60_exceptions.md R257, R259) -/

/-- The fault records and the refused mark of `s` stand in `t`. -/
structure State.RecordsStand (s t : State) : Prop where
  faults : ∀ f ∈ s.faults, f ∈ t.faults
  refused : s.refused = true → t.refused = true

section
variable {s t : State}

theorem State.RecordsStand.of_eq (hf : t.faults = s.faults) (hr : t.refused = s.refused) : s.RecordsStand t :=
  ⟨fun _ h => hf ▸ h, fun h => hr.trans h⟩

theorem State.RecordsStand.raise (h : s.RecordsStand t) {f : FaultRecord} : s.RecordsStand (t.raise f) :=
  ⟨fun g hg => mem_raise.mpr (.inl (h.faults g hg)), h.refused⟩

theorem State.RecordsStand.refuse (h : s.RecordsStand t) {opc : Byte} : s.RecordsStand (t.refuse opc) :=
  ⟨h.raise.faults, fun _ => rfl⟩

/-- A frame may add a record; it removes none. -/
theorem FrameEffect.recordsStand {op : WireOp} {addr : Option Addr} {out : List Byte}
    (h : FrameEffect op addr out s t) : s.RecordsStand t := by
  cases h with
  | fault => refine .raise (.of_eq ?_ ?_) <;> rfl
  | refused => refine .refuse (.of_eq ?_ ?_) <;> rfl
  | answered | enabled | started | slept | woke => exact .of_eq rfl rfl

theorem xferUndecoded_recordsStand (e : DecodeError) (s : State) : s.RecordsStand (s.xferUndecoded e) := by
  rcases xferUndecoded_cases e s with ⟨w, -, he⟩ | ⟨opc, a, out, ⟨f, he⟩ | he⟩ <;> rw [he]
  · refine .raise (.of_eq ?_ ?_) <;> rfl
  · refine .raise (.of_eq ?_ ?_) <;> rfl
  · refine .refuse (.of_eq ?_ ?_) <;> rfl

theorem internal_recordsStand (m : Micro) (rest : List Micro) (s : State) : s.RecordsStand (s.internal m rest) := by
  obtain ⟨-, -, -, -, -, -, -, -, hrefused, -, hfaults | ⟨k, he⟩⟩ := internal_effect m rest s _ rfl
  · exact .of_eq hfaults hrefused
  · have hraised : s.RecordsStand (s.raise (.scratchUninit k)) := .raise (.of_eq rfl rfl)
    rw [he]
    exact ⟨hraised.faults, hraised.refused⟩

/-- No case of a step removes a record. -/
theorem StepCase.recordsStand (h : StepCase s t) : s.RecordsStand t := by
  cases h with
  | frame k rest op addr out _ hc hf hcont hop heff =>
    obtain ⟨hfaults, hrefused⟩ := heff.recordsStand
    exact ⟨hfaults, hrefused⟩
  | garbled k rest e =>
    obtain ⟨hfaults, hrefused⟩ := xferUndecoded_recordsStand e { s with cont := rest }
    exact ⟨hfaults, hrefused⟩
  | line m rest => exact internal_recordsStand m rest s
  | reentrant | rejected | unwritten => refine .raise (.of_eq ?_ ?_) <;> rfl
  | complete | accepted | finish | wait => exact .of_eq rfl rfl

/-- A controller with a fault recorded leaves two steps: the device's completion and a request that finds it RUNNING
(R258, R264). -/
theorem StepCase.of_fault (h : StepCase s t) (hc : s.ctlState = .running) (hf : s.faults ≠ []) :
    (s.busy = true ∧ t = s.complete) ∨
      ∃ rest op, t = { s with hostQueue := rest }.raise (.reentrant op) := by
  cases h with
  | complete hb => exact .inl ⟨hb, rfl⟩
  | reentrant w rest op => exact .inr ⟨rest, op, rfl⟩
  | accepted | rejected | wait => cases hc.symm.trans ‹s.ctlState = .idle›
  | frame | garbled | unwritten | line | finish => exact absurd ‹s.faults = []› hf

end

/-- Settles O31: the turn taken changes no record, and each case of the step keeps them all. -/
theorem faultRecordsAreSticky : Obligations.FaultRecordsAreSticky := by
  refine ⟨fun s f => mem_raise.mpr (.inr rfl), fun s t hstep => ?_⟩
  obtain ⟨-, hcase⟩ := step_cases hstep
  obtain ⟨hfaults, hrefused⟩ := hcase.recordsStand
  exact ⟨by simpa using hfaults, by simpa using hrefused⟩

/-- Settles O32: of the two steps that are left, neither writes a register of the controller. -/
theorem faultStopsController : Obligations.FaultStopsController := by
  intro s t hc hf hstep
  obtain ⟨-, hcase⟩ := step_cases hstep
  obtain ⟨later, d, hturn⟩ : ∃ later d, s.afterTurn = s.rescheduled later d := afterTurn_rescheduled s s.schedule
  rw [hturn] at hcase
  rcases hcase.of_fault hc hf with ⟨hb, rfl⟩ | ⟨rest, op, rfl⟩
  · exact ⟨hc, rfl, rfl, rfl, ⟨rfl, rfl, rfl, rfl, rfl, rfl, rfl, rfl⟩, rfl, rfl, rfl, .inl ⟨hb, rfl, rfl⟩⟩
  · exact ⟨hc, rfl, rfl, rfl, ⟨rfl, rfl, rfl, rfl, rfl, rfl, rfl, rfl⟩, rfl, rfl, rfl,
      .inr ⟨⟨rfl, rfl, rfl, rfl, rfl⟩, rfl, op, mem_raise.mpr (.inr rfl)⟩⟩

end Sys2Proof.Machine

/-! ### The controller's reset (70_reset_and_hazards.md R281, R282) -/

namespace Sys2Proof.Machine

/-- Every byte of a blank scratch buffer is there and has not been written. -/
theorem State.blankScratch_unwritten {k : Nat} (hk : k < 4096) : State.blankScratch[k]? = some none :=
  List.getElem?_replicate_of_lt hk

/-- Settles O58: each field is what `State.controllerReset` puts there, and the scratch buffer it puts there is blank. -/
theorem controllerResetKeepsDevice : Obligations.ControllerResetKeepsDevice := by
  intro s
  have hscratch : ∀ k, k < 4096 → s.controllerReset.scratch[k]? = some none := fun _ hk => by
    rw [State.controllerReset_scratch, State.blankScratch_unwritten hk]
  exact ⟨_, rfl, s.controllerReset_ctlState, s.controllerReset_faults, s.controllerReset_refused, s.controllerReset_trace,
    hscratch, s.controllerReset_mem, s.controllerReset_busy, s.controllerReset_wel, s.controllerReset_pending,
    s.controllerReset_params, s.controllerReset_asleep⟩

end Sys2Proof.Machine
